-- ==== Sys2Proof/Word.lean ====
section
/-! DEFINITION. The two sizes of data of the machine: the 16-bit word (registers, addresses, instruction words) and
the 8-bit byte (the smallest addressable unit), 00_scope.md rule R4. -/

namespace Sys2Proof

/-- A word: 16 bits, bit 15 the most significant (rule R6). -/
abbrev Word := BitVec 16

/-- A byte: 8 bits. -/
abbrev Byte := BitVec 8

end Sys2Proof
end

