-- ==== Sys2Proof/Syntax.lean ====
section
/-! DEFINITION. The instructions of the machine (30_encoding.md rule R76): one constructor for each mnemonic of
spec/opcode_table.json, whose operand has one constructor for each addressing mode the OP map admits for it
(40_addressing.md rule R100). An operand form that the OP map leaves blank cannot be written. -/

namespace Sys2Proof

/-- A register operand (10_state.md rule R23): field values 0h to Ch are G0 to G12, Dh is SP, Eh is USP. Field value
Fh (PC) is given no meaning as an operand, so no `Reg` stands for it (log 25). -/
inductive Reg where
  | g (k : Fin 13)
  | sp
  | usp
  deriving DecidableEq, Repr

/-- A place in memory, by the modes Drct, Index, FP Rlt, Indr (a word) and B Indr (a byte):
40_addressing.md rules R91, R92, R94, R97, R98. The operands of ST. -/
inductive Loc where
  | drct (dsp : Word)
  | index (dsp : Word) (rx : Reg)
  | fpRel (d4 : BitVec 4)
  | indr (rx : Reg)
  | bIndr (rx : Reg)
  deriving DecidableEq, Repr

/-- The second operand of LD and of the sixteen arithmetic instructions: the modes 0 to 7
(40_addressing.md rules R91 to R98). -/
inductive Src where
  | mem (l : Loc)
  | imm (v : Word)
  | reg (rs : Reg)
  | imm4 (i4 : BitVec 4)
  deriving DecidableEq, Repr

/-- The target of a jump or a CALL: the modes 0, 1 and 6 (45_jump_call.md rule R167). -/
inductive Target where
  | drct (dsp : Word)
  | index (dsp : Word) (rx : Reg)
  | indr (rx : Reg)
  deriving DecidableEq, Repr

/-- The port operand of IN and OUT: the modes 0 and 6 (a word access) and 7 (a byte access), 46_io.md rule R170. -/
inductive Port where
  | drct (dsp : Word)
  | indr (rx : Reg)
  | bIndr (rx : Reg)
  deriving DecidableEq, Repr

/-- The instructions, in the order of 30_encoding.md rule R76. -/
inductive Instr where
  | no
  | ld (rd : Reg) (src : Src)
  | ldFlag (rd : Reg)
  | st (rd : Reg) (dst : Loc)
  | add (rd : Reg) (src : Src)
  | sub (rd : Reg) (src : Src)
  | cmp (rd : Reg) (src : Src)
  | and (rd : Reg) (src : Src)
  | or (rd : Reg) (src : Src)
  | xor (rd : Reg) (src : Src)
  | adds (rd : Reg) (src : Src)
  | mul (rd : Reg) (src : Src)
  | div (rd : Reg) (src : Src)
  | mod (rd : Reg) (src : Src)
  | mull (rd : Reg) (src : Src)
  | divl (rd : Reg) (src : Src)
  | shla (rd : Reg) (src : Src)
  | shll (rd : Reg) (src : Src)
  | shra (rd : Reg) (src : Src)
  | shrl (rd : Reg) (src : Src)
  | jz (t : Target)
  | jc (t : Target)
  | jm (t : Target)
  | jo (t : Target)
  | jgt (t : Target)
  | jge (t : Target)
  | jle (t : Target)
  | jlt (t : Target)
  | jnz (t : Target)
  | jnc (t : Target)
  | jnm (t : Target)
  | jno (t : Target)
  | jhi (t : Target)
  | jls (t : Target)
  | jmp (t : Target)
  | call (t : Target)
  | inp (rd : Reg) (port : Port)
  | outp (rd : Reg) (port : Port)
  | push (rd : Reg)
  | pop (rd : Reg)
  | ret
  | reti
  | ei
  | di
  | svc
  | halt
  deriving DecidableEq, Repr

end Sys2Proof
end

