-- ==== Sys2Proof/Config.lean ====
section
/-! DEFINITION. The parameters that the manual leaves open (00_scope.md rule R5). Those to which the spec gives a
default are the fields of `Params`; the machine reads them from `params` of Machine/Params.lean alone, which holds the
defaults. Those left without one are the free values below, as is every result that the manual does not state (`any`,
rule R7): each is an opaque constant, so that no proof can see a value of it. The first argument `k` of each is the
counter `State.draws`, which every step advances: the same point at another step is another draw (log 4). Two
parameters are supplied by a state: `RESET_STATE` is `State.reset`, and `IPL_IMAGE` the ROM bytes of `State.mem`
(logs 2, 3). -/

namespace Sys2Proof

/-- The instructions with an open flag or an open result (10_state.md rule R33, 44_shift.md rule R144). -/
inductive OpenOp where
  | and | or | xor | adds | mul | div | mod | mull | divl | shla | shll | shra | shrl
  deriving DecidableEq, Repr

/-- The width of an I/O access: one byte or one word (20_memory.md rules R55, R56). -/
inductive Width where
  | byte
  | word
  deriving DecidableEq, Repr

/-- An I/O access, as it is recorded (20_memory.md rule R50: "an event that is recorded"). -/
inductive IoEvent where
  /-- IN read the port. -/
  | read (port : Byte) (w : Width)
  /-- OUT presented the value to the port (a byte access presents bits 7 to 0). -/
  | write (port : Byte) (w : Width) (v : Word)
  deriving DecidableEq, Repr

/-- The four result flags V, C, S, Z of FLAG (10_state.md rule R26). -/
structure Vcsz where
  v : Bool
  c : Bool
  s : Bool
  z : Bool
  deriving DecidableEq, Repr, Inhabited

namespace Machine

/-- The six exceptions of the vector table (60_exceptions.md rules R200, R201). -/
inductive Exc where
  | oddAddress
  | limitViolation
  | zeroDivide
  | privilegeViolation
  | undefinedInstruction
  | svc
  deriving DecidableEq, Repr

end Machine

/-! ## The parameters with a default -/

/-- Which byte of a word is at the even address: the type of `BYTE_ORDER` (20_memory.md rule R42, decision D1). -/
inductive ByteOrder where
  /-- Bits 15 to 8. -/
  | bigEndian
  /-- Bits 7 to 0. -/
  | littleEndian
  deriving DecidableEq, Repr

/-- Which address a fault exception saves: the type of `EXC_SAVED_PC` (60_exceptions.md rule R221, decision D20). -/
inductive SavedPc where
  | nextInstruction
  | faultingInstruction
  deriving DecidableEq, Repr

/-- What ends the halted state: the type of `HALT_WAKE` (48_system.md rule R193, decision D26). -/
inductive HaltWake where
  /-- Nothing but reset. -/
  | nothing
  /-- A boundary whose request lines `wakes` accepts; until then the CPU waits. -/
  | onRequest (wakes : BitVec 10 → Bool)

/-- The five operations of the multiply and divide unit: the record `MULDIV` (43_mul_div.md rule R135, decision D9). The
divisor of `div`, `mod` and `divl` is not zero. -/
structure MulDiv where
  /-- Bits 15 to 0 of the product (rule R130). -/
  mul : Word → Word → Word
  /-- The quotient, none where it does not fit (rule R131). -/
  div : Word → Word → Option Word
  /-- The remainder (rule R132). -/
  mod : Word → Word → Word
  /-- The product (rule R133). -/
  mull : Word → Word → BitVec 32
  /-- Quotient and remainder of `hi ++ lo` by the divisor, none where the quotient does not fit (rule R134). -/
  divl : Word → Word → Word → Option (Word × Word)

/-- The parameters of rule R5 to which the spec gives a default, and what a model ends a run at. -/
structure Params where
  /-- `BYTE_ORDER` (20_memory.md rule R42, log 17). -/
  byteOrder : ByteOrder
  /-- `MULDIV_SIGNED` (43_mul_div.md rule R135, log 16). -/
  mulDivSigned : Bool
  /-- `PRIV_SET` (60_exceptions.md rule R226, log 14). -/
  privSet : Instr → Bool
  /-- `EXC_SAVED_PC` (60_exceptions.md rule R221, log 12). -/
  excSavedPc : SavedPc
  /-- `MEMPROT`: whether, with this P, MPLOW and MPHIGH, an access of this many bytes at this address is admitted
  (20_memory.md rule R52, log 15). -/
  memProt : Bool → Word → Word → Word → Nat → Bool
  /-- `HALT_WAKE` (48_system.md rule R193, log 23). -/
  haltWake : HaltWake
  /-- Which exceptions end the run in a machine that starts from reset (60_exceptions.md rule R204, 30_encoding.md
  rule R80, log 13): the value of `State.runEndsAt` at reset. -/
  runEndsAt : List Machine.Exc

/-! ## The free values -/

namespace Config

/-- V and C after an instruction of flag class RESULT: the open parameter `FLAGS_VC(op, a, b)` of 00_scope.md rule R5
(10_state.md rule R33), log 5. -/
opaque flagsVC (k : Nat) (op : OpenOp) (a b : Word) : Bool × Bool

/-- V, C, S and Z after MULL (old Rd `a`, operand `b`, `hi` is 0) and DIVL (dividend `hi ++ a`, divisor `b`): flag
class OPEN (10_state.md rule R33), log 6. -/
opaque flagsOpen (k : Nat) (op : OpenOp) (hi a b : Word) : Vcsz

/-- The result of a shift by a count `n` above 15: `SHIFT_BIG(op, a, n)` (44_shift.md rule R144), log 7. -/
opaque shiftBig (k : Nat) (op : OpenOp) (a n : Word) : Word

/-- Rd after a DIV whose quotient does not fit 16 bits, which only a signed unit can meet (43_mul_div.md rule R131,
log 16). -/
opaque divQuotient (k : Nat) (a b : Word) : Word

/-- Rd after a DIVL whose quotient does not fit 16 bits (43_mul_div.md rule R134), log 8. -/
opaque divlQuotient (k : Nat) (hi lo b : Word) : Word

/-- Rd + 1 after a DIVL whose quotient does not fit 16 bits (43_mul_div.md rule R134), log 8. -/
opaque divlRemainder (k : Nat) (hi lo b : Word) : Word

/-- The value pushed by a PUSH of the active stack pointer, which held `sp` (47_stack_return.md rule R180), log 9. -/
opaque pushedSp (k : Nat) (sp : Word) : Word

/-- The active stack pointer after a POP into it, which held `sp` and popped `t` (47_stack_return.md rule R181),
log 9. -/
opaque poppedSp (k : Nat) (sp t : Word) : Word

/-- A read of the reserved attribute byte at address `a` (20_memory.md rules R45, R47), log 10. -/
opaque attributeByte (k : Nat) (a : Nat) : Byte

/-- The PC saved by an exception that the fetch of the instruction at `pc` raises (60_exceptions.md rule R221),
log 11. -/
opaque fetchSavedPc (k : Nat) (pc : Word) : Word

/-- Which of several requesting interrupts is accepted: an index into the requesters (`IRQ_ORDER`, 60_exceptions.md
rule R213), log 20. -/
opaque irqOrder (k : Nat) (lines : BitVec 10) : Nat

/-- DEVICE's answer for one byte of the I/O space, which may depend on every access made before (20_memory.md rules
R55, R56), log 21. -/
opaque deviceByte (k : Nat) (history : List IoEvent) (port : Byte) : Byte

end Config
end Sys2Proof
end

