-- ==== Sys2Proof/Machine/Params.lean ====
section
/-! DEFINITION. The parameters of the machine, at the defaults that the spec gives them (00_scope.md rule R5). -/

namespace Sys2Proof

/-- The default of `PRIV_SET`: {IN, OUT, EI, DI, HALT} (60_exceptions.md rule R226, log 14). -/
def privSet : Instr → Bool
  | .inp _ _ | .outp _ _ | .ei | .di | .halt => true
  | .no | .ld _ _ | .ldFlag _ | .st _ _ | .add _ _ | .sub _ _ | .cmp _ _ | .and _ _ | .or _ _ | .xor _ _ | .adds _ _
  | .mul _ _ | .div _ _ | .mod _ _ | .mull _ _ | .divl _ _ | .shla _ _ | .shll _ _ | .shra _ _ | .shrl _ _ | .jz _
  | .jc _ | .jm _ | .jo _ | .jgt _ | .jge _ | .jle _ | .jlt _ | .jnz _ | .jnc _ | .jnm _ | .jno _ | .jhi _ | .jls _
  | .jmp _ | .call _ | .push _ | .pop _ | .ret | .reti | .svc => false

/-- The default of `MEMPROT`: in user mode the bytes lie within the limits, both inclusive (20_memory.md rule R52,
log 15). -/
def userLimits (p : Bool) (low high a : Word) (n : Nat) : Bool :=
  p || (decide (low.toNat ≤ a.toNat) && decide (a.toNat + n - 1 ≤ high.toNat))

/-- The parameters of the machine. -/
def params : Params where
  byteOrder := .bigEndian
  mulDivSigned := false
  privSet := privSet
  excSavedPc := .nextInstruction
  memProt := userLimits
  haltWake := .nothing
  runEndsAt := [.oddAddress, .limitViolation, .undefinedInstruction]

end Sys2Proof
end

