-- ==== Sys2Proof/WellFormed.lean ====
section
/-! DEFINITION. Which instructions the manual admits beyond their operand forms (which the types of Syntax.lean
already keep): MULL and DIVL take an even-numbered register that begins a pair (43_mul_div.md rules R133, R134). -/

namespace Sys2Proof

/-- The registers that MULL and DIVL may name: an even field value at most Ch (rule R133, "require Rd even and
Rd <= Ch"). -/
def beginsPair : Reg → Bool
  | .g k => k.val % 2 = 0
  | .sp => false
  | .usp => false

/-- An instruction the manual gives a meaning. -/
def wellFormed : Instr → Bool
  | .mull rd _ => beginsPair rd
  | .divl rd _ => beginsPair rd
  | .no | .ld _ _ | .ldFlag _ | .st _ _ | .add _ _ | .sub _ _ | .cmp _ _ | .and _ _ | .or _ _ | .xor _ _ | .adds _ _
  | .mul _ _ | .div _ _ | .mod _ _ | .shla _ _ | .shll _ _ | .shra _ _ | .shrl _ _ | .jz _ | .jc _ | .jm _ | .jo _
  | .jgt _ | .jge _ | .jle _ | .jlt _ | .jnz _ | .jnc _ | .jnm _ | .jno _ | .jhi _ | .jls _ | .jmp _ | .call _
  | .inp _ _ | .outp _ _ | .push _ | .pop _ | .ret | .reti | .ei | .di | .svc | .halt => true

end Sys2Proof
end

