-- ==== Sys2Proof/Decode.lean ====
section
/-! DEFINITION. The instruction encoding of 30_encoding.md: bit fields, byte order, the decoder and the encoder, both
written from the OP map (rule R74), the formats (rule R72) and the condition table of the jumps (rule R78). -/

namespace Sys2Proof

/-! ## Bytes and fields -/

/-- The more significant byte of a word, bits 15 to 8. -/
def highByte (w : Word) : Byte := w.extractLsb' 8 8

/-- The less significant byte of a word, bits 7 to 0. -/
def lowByte (w : Word) : Byte := w.extractLsb' 0 8

/-- The byte of a word that stands at the even address (20_memory.md rule R42). -/
def evenByte (w : Word) : Byte :=
  match params.byteOrder with
  | .bigEndian => highByte w
  | .littleEndian => lowByte w

/-- The byte of a word that stands at the odd address (rule R42). -/
def oddByte (w : Word) : Byte :=
  match params.byteOrder with
  | .bigEndian => lowByte w
  | .littleEndian => highByte w

/-- The word of the byte at an even address and the byte after it (rule R42). -/
def wordOf (even odd : Byte) : Word :=
  match params.byteOrder with
  | .bigEndian => even ++ odd
  | .littleEndian => odd ++ even

/-- The bytes of a word in the order of memory (rule R42). -/
def wordBytes (w : Word) : List Byte := [evenByte w, oddByte w]

/-- Sign extension of a 4-bit field: `sext_16` of 00_scope.md rule R7. -/
def sext4 (f : BitVec 4) : Word := f.signExtend 16

/-- Zero extension of a byte: `zext_16` of 00_scope.md rule R7. -/
def zext8 (b : Byte) : Word := b.zeroExtend 16

/-- OP, bits 15 to 8 of the first word (rule R70). -/
def opField (w : Word) : Byte := w.extractLsb' 8 8

/-- Rd, bits 7 to 4 of the first word (rule R70). -/
def rdField (w : Word) : BitVec 4 := w.extractLsb' 4 4

/-- Rx, bits 3 to 0 of the first word (rule R70). -/
def rxField (w : Word) : BitVec 4 := w.extractLsb' 0 4

/-- The first word with the given fields (rule R70). -/
def firstWord (op : Byte) (rd rx : BitVec 4) : Word := op ++ rd ++ rx

/-! ## Lengths (rule R75) -/

/-- The length of an instruction with this operand, in words. -/
def Loc.words : Loc → Nat
  | .drct _ => 2
  | .index _ _ => 2
  | .fpRel _ => 1
  | .indr _ => 1
  | .bIndr _ => 1

/-- The length of an instruction with this operand, in words. -/
def Src.words : Src → Nat
  | .mem l => l.words
  | .imm _ => 2
  | .reg _ => 1
  | .imm4 _ => 1

/-- The length of an instruction with this operand, in words. -/
def Target.words : Target → Nat
  | .drct _ => 2
  | .index _ _ => 2
  | .indr _ => 1

/-- The length of an instruction with this operand, in words. -/
def Port.words : Port → Nat
  | .drct _ => 2
  | .indr _ => 1
  | .bIndr _ => 1

/-- The length of an instruction in words (rule R75). -/
def instrWords : Instr → Nat
  | .ld _ x | .add _ x | .sub _ x | .cmp _ x | .and _ x | .or _ x | .xor _ x | .adds _ x | .mul _ x | .div _ x
  | .mod _ x | .mull _ x | .divl _ x | .shla _ x | .shll _ x | .shra _ x | .shrl _ x => x.words
  | .st _ l => l.words
  | .jz t | .jc t | .jm t | .jo t | .jgt t | .jge t | .jle t | .jlt t | .jnz t | .jnc t | .jnm t | .jno t | .jhi t
  | .jls t | .jmp t | .call t => t.words
  | .inp _ p | .outp _ p => p.words
  | .no | .ldFlag _ | .push _ | .pop _ | .ret | .reti | .ei | .di | .svc | .halt => 1

/-! ## Decoding -/

/-- Why a word is no instruction of the model. -/
inductive Reject where
  /-- The OP is blank in the OP map, or the condition of a jump is Dh (rule R80): executing it raises
  UndefinedInstruction. -/
  | undefined
  /-- A field the format fixes at 0h is not zero (rule R79): no meaning. -/
  | reserved
  /-- A register field is Fh, PC (10_state.md rule R23): no meaning. -/
  | pcOperand
  /-- The bytes end inside the instruction. -/
  | truncated
  deriving DecidableEq, Repr

/-- The register a field names (10_state.md rule R23). -/
def regOfField (f : BitVec 4) : Except Reject Reg :=
  if h : f.toNat < 13 then .ok (.g ⟨f.toNat, h⟩)
  else if f = 13#4 then .ok .sp
  else if f = 14#4 then .ok .usp
  else .error .pcOperand

/-- A field the format fixes at 0h (rule R79). -/
def zeroField (f : BitVec 4) : Except Reject Unit :=
  if f = 0#4 then .ok () else .error .reserved

/-- The memory operand of mode `m`; the modes 2, 4 and 5 have none (rule R72). -/
def decodeLoc (m : Nat) (rx : BitVec 4) (w2 : Word) : Except Reject Loc :=
  match m with
  | 0 => do zeroField rx; .ok (.drct w2)
  | 1 => do let r ← regOfField rx; .ok (.index w2 r)
  | 3 => .ok (.fpRel rx)
  | 6 => do let r ← regOfField rx; .ok (.indr r)
  | 7 => do let r ← regOfField rx; .ok (.bIndr r)
  | _ => .error .undefined

/-- The second operand of mode `m` (rule R72). -/
def decodeSrc (m : Nat) (rx : BitVec 4) (w2 : Word) : Except Reject Src :=
  match m with
  | 2 => do zeroField rx; .ok (.imm w2)
  | 4 => do let r ← regOfField rx; .ok (.reg r)
  | 5 => .ok (.imm4 rx)
  | _ => do let l ← decodeLoc m rx w2; .ok (.mem l)

/-- The target of a jump or CALL of mode `m` (rule R74: modes 0, 1 and 6). -/
def decodeTarget (m : Nat) (rx : BitVec 4) (w2 : Word) : Except Reject Target :=
  match m with
  | 0 => do zeroField rx; .ok (.drct w2)
  | 1 => do let r ← regOfField rx; .ok (.index w2 r)
  | 6 => do let r ← regOfField rx; .ok (.indr r)
  | _ => .error .undefined

/-- The port of IN and OUT of mode `m` (rule R74: modes 0, 6 and 7). -/
def decodePort (m : Nat) (rx : BitVec 4) (w2 : Word) : Except Reject Port :=
  match m with
  | 0 => do zeroField rx; .ok (.drct w2)
  | 6 => do let r ← regOfField rx; .ok (.indr r)
  | 7 => do let r ← regOfField rx; .ok (.bIndr r)
  | _ => .error .undefined

/-- The jump with condition number `c` (rule R78); Dh is blank and so undefined (rule R80). -/
def jumpOf (c : BitVec 4) : Except Reject (Target → Instr) :=
  match c.toNat with
  | 0 => .ok .jz
  | 1 => .ok .jc
  | 2 => .ok .jm
  | 3 => .ok .jo
  | 4 => .ok .jgt
  | 5 => .ok .jge
  | 6 => .ok .jle
  | 7 => .ok .jlt
  | 8 => .ok .jnz
  | 9 => .ok .jnc
  | 10 => .ok .jnm
  | 11 => .ok .jno
  | 12 => .ok .jhi
  | 14 => .ok .jls
  | 15 => .ok .jmp
  | _ => .error .undefined

/-- Formats *0 to *7: Rd is a register, the operand is of mode `m`. -/
def decodeEa (mk : Reg → Src → Instr) (m : Nat) (rd rx : BitVec 4) (w2 : Word) : Except Reject Instr := do
  let x ← decodeSrc m rx w2
  let r ← regOfField rd
  .ok (mk r x)

/-- ST: the modes 0, 1, 3, 6 and 7 (rule R74). -/
def decodeSt (m : Nat) (rd rx : BitVec 4) (w2 : Word) : Except Reject Instr := do
  let l ← decodeLoc m rx w2
  let r ← regOfField rd
  .ok (.st r l)

/-- The jumps: Rd is the condition (rule R78). -/
def decodeJump (m : Nat) (rd rx : BitVec 4) (w2 : Word) : Except Reject Instr := do
  let mk ← jumpOf rd
  let t ← decodeTarget m rx w2
  .ok (mk t)

/-- CALL: Rd is the constant 0h (rules R78, R79). -/
def decodeCall (m : Nat) (rd rx : BitVec 4) (w2 : Word) : Except Reject Instr := do
  let t ← decodeTarget m rx w2
  zeroField rd
  .ok (.call t)

/-- IN and OUT. -/
def decodeIo (mk : Reg → Port → Instr) (m : Nat) (rd rx : BitVec 4) (w2 : Word) : Except Reject Instr := do
  let p ← decodePort m rx w2
  let r ← regOfField rd
  .ok (mk r p)

/-- Format *8: Rd is a register, Rx is 0h. -/
def decodeOneReg (mk : Reg → Instr) (rd rx : BitVec 4) : Except Reject Instr := do
  zeroField rx
  let r ← regOfField rd
  .ok (mk r)

/-- Format *9: Rd and Rx are 0h. -/
def decodeBare (i : Instr) (rd rx : BitVec 4) : Except Reject Instr := do
  zeroField rd
  zeroField rx
  .ok i

/-- The instruction of a first word and a second word, by the OP map (rule R74); a one-word instruction does not look
at `w2`. A blank cell is undefined (rule R80) before any field is looked at (rule R82). -/
def decode (w1 w2 : Word) : Except Reject Instr :=
  let op := opField w1
  let rd := rdField w1
  let rx := rxField w1
  let m := op.toNat % 8
  match op.toNat / 8 with
  | 0 => if m = 0 then decodeBare .no rd rx else .error .undefined
  | 1 => decodeEa .ld m rd rx w2
  | 2 => if m = 4 then decodeOneReg .ldFlag rd rx else decodeSt m rd rx w2
  | 3 => decodeEa .add m rd rx w2
  | 4 => decodeEa .sub m rd rx w2
  | 5 => decodeEa .cmp m rd rx w2
  | 6 => decodeEa .and m rd rx w2
  | 7 => decodeEa .or m rd rx w2
  | 8 => decodeEa .xor m rd rx w2
  | 9 => decodeEa .adds m rd rx w2
  | 10 => decodeEa .mul m rd rx w2
  | 11 => decodeEa .div m rd rx w2
  | 12 => decodeEa .mod m rd rx w2
  | 13 => decodeEa .mull m rd rx w2
  | 14 => decodeEa .divl m rd rx w2
  | 16 => decodeEa .shla m rd rx w2
  | 17 => decodeEa .shll m rd rx w2
  | 18 => decodeEa .shra m rd rx w2
  | 19 => decodeEa .shrl m rd rx w2
  | 20 => decodeJump m rd rx w2
  | 21 => decodeCall m rd rx w2
  | 22 => decodeIo .inp m rd rx w2
  | 23 => decodeIo .outp m rd rx w2
  | 24 =>
    if m = 0 then decodeOneReg .push rd rx
    else if m = 4 then decodeOneReg .pop rd rx
    else .error .undefined
  | 26 =>
    if m = 0 then decodeBare .ret rd rx
    else if m = 4 then decodeBare .reti rd rx
    else .error .undefined
  | 28 =>
    if m = 0 then decodeBare .ei rd rx
    else if m = 4 then decodeBare .di rd rx
    else .error .undefined
  | 30 => if m = 0 then decodeBare .svc rd rx else .error .undefined
  | 31 => if m = 7 then decodeBare .halt rd rx else .error .undefined
  | _ => .error .undefined

/-- The instruction at the head of a list of bytes, and the bytes after it. -/
def decodeBytes : List Byte → Except Reject (Instr × List Byte)
  | b0 :: b1 :: rest =>
    match decode (wordOf b0 b1) 0 with
    | .error r => .error r
    | .ok i =>
      if instrWords i = 1 then .ok (i, rest)
      else
        match rest with
        | b2 :: b3 :: rest' =>
          match decode (wordOf b0 b1) (wordOf b2 b3) with
          | .error r => .error r
          | .ok j => .ok (j, rest')
        | _ => .error .truncated
  | _ => .error .truncated

/-- The first and the second word of a table word `w` of `nbits` bits, numbered as spec/opcode_table.json numbers
them: bit 0 is the least significant bit of the first word, the second word is bits 31 to 16, and every bit from
`nbits` on is 0. -/
def tableWords (nbits w : Nat) : Word × Word :=
  let v := w % 2 ^ nbits
  (BitVec.ofNat 16 v, BitVec.ofNat 16 (v / 65536))

/-- The bytes of a table word as the hardware stores them: each word in the byte order, the first word first. -/
def tableBytes (nbits w : Nat) : List Byte :=
  wordBytes (tableWords nbits w).1 ++ wordBytes (tableWords nbits w).2

/-- The instruction the decoder reads from a table word. -/
def decodeTableWord (nbits w : Nat) : Option Instr :=
  match decodeBytes (tableBytes nbits w) with
  | .ok (i, _) => some i
  | .error _ => none

/-! ## Encoding -/

/-- The field value of a register (10_state.md rule R23). -/
def Reg.code : Reg → BitVec 4
  | .g k => BitVec.ofNat 4 k.val
  | .sp => 13#4
  | .usp => 14#4

/-- What an operand puts into the words: its addressing-mode number, the Rx field, and the second word if there is
one (rule R72). -/
structure OperandFields where
  mode : Byte
  low : BitVec 4
  second : List Word
  deriving DecidableEq, Repr

/-- The fields of a memory operand. -/
def Loc.fields : Loc → OperandFields
  | .drct d => ⟨0, 0, [d]⟩
  | .index d r => ⟨1, r.code, [d]⟩
  | .fpRel d4 => ⟨3, d4, []⟩
  | .indr r => ⟨6, r.code, []⟩
  | .bIndr r => ⟨7, r.code, []⟩

/-- The fields of a second operand. -/
def Src.fields : Src → OperandFields
  | .mem l => l.fields
  | .imm v => ⟨2, 0, [v]⟩
  | .reg r => ⟨4, r.code, []⟩
  | .imm4 i4 => ⟨5, i4, []⟩

/-- The fields of a jump target. -/
def Target.fields : Target → OperandFields
  | .drct d => ⟨0, 0, [d]⟩
  | .index d r => ⟨1, r.code, [d]⟩
  | .indr r => ⟨6, r.code, []⟩

/-- The fields of a port operand. -/
def Port.fields : Port → OperandFields
  | .drct d => ⟨0, 0, [d]⟩
  | .indr r => ⟨6, r.code, []⟩
  | .bIndr r => ⟨7, r.code, []⟩

/-- The words of an instruction with an operand: OP = base + mode (rule R73). -/
def encodeWith (base : Byte) (rd : BitVec 4) (f : OperandFields) : List Word :=
  firstWord (base + f.mode) rd f.low :: f.second

/-- The words of an instruction (rules R72 to R78). -/
def encode : Instr → List Word
  | .no => [firstWord 0x00 0 0]
  | .ld rd x => encodeWith 0x08 rd.code x.fields
  | .ldFlag rd => [firstWord 0x14 rd.code 0]
  | .st rd l => encodeWith 0x10 rd.code l.fields
  | .add rd x => encodeWith 0x18 rd.code x.fields
  | .sub rd x => encodeWith 0x20 rd.code x.fields
  | .cmp rd x => encodeWith 0x28 rd.code x.fields
  | .and rd x => encodeWith 0x30 rd.code x.fields
  | .or rd x => encodeWith 0x38 rd.code x.fields
  | .xor rd x => encodeWith 0x40 rd.code x.fields
  | .adds rd x => encodeWith 0x48 rd.code x.fields
  | .mul rd x => encodeWith 0x50 rd.code x.fields
  | .div rd x => encodeWith 0x58 rd.code x.fields
  | .mod rd x => encodeWith 0x60 rd.code x.fields
  | .mull rd x => encodeWith 0x68 rd.code x.fields
  | .divl rd x => encodeWith 0x70 rd.code x.fields
  | .shla rd x => encodeWith 0x80 rd.code x.fields
  | .shll rd x => encodeWith 0x88 rd.code x.fields
  | .shra rd x => encodeWith 0x90 rd.code x.fields
  | .shrl rd x => encodeWith 0x98 rd.code x.fields
  | .jz t => encodeWith 0xA0 0x0 t.fields
  | .jc t => encodeWith 0xA0 0x1 t.fields
  | .jm t => encodeWith 0xA0 0x2 t.fields
  | .jo t => encodeWith 0xA0 0x3 t.fields
  | .jgt t => encodeWith 0xA0 0x4 t.fields
  | .jge t => encodeWith 0xA0 0x5 t.fields
  | .jle t => encodeWith 0xA0 0x6 t.fields
  | .jlt t => encodeWith 0xA0 0x7 t.fields
  | .jnz t => encodeWith 0xA0 0x8 t.fields
  | .jnc t => encodeWith 0xA0 0x9 t.fields
  | .jnm t => encodeWith 0xA0 0xA t.fields
  | .jno t => encodeWith 0xA0 0xB t.fields
  | .jhi t => encodeWith 0xA0 0xC t.fields
  | .jls t => encodeWith 0xA0 0xE t.fields
  | .jmp t => encodeWith 0xA0 0xF t.fields
  | .call t => encodeWith 0xA8 0x0 t.fields
  | .inp rd p => encodeWith 0xB0 rd.code p.fields
  | .outp rd p => encodeWith 0xB8 rd.code p.fields
  | .push rd => [firstWord 0xC0 rd.code 0]
  | .pop rd => [firstWord 0xC4 rd.code 0]
  | .ret => [firstWord 0xD0 0 0]
  | .reti => [firstWord 0xD4 0 0]
  | .ei => [firstWord 0xE0 0 0]
  | .di => [firstWord 0xE4 0 0]
  | .svc => [firstWord 0xF0 0 0]
  | .halt => [firstWord 0xFF 0 0]

/-- The bytes of an instruction as memory holds them. -/
def encodeBytes (i : Instr) : List Byte := (encode i).flatMap wordBytes

end Sys2Proof
end

