-- ==== Sys2Proof/Machine/State.lean ====
section
/-! DEFINITION. The state of the machine (10_state.md), why a step may stop, and the state after reset (rule R37). -/

namespace Sys2Proof.Machine

/-- The FLAG register: the six bits that hold state (rule R26). The ten bits drawn 0 hold none (rule R27). -/
structure Flags where
  /-- Interrupt enable, bit 7. -/
  e : Bool
  /-- Privileged mode, bit 6. -/
  p : Bool
  /-- Overflow, bit 3. -/
  v : Bool
  /-- Carry, bit 2. -/
  c : Bool
  /-- Sign, bit 1. -/
  s : Bool
  /-- Zero, bit 0. -/
  z : Bool
  deriving DecidableEq, Repr

/-- The extension-port-high register, port 1Ch, drawn `M000 VVVV`: the five bits that hold state (60_exceptions.md rule
R232, log 40). -/
structure ExtPortHi where
  /-- The direction of the pins, bit 7 (true: output). -/
  m : Bool
  /-- The value driven on the pins I7 to I4, bits 3 to 0. -/
  v : BitVec 4
  deriving DecidableEq, Repr

/-- What the outside of the CPU gives at one instruction boundary. -/
structure BoundaryInput where
  /-- The ten request lines, bit n for interrupt source n (60_exceptions.md rules R210, R211). -/
  irq : BitVec 10
  /-- The bytes the micro-SD controller writes to RAM, if an OUT to ports 10h to 17h came before (20_memory.md rule
  R62). -/
  sdWrites : List Host.Cell
  deriving DecidableEq, Repr

/-- The whole state. -/
structure State where
  /-- G0 to G12 (rule R20); G12 is FP (rule R21). -/
  gpr : Vector Word 13
  /-- System stack pointer (rule R22). -/
  ssp : Word
  /-- User stack pointer (rule R22). -/
  usp : Word
  /-- Program counter (rule R24): between steps the address of the next instruction. -/
  pc : Word
  /-- FLAG (rule R26). -/
  flags : Flags
  /-- Whether HALT has stopped the CPU (rule R36). -/
  halted : Bool
  /-- The lower limit address, port F4h (20_memory.md rule R51). -/
  mplow : Word
  /-- The upper limit address, port F6h (20_memory.md rule R51). -/
  mphigh : Word
  /-- The extension-port-high register, port 1Ch (60_exceptions.md rule R232). -/
  extPortHi : ExtPortHi
  /-- The memory space: the bytes that hold a value, addresses strictly rising (20_memory.md rule R40, log 1). -/
  mem : List Host.Cell
  /-- The record of I/O accesses, latest first (20_memory.md rule R50, log 21). -/
  ioLog : List IoEvent
  /-- Whether an OUT to ports 10h to 17h has let the micro-SD controller at memory (20_memory.md rule R62, log 22). -/
  sdArmed : Bool
  /-- What the outside gives at each coming instruction boundary; after the last, nothing (log 19). -/
  inputs : List BoundaryInput
  /-- The model's own field: the exceptions that end the run instead of entering their handler (60_exceptions.md rule
  R204, 30_encoding.md rule R80, log 13). No step changes it; a state where it is empty follows every handler. -/
  runEndsAt : List Exc
  /-- The model's own counter of steps, the argument of the free values of `Config` (log 4). -/
  draws : Nat
  deriving DecidableEq, Repr

/-- Why the machine has no next state. -/
inductive Fault where
  /-- `step`, when HALT has stopped the CPU: nothing but reset ends the halted state (48_system.md rule R193). A
  terminal state, not an error. Safe: if something else wakes the hardware, the model only says less. -/
  | halted
  /-- A read or fetch of a RAM, VRAM or vector byte at address `a` that nothing has written (93_implementation_defined.md
  U11, U12, U27). Safe: the hardware reads some value and goes on. -/
  | unwritten (a : Nat)
  /-- An instruction fetch whose word holds the reserved attribute byte at address `a` (20_memory.md rule R48). Safe:
  the hardware fetches unspecified bits. -/
  | fetchReserved (a : Nat)
  /-- A trap entry that begins with an odd SSP (60_exceptions.md rule R222): stuck. Safe: no state is claimed. -/
  | trapEntryOddSsp
  /-- A trap entry whose pushes fall in the ROM (60_exceptions.md rule R222): stuck. Safe: no state is claimed. -/
  | trapEntryRom
  /-- `raise`, of an exception that `State.runEndsAt` names, from reset on OddAddress and LimitViolation: "it treats these
  two as model faults that end the run" (60_exceptions.md rule R204); and on UndefinedInstruction: "A model therefore
  treats an undefined encoding as a fault" (30_encoding.md rule R80). Safe: the hardware goes on, in the handler at
  best. -/
  | exceptionEndsRun (e : Exc)
  deriving DecidableEq, Repr

/-- Why the model gives an instruction or a word no meaning. -/
inductive Refusal where
  /-- `exec`, for an instruction whose meaning is not written. Safe. -/
  | notModelled (mnemonic : String)
  /-- The fetch, for a word whose should-be-zero field is not zero (30_encoding.md rule R79). Safe. -/
  | reservedWord
  /-- The fetch, for a word whose register field is Fh, PC (10_state.md rule R23). Safe. -/
  | pcOperand
  /-- MULL and DIVL, for a register that begins no pair (43_mul_div.md rules R133, R134). Safe. -/
  | registerPair
  /-- RETI with P = 0 (47_stack_return.md rule R183). Safe. -/
  | retiInUserMode
  /-- IN and OUT, for a port address above 00FFh (20_memory.md rule R54). Safe. -/
  | portAboveFF
  /-- IN and OUT, for a word access to an odd port (20_memory.md rule R54). Safe. -/
  | oddWordPort
  /-- IN and OUT, for a byte access to the limit registers, ports F4h to F7h (20_memory.md rule R51). Safe. -/
  | limitPortByte
  /-- A store whose bytes fall in the ROM (20_memory.md rules R46, R47). Safe. -/
  | romWrite
  /-- A read or fetch of a ROM byte, when no IPL_IMAGE holds it (93_implementation_defined.md U32). Safe. -/
  | iplImageAbsent
  deriving DecidableEq, Repr

/-- Why an instruction did not complete: it raised an exception, or the model stops. -/
inductive Stop where
  | trap (e : Exc)
  | fault (f : Fault)
  | refuse (r : Refusal)
  deriving DecidableEq, Repr

/-- The machine right after reset (rule R37): PC = F000h, P = 1, E = 0, not halted; nothing listed in memory, no
IPL_IMAGE; every register the spec leaves unspecified holds 0 (DESIGN CHOICE, logs 3, 40). -/
def State.reset : State where
  gpr := Vector.replicate 13 0
  ssp := 0
  usp := 0
  pc := 0xF000
  flags := { e := false, p := true, v := false, c := false, s := false, z := false }
  halted := false
  mplow := 0
  mphigh := 0
  extPortHi := { m := false, v := 0 }
  mem := []
  ioLog := []
  sdArmed := false
  inputs := []
  runEndsAt := params.runEndsAt
  draws := 0

end Sys2Proof.Machine
end

