-- ==== Sys2Proof/Machine/Flags.lean ====
section
/-! DEFINITION. The FLAG register as a word, and every flag computation of the manual (10_state.md rules R26 to R33). -/

namespace Sys2Proof.Machine

/-- FLAG as a word, `0000 0000 EP00 VCSZ` (rule R26); the ten bits drawn 0 read as 0 (rule R27). -/
def Flags.toWord (f : Flags) : Word :=
  0#8 ++ BitVec.ofBool f.e ++ BitVec.ofBool f.p ++ 0#2 ++
    BitVec.ofBool f.v ++ BitVec.ofBool f.c ++ BitVec.ofBool f.s ++ BitVec.ofBool f.z

/-- A write of a whole word to FLAG: the ten bits drawn 0 are ignored (rule R27). -/
def Flags.ofWord (w : Word) : Flags where
  e := w.getLsbD 7
  p := w.getLsbD 6
  v := w.getLsbD 3
  c := w.getLsbD 2
  s := w.getLsbD 1
  z := w.getLsbD 0

/-- FLAG with other result flags; E and P stay (rule R29). -/
def Flags.setVcsz (f : Flags) (r : Vcsz) : Flags :=
  { f with v := r.v, c := r.c, s := r.s, z := r.z }

/-- Flag class ADD (rule R31). -/
def addFlags (a b : Word) : Vcsz where
  v := (a.msb == b.msb) && ((a + b).msb != a.msb)
  c := decide (0x10000 ≤ a.toNat + b.toNat)
  s := (a + b).msb
  z := (a + b) == 0

/-- Flag class SUB (rule R32): C is the borrow. -/
def subFlags (a b : Word) : Vcsz where
  v := (a.msb != b.msb) && ((a - b).msb != a.msb)
  c := a.ult b
  s := (a - b).msb
  z := (a - b) == 0

/-- Flag class RESULT (rule R33): Z and S from the result `r`; V and C are free values (log 5). -/
def resultFlags (k : Nat) (op : OpenOp) (a b r : Word) : Vcsz where
  v := (Config.flagsVC k op a b).1
  c := (Config.flagsVC k op a b).2
  s := r.msb
  z := r == 0

/-- Flag class OPEN (rule R33): all four are free values (log 6). -/
def openFlags (k : Nat) (op : OpenOp) (hi a b : Word) : Vcsz :=
  Config.flagsOpen k op hi a b

end Sys2Proof.Machine
end

