-- ==== Sys2Proof/Machine/Memory.lean ====
section
/-! DEFINITION. The memory space as data: the regions of the memory map (20_memory.md rule R47), and a list of
(address, byte) pairs in one canonical form. -/

namespace Sys2Proof.Machine

/-- The kinds of memory (rule R47). -/
inductive Region where
  /-- 0000h to DFFFh. -/
  | ram
  /-- The reserved attribute bytes: even addresses of E000h to EFFFh. -/
  | attr
  /-- The video memory: odd addresses of E000h to EFFFh. -/
  | vram
  /-- F000h to FFDFh. -/
  | rom
  /-- The vector table, FFE0h to FFFFh. -/
  | vectors
  deriving DecidableEq, Repr

/-- The kind of the byte at an address (rule R47). -/
def region (a : Nat) : Region :=
  if a < 0xE000 then .ram
  else if a < 0xF000 then (if a % 2 = 0 then .attr else .vram)
  else if a < 0xFFE0 then .rom
  else .vectors

/-- The bytes that rule R47 calls RAM: they keep what is written to them. -/
def isRam (a : Nat) : Bool :=
  match region a with
  | .ram | .vram | .vectors => decide (a < 0x10000)
  | .attr | .rom => false

/-- What an address that is not listed reads as: no value, since nothing has written it (rule R45, log 1). -/
def Memory.unlisted (_a : Nat) : Option Byte := none

/-- The listed byte at an address. -/
def Memory.get : List Host.Cell → Nat → Option Byte
  | [], _ => none
  | (k, b) :: m, a => if k = a then some b else Memory.get m a

/-- List the byte `b` at the address `a`, in its place. -/
def Memory.put : List Host.Cell → Nat → Byte → List Host.Cell
  | [], a, b => [(a, b)]
  | (k, v) :: m, a, b =>
    if a < k then (a, b) :: (k, v) :: m
    else if a = k then (a, b) :: m
    else (k, v) :: Memory.put m a b

/-- List nothing at the address `a`. -/
def Memory.del : List Host.Cell → Nat → List Host.Cell
  | [], _ => []
  | (k, v) :: m, a => if k = a then Memory.del m a else (k, v) :: Memory.del m a

/-- The value of the byte at an address, if it has one. -/
def Memory.read (m : List Host.Cell) (a : Nat) : Option Byte :=
  match Memory.get m a with
  | some b => some b
  | none => Memory.unlisted a

/-- Write one byte: the reserved attribute bytes keep nothing (rule R46); a byte equal to what an unlisted address
reads as is not listed. -/
def Memory.write (m : List Host.Cell) (a : Nat) (b : Byte) : List Host.Cell :=
  if region a = .attr then m
  else if Memory.unlisted a = some b then Memory.del m a
  else Memory.put m a b

/-- The addresses rise strictly, from `lo` on. -/
def Memory.rising : Nat → List Host.Cell → Bool
  | _, [] => true
  | lo, (k, _) :: m => decide (lo ≤ k) && Memory.rising (k + 1) m

/-- A cell that may be listed: an address of the space, not a reserved attribute byte, and not what an unlisted
address reads as. -/
def Memory.cellOk (x : Host.Cell) : Bool :=
  decide (x.1 < 0x10000) && decide (region x.1 ≠ .attr) && decide (Memory.unlisted x.1 ≠ some x.2)

/-- The canonical form: equal memories are equal lists. -/
def Memory.wf (m : List Host.Cell) : Bool :=
  Memory.rising 0 m && m.all Memory.cellOk

/-- Write a list of bytes to RAM, those that fall elsewhere being lost (the micro-SD controller, rule R62). -/
def Memory.writeRam : List Host.Cell → List Host.Cell → List Host.Cell
  | m, [] => m
  | m, x :: xs => Memory.writeRam (if isRam x.1 then Memory.write m x.1 x.2 else m) xs

end Sys2Proof.Machine
end

