-- ==== Sys2Proof/Machine/Ops.lean ====
section
/-! DEFINITION. The named operations over registers and memory, and the trap entry with the return from it. -/

namespace Sys2Proof.Machine

/-- The outcome of an instruction. -/
abbrev Result := Host.Outcome State Fault Refusal

/-! ## Registers -/

/-- `x[i]`, the value of a register operand (10_state.md rule R23): SP is SSP when P = 1 and USP when P = 0. -/
def State.reg (s : State) : Reg → Word
  | .g k => s.gpr[k]
  | .sp => if s.flags.p then s.ssp else s.usp
  | .usp => s.usp

/-- `x[i] <- v` (rule R23). -/
def State.setReg (s : State) (r : Reg) (v : Word) : State :=
  { s with
    gpr := match r with
      | .g k => s.gpr.set k.val v k.isLt
      | .sp => s.gpr
      | .usp => s.gpr
    ssp := if r = .sp ∧ s.flags.p = true then v else s.ssp
    usp := if r = .usp ∨ (r = .sp ∧ s.flags.p = false) then v else s.usp }

/-- Whether a register operand names the stack pointer in use: SP always, USP while P = 0 (rule R23). -/
def isActiveSp (s : State) : Reg → Bool
  | .g _ => false
  | .sp => true
  | .usp => !s.flags.p

/-- `pc <- v`. -/
def State.setPc (s : State) (v : Word) : State := { s with pc := v }

/-- Write the result flags V, C, S, Z. -/
def State.setVcsz (s : State) (r : Vcsz) : State := { s with flags := s.flags.setVcsz r }

/-- `FLAG.E <- e`. -/
def State.setE (s : State) (e : Bool) : State := { s with flags := { s.flags with e := e } }

/-- `pc_next` of an instruction of `words` words at `pc` (10_state.md rule R25). -/
def nextPc (s : State) (words : Nat) : Word := s.pc + BitVec.ofNat 16 (2 * words)

/-! ## Memory -/

/-- The value that the memory byte at an address holds, if it holds one. -/
def State.byteAt (s : State) (a : Nat) : Option Byte := Memory.read s.mem a

/-- Put a byte into memory, without any check. -/
def State.storeByte (s : State) (a : Nat) (b : Byte) : State := { s with mem := Memory.write s.mem a b }

/-- Whether the memory protection admits an access of the `n` bytes from `a` on (`MEMPROT`, 20_memory.md rule R52). -/
def admits (s : State) (a : Word) (n : Nat) : Bool := params.memProt s.flags.p s.mplow s.mphigh a n

/-- The alignment and protection checks of an access of `n` bytes, in this order (20_memory.md rule R44). -/
def checkAccess (s : State) (a : Word) (n : Nat) : Except Stop Unit :=
  if n = 2 ∧ a.getLsbD 0 = true then .error (.trap .oddAddress)
  else if admits s a n = false then .error (.trap .limitViolation)
  else .ok ()

/-- The byte a data read gets at an address, by region (20_memory.md rules R45, R47). -/
def dataByte (s : State) (a : Nat) : Except Stop Byte :=
  match region a with
  | .attr => .ok (Config.attributeByte s.draws a)
  | .rom =>
    match s.byteAt a with
    | some b => .ok b
    | none => .error (.refuse .iplImageAbsent)
  | .ram | .vram | .vectors =>
    match s.byteAt a with
    | some b => .ok b
    | none => .error (.fault (.unwritten a))

/-- `MemRead(a, 1)` (rules R44, R45). -/
def readByte (s : State) (a : Word) : Except Stop Byte := do
  checkAccess s a 1
  dataByte s a.toNat

/-- `MemRead(a, 2)` (rules R42, R44, R45). -/
def readWord (s : State) (a : Word) : Except Stop Word := do
  checkAccess s a 2
  let even ← dataByte s a.toNat
  let odd ← dataByte s (a.toNat + 1)
  .ok (wordOf even odd)

/-- `MemWrite(a, 1, b)` (rules R44, R46). -/
def writeByte (s : State) (a : Word) (b : Byte) : Except Stop State := do
  checkAccess s a 1
  if region a.toNat = .rom then .error (.refuse .romWrite)
  else .ok (s.storeByte a.toNat b)

/-- `MemWrite(a, 2, v)` (rules R42, R44, R46). -/
def writeWord (s : State) (a v : Word) : Except Stop State := do
  checkAccess s a 2
  if region a.toNat = .rom ∨ region (a.toNat + 1) = .rom then .error (.refuse .romWrite)
  else .ok ((s.storeByte a.toNat (evenByte v)).storeByte (a.toNat + 1) (oddByte v))

/-- `push(v)`: SP is decremented by 2, then the word is written (00_scope.md rule R7, 47_stack_return.md rule R180). -/
def pushWord (s : State) (v : Word) : Except Stop State := do
  let t ← writeWord s (s.reg .sp - 2) v
  .ok (t.setReg .sp (s.reg .sp - 2))

/-- `pop()`: the word at SP is read, then SP is incremented by 2 (00_scope.md rule R7, 47_stack_return.md rule R181). -/
def popWord (s : State) : Except Stop (Word × State) := do
  let t ← readWord s (s.reg .sp)
  .ok (t, s.setReg .sp (s.reg .sp + 2))

/-! ## Traps -/

/-- The entry number of an exception in the vector table (60_exceptions.md rule R201). -/
def Exc.entry : Exc → Fin 16
  | .oddAddress => 10
  | .limitViolation => 11
  | .zeroDivide => 12
  | .privilegeViolation => 13
  | .undefinedInstruction => 14
  | .svc => 15

/-- The entry number of interrupt source `n` (rules R201, R210). -/
def irqEntry (n : Fin 10) : Fin 16 := ⟨n.val, by omega⟩

/-- The address of vector `n`: `FFE0h + 2n` (rule R201). -/
def vectorAddr (n : Fin 16) : Word := 0xFFE0 + BitVec.ofNat 16 (2 * n.val)

/-- P = 1 and E = 0, V, C, S, Z unchanged: how a trap entry leaves FLAG (rule R220). -/
def State.enterPrivileged (s : State) : State := { s with flags := { s.flags with p := true, e := false } }

/-- The accesses of the trap entry: push the saved PC, push the old FLAG, load the vector (rules R220, R223). -/
def trapFrame (n : Fin 16) (savedPc : Word) (s : State) : Except Stop State := do
  let s1 ← pushWord s.enterPrivileged savedPc
  let s2 ← pushWord s1 s.flags.toWord
  let v ← readWord s2 (vectorAddr n)
  .ok (s2.setPc v)

/-- TAKING A TRAP: the one entry of the ten interrupts and the six exceptions (rule R220). An odd SSP and a push into
the ROM are stuck (rule R222, log 24). -/
def trapEntry (n : Fin 16) (savedPc : Word) (s : State) : Result :=
  match trapFrame n savedPc s with
  | .ok t => .next t
  | .error (.trap _) => .fault .trapEntryOddSsp
  | .error (.refuse _) => .fault .trapEntryRom
  | .error (.fault f) => .fault f

/-- `raise <Exception>`: the instruction has written nothing, and the trap entry is performed (00_scope.md rule R7); but
an exception that `runEndsAt` names ends the run (60_exceptions.md rule R204, 30_encoding.md rule R80, log 13). -/
def raise (e : Exc) (savedPc : Word) (s : State) : Result :=
  if e ∈ s.runEndsAt then .fault (.exceptionEndsRun e) else trapEntry e.entry savedPc s

/-- What becomes of an instruction, begun in the state `s`, that did not complete. -/
def raiseStop (savedPc : Word) (s : State) : Stop → Result
  | .trap e => raise e savedPc s
  | .fault f => .fault f
  | .refuse r => .refused r

/-- The PC that a fault of an instruction saves, `EXC_SAVED_PC` (60_exceptions.md rule R221, log 12): `pc_next` by the
words it has, or its own address. -/
def excSavedPc (s : State) (words : Nat) : Word :=
  match params.excSavedPc with
  | .nextInstruction => nextPc s words
  | .faultingInstruction => s.pc

/-- The outcome of an instruction of `words` words begun in the state `s`: the state it ends in, or the exception it
raised, which finds the state as it was before the instruction (60_exceptions.md rule R228). -/
def complete (words : Nat) (s : State) : Except Stop State → Result
  | .ok t => .next t
  | .error w => raiseStop (excSavedPc s words) s w

/-- RETURNING FROM A TRAP: FLAG and PC are popped from the system stack (47_stack_return.md rule R183). -/
def returnFromTrap (s : State) : Except Stop State := do
  let f ← readWord s s.ssp
  let t ← readWord s (s.ssp + 2)
  .ok { s with ssp := s.ssp + 4, flags := Flags.ofWord f, pc := t }

/-! ## Privilege -/

/-- Whether executing `i` violates the privilege (rule R226). -/
def violates (i : Instr) (s : State) : Bool := params.privSet i && !s.flags.p

/-- The privilege check before an instruction (rules R206, R226): with P = 0 an instruction of `PRIV_SET` raises
PrivilegeViolation, and the saved PC is `pc_next` by its length (rule R221). -/
def guarded (i : Instr) (s : State) (run : Result) : Result :=
  if violates i s then raise .privilegeViolation (excSavedPc s (instrWords i)) s else run

end Sys2Proof.Machine
end

