-- ==== Sys2Proof/Machine/Operands.lean ====
section
/-! DEFINITION. The addressing modes (40_addressing.md): the effective address and the operand of every operand form. -/

namespace Sys2Proof.Machine

/-- `addr` of a memory operand: modes 0, 1, 3, 6 and 7 (rules R91, R92, R94, R97, R98); sums wrap (rule R90). -/
def locAddr (s : State) : Loc → Word
  | .drct dsp => dsp
  | .index dsp rx => dsp + s.reg rx
  | .fpRel d4 => s.reg (.g 12) + 2 * sext4 d4
  | .indr rx => s.reg rx
  | .bIndr rx => s.reg rx

/-- The width of the access at a memory operand: one byte in mode 7, else a word (20_memory.md rule R43). -/
def locWidth : Loc → Width
  | .bIndr _ => .byte
  | .drct _ | .index _ _ | .fpRel _ | .indr _ => .word

/-- The read of a memory operand; a byte is zero-extended (rule R98, log 18). -/
def readLoc (s : State) (l : Loc) : Except Stop Word :=
  match locWidth l with
  | .word => readWord s (locAddr s l)
  | .byte => do
    let b ← readByte s (locAddr s l)
    .ok (zext8 b)

/-- The write to a memory operand; a byte write stores bits 7 to 0 (41_transfer.md rule R113). -/
def writeLoc (s : State) (l : Loc) (v : Word) : Except Stop State :=
  match locWidth l with
  | .word => writeWord s (locAddr s l) v
  | .byte => writeByte s (locAddr s l) (lowByte v)

/-- `operand`: modes 0 to 7 (rules R91 to R98, R100). -/
def operand (s : State) : Src → Except Stop Word
  | .mem l => readLoc s l
  | .imm v => .ok v
  | .reg rs => .ok (s.reg rs)
  | .imm4 i4 => .ok (sext4 i4)

/-- `addr` of a jump or CALL: the target itself (45_jump_call.md rule R167). -/
def targetAddr (s : State) : Target → Word
  | .drct dsp => dsp
  | .index dsp rx => dsp + s.reg rx
  | .indr rx => s.reg rx

/-- `addr` of IN and OUT: the port address (46_io.md rule R170). -/
def portAddr (s : State) : Port → Word
  | .drct dsp => dsp
  | .indr rx => s.reg rx
  | .bIndr rx => s.reg rx

/-- The width of an I/O access: one byte in mode 7, else a word (46_io.md rule R170). -/
def portWidth : Port → Width
  | .bIndr _ => .byte
  | .drct _ | .indr _ => .word

end Sys2Proof.Machine
end

