-- ==== Sys2Proof/Machine/Alu.lean ====
section
/-! DEFINITION. What the sixteen arithmetic instructions share: `a` is Rd and `b` the operand, both read before anything
is written (42_arith_logic.md rule R127, 40_addressing.md rule R101). -/

namespace Sys2Proof.Machine

/-- An instruction that writes a result to Rd and the four result flags, or raises an exception before it writes. -/
def binary (rd : Reg) (src : Src) (s : State) (f : Word → Word → Except Stop (Word × Vcsz)) : Result :=
  complete src.words s do
    let b ← operand s src
    let r ← f (s.reg rd) b
    .ok (((s.setReg rd r.1).setVcsz r.2).setPc (nextPc s src.words))

/-- A result `g a b` with the flags of class RESULT (10_state.md rule R33). -/
def plain (s : State) (op : OpenOp) (g : Word → Word → Word) (a b : Word) : Except Stop (Word × Vcsz) :=
  .ok (g a b, resultFlags s.draws op a b (g a b))

/-- As `plain`, but a zero operand raises ZeroDivide (60_exceptions.md rule R205). -/
def divided (s : State) (op : OpenOp) (g : Word → Word → Word) (a b : Word) : Except Stop (Word × Vcsz) :=
  if b = 0 then .error (.trap .zeroDivide) else plain s op g a b

end Sys2Proof.Machine
end

