-- ==== Sys2Proof/Machine/ArithLogic.lean ====
section
/-! DEFINITION. ADD, SUB, CMP, AND, OR, XOR and ADDS (42_arith_logic.md). -/

namespace Sys2Proof.Machine

/-- ADD Rd,EA (rule R120). -/
def execAdd (rd : Reg) (src : Src) (s : State) : Result :=
  guarded (.add rd src) s <|
    binary rd src s fun a b => .ok (a + b, addFlags a b)

/-- SUB Rd,EA (rule R121). -/
def execSub (rd : Reg) (src : Src) (s : State) : Result :=
  guarded (.sub rd src) s <|
    binary rd src s fun a b => .ok (a - b, subFlags a b)

/-- CMP Rd,EA (rule R122): the flags of SUB; Rd is not written. -/
def execCmp (rd : Reg) (src : Src) (s : State) : Result :=
  guarded (.cmp rd src) s <|
    complete src.words s do
      let b ← operand s src
      .ok ((s.setVcsz (subFlags (s.reg rd) b)).setPc (nextPc s src.words))

/-- AND Rd,EA (rule R123). -/
def execAnd (rd : Reg) (src : Src) (s : State) : Result :=
  guarded (.and rd src) s <|
    binary rd src s (plain s .and fun a b => a &&& b)

/-- OR Rd,EA (rule R124). -/
def execOr (rd : Reg) (src : Src) (s : State) : Result :=
  guarded (.or rd src) s <|
    binary rd src s (plain s .or fun a b => a ||| b)

/-- XOR Rd,EA (rule R125). -/
def execXor (rd : Reg) (src : Src) (s : State) : Result :=
  guarded (.xor rd src) s <|
    binary rd src s (plain s .xor fun a b => a ^^^ b)

/-- ADDS Rd,EA (rule R126). -/
def execAdds (rd : Reg) (src : Src) (s : State) : Result :=
  guarded (.adds rd src) s <|
    binary rd src s (plain s .adds fun a b => a + 2 * b)

end Sys2Proof.Machine
end

