-- ==== Sys2Proof/Machine/Ports.lean ====
section
/-! DEFINITION. The I/O space: `IORead` and `IOWrite` (20_memory.md rules R50 to R56, 60_exceptions.md rule R230). -/

namespace Sys2Proof.Machine

/-- The ports of the memory-protection registers, F4h to F7h (20_memory.md rule R51). -/
def isLimitPort (p : Byte) : Bool := decide (0xF4 ≤ p.toNat) && decide (p.toNat ≤ 0xF7)

/-- The ports of the micro-SD controller, 10h to 17h (20_memory.md rule R62). -/
def isSdPort (p : Byte) : Bool := decide (0x10 ≤ p.toNat) && decide (p.toNat ≤ 0x17)

/-- The bytes drawn "00H" that read as 00h: the column +0 of the rows 08h to 10h, 18h to 26h, FCh and FEh (rules R55, R230,
46_io.md rule R170, log 31); the rows 12h, 14h and 16h are excepted (90_conflicts.md C7). -/
def readsZero (p : Byte) : Bool :=
  decide (p.toNat % 2 = 0) &&
    ((decide (0x08 ≤ p.toNat) && decide (p.toNat ≤ 0x10)) ||
      (decide (0x18 ≤ p.toNat) && decide (p.toNat ≤ 0x26)) || decide (0xFC ≤ p.toNat))

/-- The byte an IN gets from one byte of the I/O space (rule R55): the limit registers, the constant 00h, or DEVICE's
answer, a free value (log 21). -/
def portByte (s : State) (p : Byte) : Byte :=
  if p = 0xF4 then evenByte s.mplow
  else if p = 0xF5 then oddByte s.mplow
  else if p = 0xF6 then evenByte s.mphigh
  else if p = 0xF7 then oddByte s.mphigh
  else if readsZero p then 0
  else Config.deviceByte s.draws s.ioLog p

/-- Record an I/O access (rule R50). -/
def State.logIo (s : State) (e : IoEvent) : State := { s with ioLog := e :: s.ioLog }

/-- The checks on a port address: above 00FFh, an odd port for a word, and a limit register for a byte have no meaning
(rules R51, R54, log 28). -/
def checkPort (port : Word) (w : Width) : Except Stop Unit :=
  if 0xFF < port.toNat then .error (.refuse .portAboveFF)
  else
    match w with
    | .word => if port.getLsbD 0 then .error (.refuse .oddWordPort) else .ok ()
    | .byte => if isLimitPort (lowByte port) then .error (.refuse .limitPortByte) else .ok ()

/-- `IORead(port, n)` (rule R55): the value, and the state with the access recorded. -/
def ioRead (s : State) (port : Word) (w : Width) : Except Stop (Word × State) := do
  checkPort port w
  let p := lowByte port
  let v := match w with
    | .word => wordOf (portByte s p) (portByte s (p + 1))
    | .byte => zext8 (portByte s p)
  .ok (v, s.logIo (.read p w))

/-- The byte that an OUT presents to the extension-port-high register, the column +1 of row 1Ch (rule R56). -/
def extPortByte (p : Byte) (w : Width) (v : Word) : Option Byte :=
  match w with
  | .word => if p = 0x1C then some (oddByte v) else none
  | .byte => if p = 0x1D then some (lowByte v) else none

/-- A write of a byte to the extension-port-high register: the three bits drawn 0 are ignored (60_exceptions.md rule R232,
log 40). -/
def ExtPortHi.ofByte (b : Byte) : ExtPortHi where
  m := b.getLsbD 7
  v := b.extractLsb' 0 4

/-- The effect of an OUT on the state: a word to F4h or F6h sets a limit register (rule R51), the byte +1 of 1Ch is the
extension-port-high register (60_exceptions.md rule R232), and any access to 10h to 17h lets the micro-SD controller at
memory (rule R62, log 22). -/
def ioEffect (s : State) (p : Byte) (w : Width) (v : Word) : State :=
  { s with
    mplow := if p = 0xF4 then v else s.mplow
    mphigh := if p = 0xF6 then v else s.mphigh
    extPortHi := ((extPortByte p w v).map ExtPortHi.ofByte).getD s.extPortHi
    sdArmed := s.sdArmed || isSdPort p }

/-- `IOWrite(port, n, v)` (rule R56): the effect, and the access recorded; a byte access presents bits 7 to 0. -/
def ioWrite (s : State) (port : Word) (w : Width) (v : Word) : Except Stop State := do
  checkPort port w
  let p := lowByte port
  let x := match w with
    | .word => v
    | .byte => zext8 (lowByte v)
  .ok ((ioEffect s p w x).logIo (.write p w x))

end Sys2Proof.Machine
end

