-- ==== Sys2Proof/Machine/InOut.lean ====
section
/-! DEFINITION. IN and OUT (46_io.md). -/

namespace Sys2Proof.Machine

/-- IN Rd,EA (rule R170). -/
def execInp (rd : Reg) (port : Port) (s : State) : Result :=
  guarded (.inp rd port) s <|
    complete port.words s do
      let x ← ioRead s (portAddr s port) (portWidth port)
      .ok ((x.2.setReg rd x.1).setPc (nextPc s port.words))

/-- OUT Rd,EA (rule R171). -/
def execOutp (rd : Reg) (port : Port) (s : State) : Result :=
  guarded (.outp rd port) s <|
    complete port.words s do
      let t ← ioWrite s (portAddr s port) (portWidth port) (s.reg rd)
      .ok (t.setPc (nextPc s port.words))

end Sys2Proof.Machine
end

