-- ==== Sys2Proof/Machine/JumpCall.lean ====
section
/-! DEFINITION. The fifteen jumps and CALL (45_jump_call.md). -/

namespace Sys2Proof.Machine

/-- The form of every jump: the target is not read and not checked (rule R167). -/
def jumpIf (cond : Bool) (t : Target) (s : State) : Result :=
  .next (s.setPc (if cond then targetAddr s t else nextPc s t.words))

/-- JZ EA: jump if Z (rule R150). -/
def execJz (t : Target) (s : State) : Result :=
  guarded (.jz t) s (jumpIf (s.flags.z) t s)

/-- JC EA: jump if C (rule R151). -/
def execJc (t : Target) (s : State) : Result :=
  guarded (.jc t) s (jumpIf (s.flags.c) t s)

/-- JM EA: jump if S (rule R152). -/
def execJm (t : Target) (s : State) : Result :=
  guarded (.jm t) s (jumpIf (s.flags.s) t s)

/-- JO EA: jump if V (rule R153). -/
def execJo (t : Target) (s : State) : Result :=
  guarded (.jo t) s (jumpIf (s.flags.v) t s)

/-- JGT EA: jump if not (Z or (S xor V)) (rule R154). -/
def execJgt (t : Target) (s : State) : Result :=
  guarded (.jgt t) s (jumpIf (!s.flags.z && (s.flags.s == s.flags.v)) t s)

/-- JGE EA: jump if not (S xor V) (rule R155). -/
def execJge (t : Target) (s : State) : Result :=
  guarded (.jge t) s (jumpIf (s.flags.s == s.flags.v) t s)

/-- JLE EA: jump if Z or (S xor V) (rule R156). -/
def execJle (t : Target) (s : State) : Result :=
  guarded (.jle t) s (jumpIf (s.flags.z || (s.flags.s != s.flags.v)) t s)

/-- JLT EA: jump if S xor V (rule R157). -/
def execJlt (t : Target) (s : State) : Result :=
  guarded (.jlt t) s (jumpIf (s.flags.s != s.flags.v) t s)

/-- JNZ EA: jump if not Z (rule R158). -/
def execJnz (t : Target) (s : State) : Result :=
  guarded (.jnz t) s (jumpIf (!s.flags.z) t s)

/-- JNC EA: jump if not C (rule R159). -/
def execJnc (t : Target) (s : State) : Result :=
  guarded (.jnc t) s (jumpIf (!s.flags.c) t s)

/-- JNM EA: jump if not S (rule R160). -/
def execJnm (t : Target) (s : State) : Result :=
  guarded (.jnm t) s (jumpIf (!s.flags.s) t s)

/-- JNO EA: jump if not V (rule R161). -/
def execJno (t : Target) (s : State) : Result :=
  guarded (.jno t) s (jumpIf (!s.flags.v) t s)

/-- JHI EA: jump if not (Z or C) (rule R162). -/
def execJhi (t : Target) (s : State) : Result :=
  guarded (.jhi t) s (jumpIf (!s.flags.z && !s.flags.c) t s)

/-- JLS EA: jump if Z or C (rule R163). -/
def execJls (t : Target) (s : State) : Result :=
  guarded (.jls t) s (jumpIf (s.flags.z || s.flags.c) t s)

/-- JMP EA (rule R164). -/
def execJmp (t : Target) (s : State) : Result :=
  guarded (.jmp t) s (jumpIf true t s)

/-- CALL EA (rule R165): push the address of the next instruction; the target uses SP as it was before. -/
def execCall (t : Target) (s : State) : Result :=
  guarded (.call t) s <|
    complete t.words s do
      let u ← pushWord s (nextPc s t.words)
      .ok (u.setPc (targetAddr s t))

end Sys2Proof.Machine
end

