-- ==== Sys2Proof/Machine/MulDiv.lean ====
section
/-! DEFINITION. MUL, DIV, MOD, MULL and DIVL (43_mul_div.md), over the record of the five operations that the parameter
`MULDIV_SIGNED` selects (rule R135, log 16). -/

namespace Sys2Proof.Machine

/-! ## The multiply and divide unit -/

/-- The five operations on unsigned operands (rules R130 to R135). -/
def unsignedUnit : MulDiv where
  mul a b := a * b
  div a b := some (a.udiv b)
  mod a b := a.umod b
  mull a b := BitVec.ofNat 32 (a.toNat * b.toNat)
  divl hi lo b :=
    let n := hi.toNat * 0x10000 + lo.toNat
    if n / b.toNat < 0x10000 then some (BitVec.ofNat 16 (n / b.toNat), BitVec.ofNat 16 (n % b.toNat)) else none

/-- A signed quotient as a word, if it fits. -/
def signedQuotient (q : Int) : Option Word :=
  if -0x8000 ≤ q ∧ q < 0x8000 then some (BitVec.ofInt 16 q) else none

/-- The five operations on signed operands, the quotient rounded toward zero (rule R131 has FFFFh / 0002h give 0 in a
signed divider, log 16). -/
def signedUnit : MulDiv where
  mul a b := BitVec.ofInt 16 (a.toInt * b.toInt)
  div a b := signedQuotient (a.toInt.tdiv b.toInt)
  mod a b := BitVec.ofInt 16 (a.toInt.tmod b.toInt)
  mull a b := BitVec.ofInt 32 (a.toInt * b.toInt)
  divl hi lo b :=
    let n := (hi ++ lo).toInt
    (signedQuotient (n.tdiv b.toInt)).map fun q => (q, BitVec.ofInt 16 (n.tmod b.toInt))

/-- The unit that a value of `MULDIV_SIGNED` selects (rule R135). -/
def mulDivUnit (signed : Bool) : MulDiv := if signed then signedUnit else unsignedUnit

/-- `MULDIV`, the unit of the machine (rule R135). -/
def mulDiv : MulDiv := mulDivUnit params.mulDivSigned

/-! ## The instructions -/

/-- Rd + 1 of a register Rd that begins a pair: an even field value at most Ch (rules R133, R134). -/
def pairHigh : Reg → Option Reg
  | .g k =>
    if k.val % 2 = 0 then
      if h : k.val + 1 < 13 then some (.g ⟨k.val + 1, h⟩) else some .sp
    else none
  | .sp => none
  | .usp => none

/-- MUL Rd,EA (rule R130): the product modulo 2^16. -/
def execMul (rd : Reg) (src : Src) (s : State) : Result :=
  guarded (.mul rd src) s <|
    binary rd src s (plain s .mul mulDiv.mul)

/-- DIV Rd,EA (rule R131): the quotient, a free value where it does not fit (log 16). -/
def execDiv (rd : Reg) (src : Src) (s : State) : Result :=
  guarded (.div rd src) s <|
    binary rd src s (divided s .div fun a b => (mulDiv.div a b).getD (Config.divQuotient s.draws a b))

/-- MOD Rd,EA (rule R132): the remainder. -/
def execMod (rd : Reg) (src : Src) (s : State) : Result :=
  guarded (.mod rd src) s <|
    binary rd src s (divided s .mod mulDiv.mod)

/-- An instruction that writes the pair Rd, Rd + 1 and the four result flags. -/
def setPair (s : State) (rd rh : Reg) (lo hi : Word) (fl : Vcsz) : State :=
  ((s.setReg rd lo).setReg rh hi).setVcsz fl

/-- MULL Rd,EA (rule R133): the 32-bit product, bits 15 to 0 in Rd and bits 31 to 16 in Rd + 1. -/
def execMull (rd : Reg) (src : Src) (s : State) : Result :=
  guarded (.mull rd src) s <|
    match pairHigh rd with
    | none => .refused .registerPair
    | some rh =>
      complete src.words s do
        let b ← operand s src
        let a := s.reg rd
        let p := mulDiv.mull a b
        .ok ((setPair s rd rh (p.extractLsb' 0 16) (p.extractLsb' 16 16)
          (openFlags s.draws .mull 0 a b)).setPc (nextPc s src.words))

/-- The quotient and remainder that DIVL writes: free values where the quotient does not fit 16 bits (rule R134,
log 8). -/
def longDivide (k : Nat) (hi lo b : Word) : Word × Word :=
  (mulDiv.divl hi lo b).getD (Config.divlQuotient k hi lo b, Config.divlRemainder k hi lo b)

/-- DIVL Rd,EA (rule R134). -/
def execDivl (rd : Reg) (src : Src) (s : State) : Result :=
  guarded (.divl rd src) s <|
    match pairHigh rd with
    | none => .refused .registerPair
    | some rh =>
      complete src.words s do
        let b ← operand s src
        let lo := s.reg rd
        let hi := s.reg rh
        if b = 0 then .error (.trap .zeroDivide)
        else
          .ok ((setPair s rd rh (longDivide s.draws hi lo b).1 (longDivide s.draws hi lo b).2
            (openFlags s.draws .divl hi lo b)).setPc (nextPc s src.words))

end Sys2Proof.Machine
end

