-- ==== Sys2Proof/Machine/Shift.lean ====
section
/-! DEFINITION. SHLA, SHLL, SHRA and SHRL (44_shift.md). -/

namespace Sys2Proof.Machine

/-- A shift of `a` by the count `n`, 0 to 15; a greater count gives a free value (rule R144, log 7). -/
def shifted (k : Nat) (op : OpenOp) (g : Word → Nat → Word) (a n : Word) : Word :=
  if n.toNat ≤ 15 then g a n.toNat else Config.shiftBig k op a n

/-- SHLA Rd,EA (rule R140). -/
def execShla (rd : Reg) (src : Src) (s : State) : Result :=
  guarded (.shla rd src) s <|
    binary rd src s (plain s .shla (shifted s.draws .shla fun a n => a <<< n))

/-- SHLL Rd,EA (rule R141). -/
def execShll (rd : Reg) (src : Src) (s : State) : Result :=
  guarded (.shll rd src) s <|
    binary rd src s (plain s .shll (shifted s.draws .shll fun a n => a <<< n))

/-- SHRA Rd,EA (rule R142): bit 15 is copied into the vacated bits. -/
def execShra (rd : Reg) (src : Src) (s : State) : Result :=
  guarded (.shra rd src) s <|
    binary rd src s (plain s .shra (shifted s.draws .shra fun a n => a.sshiftRight n))

/-- SHRL Rd,EA (rule R143): zeros enter at bit 15. -/
def execShrl (rd : Reg) (src : Src) (s : State) : Result :=
  guarded (.shrl rd src) s <|
    binary rd src s (plain s .shrl (shifted s.draws .shrl fun a n => a >>> n))

end Sys2Proof.Machine
end

