-- ==== Sys2Proof/Machine/Stack.lean ====
section
/-! DEFINITION. PUSH, POP, RET and RETI (47_stack_return.md). -/

namespace Sys2Proof.Machine

/-- The value PUSH pushes: Rd, or a free value where Rd is the stack pointer in use (rule R180, log 9). -/
def pushedValue (rd : Reg) (s : State) : Word :=
  if isActiveSp s rd then Config.pushedSp s.draws (s.reg rd) else s.reg rd

/-- The value POP leaves in Rd: the word popped, or a free value where Rd is the stack pointer in use (rule R181,
log 9). -/
def poppedValue (rd : Reg) (s : State) (t : Word) : Word :=
  if isActiveSp s rd then Config.poppedSp s.draws (s.reg rd) t else t

/-- PUSH Rd (rule R180). -/
def execPush (rd : Reg) (s : State) : Result :=
  guarded (.push rd) s <|
    complete 1 s do
      let t ← pushWord s (pushedValue rd s)
      .ok (t.setPc (nextPc s 1))

/-- POP Rd (rule R181). -/
def execPop (rd : Reg) (s : State) : Result :=
  guarded (.pop rd) s <|
    complete 1 s do
      let x ← popWord s
      .ok ((x.2.setReg rd (poppedValue rd s x.1)).setPc (nextPc s 1))

/-- RET (rule R182). -/
def execRet (s : State) : Result :=
  guarded .ret s <|
    complete 1 s do
      let x ← popWord s
      .ok (x.2.setPc x.1)

/-- RETI (rule R183); with P = 0 it has no meaning (log 27). -/
def execReti (s : State) : Result :=
  guarded .reti s <|
    if s.flags.p then complete 1 s (returnFromTrap s) else .refused .retiInUserMode

end Sys2Proof.Machine
end

