-- ==== Sys2Proof/Machine/System.lean ====
section
/-! DEFINITION. EI, DI, SVC and HALT (48_system.md). -/

namespace Sys2Proof.Machine

/-- EI (rule R190). -/
def execEi (s : State) : Result := guarded .ei s (.next ((s.setE true).setPc (nextPc s 1)))

/-- DI (rule R191). -/
def execDi (s : State) : Result := guarded .di s (.next ((s.setE false).setPc (nextPc s 1)))

/-- SVC (rule R192): the trap entry of vector 15, with the address of the next instruction saved, in either mode. It
is a requested trap, no fault, and never ends the run (60_exceptions.md rule R200). -/
def execSvc (s : State) : Result := guarded .svc s (trapEntry Exc.svc.entry (nextPc s 1) s)

/-- HALT (rule R193). -/
def execHalt (s : State) : Result := guarded .halt s (.next { s.setPc (nextPc s 1) with halted := true })

end Sys2Proof.Machine
end

