-- ==== Sys2Proof/Machine/Transfer.lean ====
section
/-! DEFINITION. NO, LD, LD Rd,FLAG and ST (41_transfer.md). -/

namespace Sys2Proof.Machine

/-- NO (rule R110). -/
def execNo (s : State) : Result :=
  guarded .no s (.next (s.setPc (nextPc s 1)))

/-- LD Rd,EA (rule R111). -/
def execLd (rd : Reg) (src : Src) (s : State) : Result :=
  guarded (.ld rd src) s <|
    complete src.words s do
      let v ← operand s src
      .ok ((s.setReg rd v).setPc (nextPc s src.words))

/-- LD Rd,FLAG (rule R112). -/
def execLdFlag (rd : Reg) (s : State) : Result :=
  guarded (.ldFlag rd) s <|
    .next ((s.setReg rd s.flags.toWord).setPc (nextPc s 1))

/-- ST Rd,EA (rule R113). -/
def execSt (rd : Reg) (dst : Loc) (s : State) : Result :=
  guarded (.st rd dst) s <|
    complete dst.words s do
      let t ← writeLoc s dst (s.reg rd)
      .ok (t.setPc (nextPc s dst.words))

end Sys2Proof.Machine
end

