-- ==== Sys2Proof/Machine/Fetch.lean ====
section
/-! DEFINITION. The fetch and decoding of the instruction at the program counter (30_encoding.md rule R82), and the
placing of an instruction where the fetch finds it. -/

namespace Sys2Proof.Machine

/-- What the fetch comes to: an instruction, or a reason to stop with the PC an exception would save. -/
inductive Fetched where
  | instr (i : Instr)
  | stop (w : Stop) (savedPc : Word)
  deriving DecidableEq, Repr

/-- The fetch of one instruction word: `MemRead(a, 2)`, but the unspecified bits of a reserved attribute byte are a
fault (20_memory.md rule R48). -/
def fetchWord (s : State) (a : Word) : Except Stop Word := do
  checkAccess s a 2
  if region a.toNat = .attr then .error (.fault (.fetchReserved a.toNat))
  else readWord s a

/-- What a word that is no instruction leads to: UndefinedInstruction (rule R80), or no meaning (rules R79, R23). -/
def rejectStop : Reject → Stop
  | .undefined => .trap .undefinedInstruction
  | .reserved => .refuse .reservedWord
  | .pcOperand => .refuse .pcOperand
  | .truncated => .refuse .reservedWord

/-- The instruction cycle up to the instruction's own rule (rule R82): the first word; the decoding; the privilege
check, which comes before the second word is fetched (rule R206; `exec` of the instruction then raises it, whatever
the second word is); the second word. The saved PC of an exception that a fetch raises is a free value; for an
UndefinedInstruction one word has been fetched (60_exceptions.md rule R221). -/
def fetchInstr (s : State) : Fetched :=
  match fetchWord s s.pc with
  | .error w => .stop w (Config.fetchSavedPc s.draws s.pc)
  | .ok w1 =>
    match decode w1 0 with
    | .error r => .stop (rejectStop r) (excSavedPc s 1)
    | .ok i0 =>
      if violates i0 s then .instr i0
      else if instrWords i0 = 1 then .instr i0
      else
        match fetchWord s (s.pc + 2) with
        | .error w => .stop w (Config.fetchSavedPc s.draws s.pc)
        | .ok w2 =>
          match decode w1 w2 with
          | .error r => .stop (rejectStop r) (excSavedPc s 1)
          | .ok i => .instr i

/-- Put bytes into memory from an address on, without any check (addresses wrap). -/
def State.storeBytes (s : State) (a : Word) : List Byte → State
  | [] => s
  | b :: bs => State.storeBytes (s.storeByte a.toNat b) (a + 1) bs

end Sys2Proof.Machine
end

