-- ==== Sys2Proof/Machine/Interrupts.lean ====
section
/-! DEFINITION. What happens at an instruction boundary: the sampling and acceptance of interrupts (60_exceptions.md
rules R210 to R216), and the memory writes of the micro-SD controller (20_memory.md rule R62). -/

namespace Sys2Proof.Machine

/-- The request lines at this boundary; none once the inputs are used up (rule R211, log 19). -/
def irqLines (s : State) : BitVec 10 :=
  match s.inputs with
  | [] => 0
  | x :: _ => x.irq

/-- Whether the request lines leave a halted CPU halted (`HALT_WAKE`, 48_system.md rule R193, log 23). -/
def keepsHalted (lines : BitVec 10) : Bool :=
  match params.haltWake with
  | .nothing => true
  | .onRequest wakes => !wakes lines

/-- Whether the CPU stays halted at this boundary. -/
def stillHalted (s : State) : Bool := keepsHalted (irqLines s) && s.halted

/-- The interrupt sources that request, in the order of the vector table. -/
def requesters (lines : BitVec 10) : List (Fin 10) :=
  [0, 1, 2, 3, 4, 5, 6, 7, 8, 9].filter fun n => lines.getLsbD n.val

/-- One of the requesting sources: the only one, or any of several (`IRQ_ORDER`, rule R213, log 20). -/
def pickIrq (k : Nat) (lines : BitVec 10) : Option (Fin 10) :=
  match requesters lines with
  | [] => none
  | [n] => some n
  | n :: m :: rest =>
    some ((n :: m :: rest).getD (Config.irqOrder k lines % (n :: m :: rest).length) n)

/-- The interrupt accepted at this boundary (rule R216): some source requests and E = 1. -/
def acceptedIrq (s : State) : Option (Fin 10) :=
  if s.flags.e then pickIrq s.draws (irqLines s) else none

/-- The bytes the micro-SD controller writes at this boundary. -/
def sdWrites (s : State) : List Host.Cell :=
  match s.inputs with
  | [] => []
  | x :: _ => x.sdWrites

/-- The state after the boundary's inputs: one input is used, the micro-SD controller, once armed, has written to RAM
(rule R62), the counter of the free values has advanced (log 4), and the CPU runs unless it stays halted. -/
def State.boundary (s : State) : State :=
  { s with
    halted := stillHalted s
    mem := if s.sdArmed then Memory.writeRam s.mem (sdWrites s) else s.mem
    inputs := s.inputs.tail
    draws := s.draws + 1 }

/-- The step of a CPU that stays halted: a terminal state where nothing but reset can end it, else a boundary passes and a
later request may (rule R193, log 23). -/
def haltedStep (s : State) : Result :=
  match params.haltWake with
  | .nothing => .fault .halted
  | .onRequest _ => .next s.boundary

end Sys2Proof.Machine
end

