-- ==== Sys2Proof/Machine/Step.lean ====
section
/-! DEFINITION. One step of the machine (30_encoding.md rule R82), and the placing of the next instruction. -/

namespace Sys2Proof.Machine

/-- One step: a CPU that stays halted steps no further (48_system.md rule R193); at the boundary the outside's input is taken; an
accepted interrupt is entered (60_exceptions.md rule R216), else the next instruction is fetched and executed. -/
def step (s : State) : Host.Outcome State Fault Refusal :=
  if stillHalted s then haltedStep s
  else
    match acceptedIrq s with
    | some n => trapEntry (irqEntry n) s.pc s.boundary
    | none =>
      match fetchInstr s.boundary with
      | .instr i => exec i s.boundary
      | .stop w savedPc => raiseStop savedPc s.boundary w

/-- The state with the instruction of a table word stored where the next step fetches it: four bytes from `pc` on, be
they RAM or ROM (this stands for the load of a program or of the IPL_IMAGE from outside, log 2). -/
def State.withFetchWord (s : State) (nbits w : Nat) : State := s.storeBytes s.pc (tableBytes nbits w)

end Sys2Proof.Machine
end

