-- ==== Sys2Proof/Machine/Timing.lean ====
section
/-! DEFINITION. The state counts of the instruction table as data (70_reset_and_hazards.md rules R256 to R258). No step
depends on them. -/

namespace Sys2Proof.Machine

/-- The duration of an instruction in states of the control unit. -/
inductive Cost where
  /-- A fixed count. -/
  | states (n : Nat)
  /-- "base+n", one state for each bit position of the shift (rule R258). -/
  | perPosition (base : Nat)
  /-- "4/5": not taken, taken (rule R258). -/
  | jump (notTaken taken : Nat)
  deriving DecidableEq, Repr

/-- What a mode costs over the cheapest mode, Imm4, in a row with all eight modes (rule R257). -/
def modeStates : Src → Nat
  | .mem (.drct _) => 3
  | .mem (.index _ _) => 3
  | .mem (.fpRel _) => 3
  | .mem (.indr _) => 2
  | .mem (.bIndr _) => 2
  | .imm _ => 1
  | .reg _ => 1
  | .imm4 _ => 0

/-- The counts of LD: as the other rows with all modes, but 4 in the mode Reg (rule R257). -/
def ldStates : Src → Nat
  | .reg _ => 4
  | .mem l => 4 + modeStates (.mem l)
  | .imm v => 4 + modeStates (.imm v)
  | .imm4 i => 4 + modeStates (.imm4 i)

/-- The counts of ST (rule R257). -/
def stStates : Loc → Nat
  | .drct _ => 6
  | .index _ _ => 6
  | .fpRel _ => 6
  | .indr _ => 5
  | .bIndr _ => 5

/-- The counts of OUT; IN takes one more (rule R257). -/
def outStates : Port → Nat
  | .drct _ => 6
  | .indr _ => 5
  | .bIndr _ => 5

/-- The state count of an instruction (rule R257). -/
def cost : Instr → Cost
  | .no => .states 3
  | .ld _ x => .states (ldStates x)
  | .ldFlag _ => .states 4
  | .st _ l => .states (stStates l)
  | .add _ x | .sub _ x | .cmp _ x | .and _ x | .or _ x | .xor _ x => .states (4 + modeStates x)
  | .adds _ x => .states (5 + modeStates x)
  | .mul _ x | .mull _ x => .states (54 + modeStates x)
  | .div _ x | .mod _ x | .divl _ x => .states (70 + modeStates x)
  | .shla _ x | .shll _ x | .shra _ x | .shrl _ x => .perPosition (5 + modeStates x)
  | .jz _ | .jc _ | .jm _ | .jo _ | .jgt _ | .jge _ | .jle _ | .jlt _ | .jnz _ | .jnc _ | .jnm _ | .jno _ | .jhi _
  | .jls _ => .jump 4 5
  | .jmp _ => .states 5
  | .call _ => .states 6
  | .inp _ p => .states (1 + outStates p)
  | .outp _ p => .states (outStates p)
  | .push _ => .states 5
  | .pop _ => .states 6
  | .ret => .states 6
  | .reti => .states 9
  | .ei => .states 5
  | .di => .states 5
  | .svc => .states 12
  | .halt => .states 5

/-- The duration of an execution: `n` is the shift count, `taken` whether the jump was taken (rule R258). -/
def Cost.total (n : Nat) (taken : Bool) : Cost → Nat
  | .states k => k
  | .perPosition k => k + n
  | .jump a b => if taken then b else a

end Sys2Proof.Machine
end

