-- ==== Sys2Proof/Safety.lean ====
section
/-! DEFINITION. The terms the statements use: what memory an access may touch, what a step leaves alone, and the runs
of the machine. -/

namespace Sys2Proof

open Machine

/-- The memory is in its one canonical form (log 1). -/
def MemoryFormHolds (s : State) : Prop := Memory.wf s.mem = true

/-- Every memory byte of `t` reads as in `s`. -/
def SameMemory (s t : State) : Prop := ∀ a, t.byteAt a = s.byteAt a

/-- Every memory byte outside the `n` bytes from `a` on reads in `t` as in `s`. -/
def SameMemoryOutside (s t : State) (a n : Nat) : Prop :=
  ∀ x, (x < a ∨ a + n ≤ x) → t.byteAt x = s.byteAt x

/-- Every ROM byte of `t` reads as in `s` (20_memory.md rule R47). -/
def RomKept (s t : State) : Prop := ∀ a, region a = .rom → t.byteAt a = s.byteAt a

/-- An access of `n` bytes at `a` passes the checks of alignment and protection (20_memory.md rule R44). -/
def Permitted (s : State) (a : Word) (n : Nat) : Prop :=
  (n = 2 → a.toNat % 2 = 0) ∧
    (s.flags.p = true ∨ (s.mplow.toNat ≤ a.toNat ∧ a.toNat + n - 1 ≤ s.mphigh.toNat))

/-- The word at an address is held by memory, as these two bytes, and a program may read it: none of it is a reserved
attribute byte. -/
def HoldsWord (s : State) (a : Word) (hi lo : Byte) : Prop :=
  region a.toNat ≠ .attr ∧ region (a.toNat + 1) ≠ .attr ∧
    s.byteAt a.toNat = some hi ∧ s.byteAt (a.toNat + 1) = some lo

/-- The bytes of an access at `a` can be written: none is ROM (20_memory.md rule R47). -/
def Writable (a : Word) (n : Nat) : Prop := ∀ k, k < n → region (a.toNat + k) ≠ .rom

/-- The bytes of an access at `a` keep what is written to them: none is ROM or a reserved attribute byte (rule R47). -/
def Keeps (a : Word) (n : Nat) : Prop :=
  ∀ k, k < n → region (a.toNat + k) ≠ .rom ∧ region (a.toNat + k) ≠ .attr

/-- The property of the multiply and divide unit that a claim about its results relies on: its operands are unsigned
(43_mul_div.md rules R130 to R135). -/
structure IsUnsigned (u : MulDiv) : Prop where
  mul : ∀ a b, (u.mul a b).toNat = a.toNat * b.toNat % 65536
  div : ∀ a b, ∃ q, u.div a b = some q ∧ q.toNat = a.toNat / b.toNat
  mod : ∀ a b, (u.mod a b).toNat = a.toNat % b.toNat
  mull : ∀ a b, (u.mull a b).toNat = a.toNat * b.toNat
  divl : ∀ hi lo b, u.divl hi lo b =
    if (hi.toNat * 65536 + lo.toNat) / b.toNat < 65536 then
      some (BitVec.ofNat 16 ((hi.toNat * 65536 + lo.toNat) / b.toNat),
        BitVec.ofNat 16 ((hi.toNat * 65536 + lo.toNat) % b.toNat))
    else none

/-- What belongs to the privileged program alone: SSP, the limit registers, E, the extension-port-high register, the
record of I/O, the micro-SD controller's leave, and whether the CPU runs (60_exceptions.md rules R225, R226). -/
def SameSystemState (s t : State) : Prop :=
  t.ssp = s.ssp ∧ t.mplow = s.mplow ∧ t.mphigh = s.mphigh ∧ t.flags.e = s.flags.e ∧
    t.extPortHi = s.extPortHi ∧ t.ioLog = s.ioLog ∧ t.sdArmed = s.sdArmed ∧ t.halted = s.halted

/-- A jump `mk` to the target `g` goes to the target where `c` holds and to the next instruction where it does not, and
changes the program counter alone (45_jump_call.md rule R167). -/
def JumpDecides (mk : Target → Instr) (s : State) (g : Target) (c : Prop) : Prop :=
  (c → Machine.exec (mk g) s = .next { s with pc := targetAddr s g }) ∧
    (¬c → Machine.exec (mk g) s = .next { s with pc := s.pc + BitVec.ofNat 16 (2 * g.words) })

/-- The first word of the jump `mk` to the target `g` holds the condition number `n` in its Rd field (30_encoding.md rule
R78). -/
def HasCondition (mk : Target → Instr) (g : Target) (n : BitVec 4) : Prop :=
  (encode (mk g)).head? = some (firstWord (0xA0 + g.fields.mode) n g.fields.low)

/-- A trap of entry `n` can be entered: SSP is even, the frame does not fall in the ROM, and the vector, which the frame
does not overwrite, holds the word of these two bytes (60_exceptions.md rules R220, R222). -/
def TrapReady (n : Fin 16) (s : State) (hi lo : Byte) : Prop :=
  s.ssp.toNat % 2 = 0 ∧ Writable (s.ssp - 2) 2 ∧ Writable (s.ssp - 4) 2 ∧ HoldsWord s (vectorAddr n) hi lo ∧
    s.ssp - 2 ≠ vectorAddr n ∧ s.ssp - 4 ≠ vectorAddr n

/-- What a trap entry with this saved PC leaves, when the vector holds the word of these two bytes (rule R220): SSP has
moved down by 4, P = 1, E = 0, the program counter is the vector's word, the frame holds the saved PC over the old FLAG
where memory keeps it, and nothing else has changed. -/
def TrapTaken (savedPc : Word) (hi lo : Byte) (s t : State) : Prop :=
  t = { s with
        mem := t.mem, ssp := s.ssp - 4, flags := { s.flags with p := true, e := false }, pc := wordOf hi lo } ∧
    (∀ x, x ≠ (s.ssp - 2).toNat → x ≠ (s.ssp - 2).toNat + 1 → x ≠ (s.ssp - 4).toNat → x ≠ (s.ssp - 4).toNat + 1 →
      t.byteAt x = s.byteAt x) ∧
    (Keeps (s.ssp - 2) 2 → HoldsWord t (s.ssp - 2) (highByte savedPc) (lowByte savedPc)) ∧
    (Keeps (s.ssp - 4) 2 → HoldsWord t (s.ssp - 4) (highByte s.flags.toWord) (lowByte s.flags.toWord))

/-- The states a run of steps reaches. -/
inductive Reaches : State → State → Prop where
  | refl (s : State) : Reaches s s
  | step {s t u : State} (h : Reaches s t) (hs : Machine.step t = .next u) : Reaches s u

end Sys2Proof
end

