-- ==== Sys2Proof/Certificates/Slice0/Obligations.lean ====
section
/-! DEFINITION. The statements for the provers. Many rules of spec/ are marked there as the spec's own decision (a row D
of 92_eei_decisions.md); a statement that rests on one says so. -/

open Sys2Proof Sys2Proof.Machine

/-! ## Registers and FLAG -/

/-- 10_state.md R22, R23: a register operand reads what was last written to it; SP is SSP when P = 1 and USP when P = 0,
so that in user mode SP and USP are one register; nothing else changes. -/
def Obligations.RegisterReadsWhatWasWritten : Prop :=
  ∀ (s : State) (r q : Reg) (v : Word),
    (s.setReg r v).reg q =
        (if q = r ∨ (s.flags.p = false ∧ (r = .sp ∨ r = .usp) ∧ (q = .sp ∨ q = .usp)) then v else s.reg q) ∧
      (s.flags.p = true → (s.setReg .sp v).ssp = v ∧ (s.setReg .sp v).usp = s.usp) ∧
      (s.flags.p = false → (s.setReg .sp v).usp = v ∧ (s.setReg .sp v).ssp = s.ssp) ∧
      { s.setReg r v with gpr := s.gpr, ssp := s.ssp, usp := s.usp } = s

/-- 10_state.md R26, R27 (decision D18, log 32): the layout of the FLAG word, and a write of a word keeps the six bits
alone. -/
def Obligations.FlagWordHasSixBits : Prop :=
  (∀ f : Flags,
    f.toWord.getLsbD 7 = f.e ∧ f.toWord.getLsbD 6 = f.p ∧ f.toWord.getLsbD 3 = f.v ∧ f.toWord.getLsbD 2 = f.c ∧
      f.toWord.getLsbD 1 = f.s ∧ f.toWord.getLsbD 0 = f.z ∧ f.toWord &&& 0xFF30 = 0) ∧
    ∀ w : Word, (Flags.ofWord w).toWord = w &&& 0x00CF

/-! ## Operands -/

/-- 30_encoding.md R77, 40_addressing.md R90, R92, R94, 10_state.md R23: how each operand field is assembled, on the words of
LD. That the sums of an index and of FP wrap modulo 2^16 is decision D4 (log 36), and that field Fh names no register is
decision D16 (log 25). -/
def Obligations.OperandFieldsAreAssembled : Prop :=
  (∀ (rd : Reg) (w : Word), decode (firstWord 0x08 rd.code 0) w = .ok (.ld rd (.mem (.drct w)))) ∧
    (∀ (rd rx : Reg) (w : Word),
      decode (firstWord 0x09 rd.code rx.code) w = .ok (.ld rd (.mem (.index w rx)))) ∧
    (∀ (rd : Reg) (w : Word), decode (firstWord 0x0A rd.code 0) w = .ok (.ld rd (.imm w))) ∧
    (∀ (rd : Reg) (d4 : BitVec 4) (w : Word),
      decode (firstWord 0x0B rd.code d4) w = .ok (.ld rd (.mem (.fpRel d4)))) ∧
    (∀ (rd rs : Reg) (w : Word), decode (firstWord 0x0C rd.code rs.code) w = .ok (.ld rd (.reg rs))) ∧
    (∀ (rd : Reg) (i4 : BitVec 4) (w : Word),
      decode (firstWord 0x0D rd.code i4) w = .ok (.ld rd (.imm4 i4))) ∧
    (∀ (s : State) (dsp : Word), locAddr s (.drct dsp) = dsp) ∧
    (∀ (s : State) (dsp : Word) (rx : Reg), locAddr s (.index dsp rx) = dsp + s.reg rx) ∧
    (∀ (s : State) (v : Word), operand s (.imm v) = .ok v) ∧
    (∀ (s : State) (d4 : BitVec 4), locAddr s (.fpRel d4) = s.reg (.g 12) + BitVec.ofInt 16 (2 * d4.toInt)) ∧
    (∀ (s : State) (i4 : BitVec 4), operand s (.imm4 i4) = .ok (BitVec.ofInt 16 i4.toInt)) ∧
    (∀ k : Fin 13, (Reg.g k).code.toNat = k.val) ∧ Reg.sp.code = 0xD ∧ Reg.usp.code = 0xE ∧
    ∀ (f : BitVec 4) (r : Reg), regOfField f = .ok r ↔ r.code = f

/-- 40_addressing.md R90 to R98, R100 (decisions D1, D4, D6, D27; logs 10, 17, 18, 36): where the operand of each mode is, and
what it yields: a word or a zero-extended byte that memory holds, a free value in place of a reserved attribute byte, an
immediate value, a register. -/
def Obligations.OperandOfEachMode : Prop :=
  ∀ (s : State),
    (∀ d, locAddr s (.drct d) = d) ∧
    (∀ d rx, locAddr s (.index d rx) = d + s.reg rx) ∧
    (∀ d4, locAddr s (.fpRel d4) = s.reg (.g 12) + BitVec.ofInt 16 (2 * d4.toInt)) ∧
    (∀ rx, locAddr s (.indr rx) = s.reg rx ∧ locAddr s (.bIndr rx) = s.reg rx) ∧
    (∀ l, locWidth l = .byte ↔ ∃ rx, l = .bIndr rx) ∧
    (∀ (l : Loc) (hi lo : Byte), locWidth l = .word → Permitted s (locAddr s l) 2 → HoldsWord s (locAddr s l) hi lo →
      ∃ w, operand s (.mem l) = .ok w ∧ w.toNat = hi.toNat * 256 + lo.toNat) ∧
    (∀ (l : Loc) (lo : Byte), locWidth l = .word → Permitted s (locAddr s l) 2 → region (locAddr s l).toNat = .attr →
      s.byteAt ((locAddr s l).toNat + 1) = some lo →
      ∃ w, operand s (.mem l) = .ok w ∧ w.toNat % 256 = lo.toNat) ∧
    (∀ (rx : Reg) (b : Byte), Permitted s (s.reg rx) 1 → region (s.reg rx).toNat ≠ .attr →
      s.byteAt (s.reg rx).toNat = some b → ∃ w, operand s (.mem (.bIndr rx)) = .ok w ∧ w.toNat = b.toNat) ∧
    (∀ rx : Reg, Permitted s (s.reg rx) 1 → region (s.reg rx).toNat = .attr →
      ∃ w, operand s (.mem (.bIndr rx)) = .ok w ∧ w.toNat < 256) ∧
    (∀ v, operand s (.imm v) = .ok v) ∧
    (∀ rs, operand s (.reg rs) = .ok (s.reg rs)) ∧
    (∀ i4 : BitVec 4, operand s (.imm4 i4) = .ok (BitVec.ofInt 16 i4.toInt)) ∧
    (∀ d, targetAddr s (.drct d) = d ∧ portAddr s (.drct d) = d) ∧
    (∀ d rx, targetAddr s (.index d rx) = d + s.reg rx) ∧
    (∀ rx, targetAddr s (.indr rx) = s.reg rx ∧ portAddr s (.indr rx) = s.reg rx ∧
      portAddr s (.bIndr rx) = s.reg rx)

/-! ## Memory -/

/-- 20_memory.md R44 (decisions D5, D24, D30; logs 13, 15): the checks of an access in their order. A word at an odd
address is OddAddress whatever the mode; a user-mode access outside the limits is LimitViolation; in privileged mode
the limits are ignored. -/
def Obligations.AccessChecksInOrder : Prop :=
  ∀ (s : State) (a v : Word) (b : Byte),
    (a.toNat % 2 = 1 →
      readWord s a = .error (.trap .oddAddress) ∧ writeWord s a v = .error (.trap .oddAddress)) ∧
    (a.toNat % 2 = 0 → s.flags.p = false → (a.toNat < s.mplow.toNat ∨ s.mphigh.toNat < a.toNat + 1) →
      readWord s a = .error (.trap .limitViolation) ∧ writeWord s a v = .error (.trap .limitViolation)) ∧
    (s.flags.p = false → (a.toNat < s.mplow.toNat ∨ s.mphigh.toNat < a.toNat) →
      readByte s a = .error (.trap .limitViolation) ∧ writeByte s a b = .error (.trap .limitViolation)) ∧
    (s.flags.p = true →
      readWord s a ≠ .error (.trap .limitViolation) ∧ writeWord s a v ≠ .error (.trap .limitViolation) ∧
        readByte s a ≠ .error (.trap .limitViolation) ∧ writeByte s a b ≠ .error (.trap .limitViolation))

/-- 20_memory.md R42, R46, R47 (decisions D1, D27; logs 10, 17, 29): a permitted store outside the ROM changes the bytes
it stores to and nothing else; the upper half goes to the even address; the reserved attribute bytes keep nothing; a
store to the ROM is refused. -/
def Obligations.StoreChangesItsBytesAlone : Prop :=
  ∀ (s : State) (a v : Word) (b : Byte),
    (Permitted s a 2 → Writable a 2 →
      ∃ t, writeWord s a v = .ok t ∧ t = { s with mem := t.mem } ∧ SameMemoryOutside s t a.toNat 2 ∧
        t.byteAt a.toNat = (if region a.toNat = .attr then s.byteAt a.toNat
          else some (BitVec.ofNat 8 (v.toNat / 256))) ∧
        t.byteAt (a.toNat + 1) = some (BitVec.ofNat 8 (v.toNat % 256))) ∧
    (Permitted s a 1 → Writable a 1 →
      ∃ t, writeByte s a b = .ok t ∧ t = { s with mem := t.mem } ∧ SameMemoryOutside s t a.toNat 1 ∧
        t.byteAt a.toNat = (if region a.toNat = .attr then s.byteAt a.toNat else some b)) ∧
    (Permitted s a 2 → region a.toNat = .rom → writeWord s a v = .error (.refuse .romWrite)) ∧
    (Permitted s a 1 → region a.toNat = .rom → writeByte s a b = .error (.refuse .romWrite))

/-- The model's canonical form of memory (log 1, 20_memory.md R40): every step keeps it, from every state that has it. -/
def Obligations.EveryStepKeepsMemoryForm : Prop :=
  ∀ s t : State, MemoryFormHolds s → step s = .next t → MemoryFormHolds t

/-- 20_memory.md R47: no run changes a byte of the ROM, whatever the program does (that a store to it stops the model is
decision D27, log 29) and whatever the micro-SD controller writes (that it is an agent, and that its bytes outside RAM
are lost, is the model's choice, log 22, which R62 leaves to a model). -/
def Obligations.NoRunChangesRom : Prop :=
  ∀ s t : State, Reaches s t → RomKept s t

/-! ## Encoding -/

/-- 30_encoding.md R72 to R78: decoding an encoded instruction gives it back, with every operand at every value, and
leaves the bytes after it. -/
def Obligations.DecodeOfEncode : Prop :=
  ∀ (i : Instr) (rest : List Byte), decodeBytes (encodeBytes i ++ rest) = .ok (i, rest)

/-- 30_encoding.md R72 to R79: a word has one meaning: what is decoded is the encoding of the instruction. It rests on the
refusal of a word whose fixed field is not zero, decision D15 (log 25). -/
def Obligations.EncodeOfDecode : Prop :=
  ∀ (bs rest : List Byte) (i : Instr), decodeBytes bs = .ok (i, rest) → bs = encodeBytes i ++ rest

/-- 95_test_vectors.md 2.1 to 2.12: a few words and the instructions they stand for. -/
def Obligations.SampleWordsDecode : Prop :=
  decodeBytes [0x09, 0x01, 0x02, 0x00] = .ok (.ld (.g 0) (.mem (.index 0x0200 (.g 1))), []) ∧
    decodeBytes [0x13, 0x11] = .ok (.st (.g 1) (.fpRel 1), []) ∧
    decodeBytes [0x4C, 0x12] = .ok (.adds (.g 1) (.reg (.g 2)), []) ∧
    decodeBytes [0x72, 0x20, 0x01, 0x00] = .ok (.divl (.g 2) (.imm 0x0100), []) ∧
    decodeBytes [0x95, 0x14] = .ok (.shra (.g 1) (.imm4 4), []) ∧
    decodeBytes [0xA6, 0x85] = .ok (.jnz (.indr (.g 5)), []) ∧
    decodeBytes [0xBF, 0x01] = .ok (.outp (.g 0) (.bIndr (.g 1)), []) ∧
    decodeBytes [0xC4, 0xD0] = .ok (.pop .sp, []) ∧
    decodeBytes [0xD4, 0x00] = .ok (.reti, []) ∧
    decodeBytes [0xFF, 0x00] = .ok (.halt, [])

/-- 30_encoding.md R78: the Rd field of the jumps is the condition, by the table; Dh is undefined; the Rd field of CALL
is the constant 0h. -/
def Obligations.JumpConditionTable : Prop :=
  (∀ g : Target,
    HasCondition .jz g 0x0 ∧ HasCondition .jc g 0x1 ∧ HasCondition .jm g 0x2 ∧ HasCondition .jo g 0x3 ∧
      HasCondition .jgt g 0x4 ∧ HasCondition .jge g 0x5 ∧ HasCondition .jle g 0x6 ∧ HasCondition .jlt g 0x7 ∧
      HasCondition .jnz g 0x8 ∧ HasCondition .jnc g 0x9 ∧ HasCondition .jnm g 0xA ∧ HasCondition .jno g 0xB ∧
      HasCondition .jhi g 0xC ∧ HasCondition .jls g 0xE ∧ HasCondition .jmp g 0xF) ∧
    (∀ (op : Byte) (rd rx : BitVec 4) (w : Word) (i : Instr), op ∈ [0xA0, 0xA1, 0xA6] →
      decode (firstWord op rd rx) w = .ok i →
      ∃ (mk : Target → Instr) (g : Target), i = mk g ∧ HasCondition mk g rd ∧
        mk ∈ [Instr.jz, .jc, .jm, .jo, .jgt, .jge, .jle, .jlt, .jnz, .jnc, .jnm, .jno, .jhi, .jls, .jmp]) ∧
    (∀ (op : Byte) (rx : BitVec 4) (w : Word), op ∈ [0xA0, 0xA1, 0xA6] →
      decode (firstWord op 0xD rx) w = .error .undefined) ∧
    ∀ (op : Byte) (rd rx : BitVec 4) (w : Word) (i : Instr), op ∈ [0xA8, 0xA9, 0xAE] →
      decode (firstWord op rd rx) w = .ok i → rd = 0 ∧ ∃ g, i = .call g

/-- 30_encoding.md R80 (decision D15, log 25): which first words are undefined: the blank OP values, and a jump with
Rd = Dh. -/
def Obligations.UndefinedWords : Prop :=
  ∀ (op : Byte) (rd rx : BitVec 4) (w : Word),
    decode (firstWord op rd rx) w = .error .undefined ↔
      ((0x01 ≤ op ∧ op ≤ 0x07) ∨ op = 0x12 ∨ op = 0x15 ∨ (0x78 ≤ op ∧ op ≤ 0x7F) ∨ (0xA2 ≤ op ∧ op ≤ 0xA5) ∨
        op = 0xA7 ∨ (0xAA ≤ op ∧ op ≤ 0xAD) ∨ op = 0xAF ∨ (0xB1 ≤ op ∧ op ≤ 0xB5) ∨ (0xB9 ≤ op ∧ op ≤ 0xBD) ∨
        (0xC1 ≤ op ∧ op ≤ 0xC3) ∨ (0xC5 ≤ op ∧ op ≤ 0xCF) ∨ (0xD1 ≤ op ∧ op ≤ 0xD3) ∨ (0xD5 ≤ op ∧ op ≤ 0xDF) ∨
        (0xE1 ≤ op ∧ op ≤ 0xE3) ∨ (0xE5 ≤ op ∧ op ≤ 0xEF) ∨ (0xF1 ≤ op ∧ op ≤ 0xFE)) ∨
      ((op = 0xA0 ∨ op = 0xA1 ∨ op = 0xA6) ∧ rd = 0xD)

/-! ## The step -/

/-- 30_encoding.md R82: when the bytes at the program counter decode to an instruction, the step is `exec` of it at the
state after the boundary; while the micro-SD controller is not at memory, that state differs from the one before in the
model's own input list and counter alone. The second word need not be there when the instruction has one word, nor when
its privilege is violated (R206). -/
def Obligations.StepRunsTheDecodedInstruction : Prop :=
  ∀ (s : State) (b0 b1 b2 b3 : Byte) (i : Instr) (rest : List Byte),
    s.halted = false → acceptedIrq s = none →
    Permitted s.boundary s.pc 2 → HoldsWord s.boundary s.pc b0 b1 →
    decodeBytes [b0, b1, b2, b3] = .ok (i, rest) →
    (instrWords i = 1 ∨ (privSet i = true ∧ s.flags.p = false) ∨
      (Permitted s.boundary (s.pc + 2) 2 ∧ HoldsWord s.boundary (s.pc + 2) b2 b3)) →
    step s = exec i s.boundary ∧
      (s.sdArmed = false → s.boundary = { s with inputs := s.inputs.tail, draws := s.draws + 1 })

/-- 30_encoding.md R80, 60_exceptions.md R207, R221 (decisions D15, D20; logs 12, 13, 25): a first word that is undefined
raises UndefinedInstruction, with the address after it saved: the trap entry, or the end of the run where the state says
so. -/
def Obligations.UndefinedWordTraps : Prop :=
  ∀ (s : State) (b0 b1 : Byte),
    s.halted = false → acceptedIrq s = none →
    Permitted s.boundary s.pc 2 → HoldsWord s.boundary s.pc b0 b1 → decode (wordOf b0 b1) 0 = .error .undefined →
    step s = raise .undefinedInstruction (s.pc + 2) s.boundary

/-- 60_exceptions.md R213, R215, R216 (decision D21; logs 19, 20): with E = 1 a request at the boundary is entered before
the next instruction, saving the PC: some requesting source, and the only one if there is one; with E = 0 none is
accepted. -/
def Obligations.InterruptIsAcceptedWhenEnabled : Prop :=
  ∀ (s : State) (x : BoundaryInput) (rest : List BoundaryInput), s.inputs = x :: rest → s.halted = false →
    (s.flags.e = false → acceptedIrq s = none) ∧
    (s.flags.e = true → x.irq = 0 → acceptedIrq s = none) ∧
    (s.flags.e = true → x.irq ≠ 0 →
      ∃ n : Fin 10, x.irq.getLsbD n.val = true ∧ step s = trapEntry (irqEntry n) s.pc s.boundary) ∧
    (∀ n : Fin 10, s.flags.e = true → x.irq = 1#10 <<< n.val →
      step s = trapEntry (irqEntry n) s.pc s.boundary)

/-! ## Traps -/

/-- 60_exceptions.md R201, R220, R222, R223 (decisions D19, D31; logs 24, 33): what a trap entry does; with an odd SSP it
is stuck. Each of the six exceptions performs it, by its entry number, unless the state says that it ends the run (R204,
30_encoding.md R80, decisions D15 and D30, log 13), which no run changes. -/
def Obligations.TrapEntrySavesThePsw : Prop :=
  (∀ (n : Fin 16) (savedPc : Word) (s : State) (hi lo : Byte),
    (TrapReady n s hi lo → ∃ t, trapEntry n savedPc s = .next t ∧ TrapTaken savedPc hi lo s t) ∧
    (s.ssp.toNat % 2 = 1 → trapEntry n savedPc s = .fault .trapEntryOddSsp) ∧
    (vectorAddr n).toNat = 0xFFE0 + 2 * n.val ∧
    (∀ e, e ∈ s.runEndsAt → raise e savedPc s = .fault (.exceptionEndsRun e)) ∧
    (∀ e, e ∉ s.runEndsAt → raise e savedPc s = trapEntry e.entry savedPc s) ∧
    Exc.oddAddress.entry = 10 ∧ Exc.limitViolation.entry = 11 ∧ Exc.zeroDivide.entry = 12 ∧
    Exc.privilegeViolation.entry = 13 ∧ Exc.undefinedInstruction.entry = 14 ∧ Exc.svc.entry = 15) ∧
  ∀ s t : State, Reaches s t → t.runEndsAt = s.runEndsAt

/-- 47_stack_return.md R183 after 60_exceptions.md R220 (decisions D17, D19; log 33): RETI right after a trap entry whose
frame memory keeps restores the whole of the state but the two stack words. -/
def Obligations.RetiUndoesTheTrapEntry : Prop :=
  ∀ (n : Fin 16) (savedPc : Word) (s t : State),
    trapEntry n savedPc s = .next t → Keeps (s.ssp - 2) 2 → Keeps (s.ssp - 4) 2 →
    exec .reti t = .next { s with pc := savedPc, mem := t.mem }

/-- 60_exceptions.md R202, R203, R221, R228 (decisions D5, D20, D30; logs 12, 13): an exception of the operand read ends the
instruction: it is raised in the state as it was, with `pc_next` to save. -/
def Obligations.OperandExceptionIsRaised : Prop :=
  ∀ (s : State) (rd : Reg) (src : Src) (e : Exc), operand s src = .error (.trap e) →
    ∀ i ∈ [Instr.ld rd src, .add rd src, .sub rd src, .cmp rd src, .and rd src, .or rd src, .xor rd src,
        .adds rd src, .mul rd src, .div rd src, .mod rd src, .mull rd src, .divl rd src, .shla rd src,
        .shll rd src, .shra rd src, .shrl rd src],
      wellFormed i = true → exec i s = raise e (s.pc + BitVec.ofNat 16 (2 * src.words)) s

/-- 60_exceptions.md R202, R203, R221, R228, 41_transfer.md R113, 45_jump_call.md R165, 47_stack_return.md R180 to R183 (decisions
D5, D20, D30; logs 12, 13): an access that ST, PUSH, CALL, POP, RET or RETI may not make ends the instruction, and its
exception is raised in the state as it was, with `pc_next` to save. -/
def Obligations.StoreAndStackExceptionsAreRaised : Prop :=
  ∀ (s : State) (rd : Reg) (l : Loc) (g : Target) (e : Exc),
    (checkAccess s (locAddr s l) (if locWidth l = .word then 2 else 1) = .error (.trap e) →
      exec (.st rd l) s = raise e (s.pc + BitVec.ofNat 16 (2 * l.words)) s) ∧
    (checkAccess s (s.reg .sp - 2) 2 = .error (.trap e) →
      exec (.push rd) s = raise e (s.pc + 2) s ∧
        exec (.call g) s = raise e (s.pc + BitVec.ofNat 16 (2 * g.words)) s) ∧
    (checkAccess s (s.reg .sp) 2 = .error (.trap e) →
      exec (.pop rd) s = raise e (s.pc + 2) s ∧ exec .ret s = raise e (s.pc + 2) s) ∧
    (s.flags.p = true → s.ssp.toNat % 2 = 1 → exec .reti s = raise .oddAddress (s.pc + 2) s)

/-- 60_exceptions.md R205, 43_mul_div.md R131, R132, R134 (decisions D10, D20; log 12): DIV, MOD and DIVL by zero raise
ZeroDivide with nothing written. -/
def Obligations.DivisionByZeroTraps : Prop :=
  ∀ (s : State) (rd : Reg) (src : Src), operand s src = .ok 0 →
    ∀ i ∈ [Instr.div rd src, .mod rd src, .divl rd src],
      wellFormed i = true → exec i s = raise .zeroDivide (s.pc + BitVec.ofNat 16 (2 * src.words)) s

/-- 60_exceptions.md R206, R226 (decisions D20, D22; logs 12, 14): IN, OUT, EI, DI and HALT raise PrivilegeViolation in user
mode, whatever their operands; so does any instruction that `PRIV_SET` names (00_scope.md R5). -/
def Obligations.PrivilegedInstructionsTrapInUserMode : Prop :=
  ∀ (s : State) (rd : Reg) (p : Port), s.flags.p = false →
    (∀ i : Instr, params.privSet i = true →
      exec i s = raise .privilegeViolation (s.pc + BitVec.ofNat 16 (2 * instrWords i)) s) ∧
    exec (.inp rd p) s = raise .privilegeViolation (s.pc + BitVec.ofNat 16 (2 * p.words)) s ∧
    exec (.outp rd p) s = raise .privilegeViolation (s.pc + BitVec.ofNat 16 (2 * p.words)) s ∧
    exec .ei s = raise .privilegeViolation (s.pc + 2) s ∧ exec .di s = raise .privilegeViolation (s.pc + 2) s ∧
    exec .halt s = raise .privilegeViolation (s.pc + 2) s

/-! ## Transfer -/

/-- 41_transfer.md R110. -/
def Obligations.NoAdvancesThePcAlone : Prop :=
  decodeBytes [0x00, 0x00] = .ok (.no, []) ∧ cost .no = .states 3 ∧
    ∀ s : State, exec .no s = .next { s with pc := s.pc + 2 }

/-- 41_transfer.md R111, 60_exceptions.md R221: LD writes the operand to Rd and changes nothing else; an exception of the
operand read is raised with `pc_next` to save (decision D20, log 12): its trap entry, or the end of the run where the
state says so (R204, log 13). -/
def Obligations.LdLoadsTheOperand : Prop :=
  ∀ (s : State) (rd : Reg) (src : Src),
    (∀ v, operand s src = .ok v →
      exec (.ld rd src) s = .next { s.setReg rd v with pc := s.pc + BitVec.ofNat 16 (2 * src.words) }) ∧
    (∀ e, operand s src = .error (.trap e) →
      exec (.ld rd src) s = raise e (s.pc + BitVec.ofNat 16 (2 * src.words)) s) ∧
    (encode (.ld rd src)).head? = some (firstWord (0x08 + src.fields.mode) rd.code src.fields.low)

/-- 41_transfer.md R112: LD Rd,FLAG reads the six bits in their places and 0 elsewhere, in either mode, and changes Rd
alone; its OP is 14h and 15h is blank. -/
def Obligations.LdFlagReadsTheFlagWord : Prop :=
  ∀ (s : State) (rd : Reg),
    (∃ w : Word,
      exec (.ldFlag rd) s = .next { s.setReg rd w with pc := s.pc + 2 } ∧
        w = 0#8 ++ BitVec.ofBool s.flags.e ++ BitVec.ofBool s.flags.p ++ 0#2 ++ BitVec.ofBool s.flags.v ++
          BitVec.ofBool s.flags.c ++ BitVec.ofBool s.flags.s ++ BitVec.ofBool s.flags.z) ∧
    encode (.ldFlag rd) = [firstWord 0x14 rd.code 0] ∧ cost (.ldFlag rd) = .states 4 ∧
    ∀ (x : BitVec 4) (w : Word), decode (firstWord 0x15 rd.code x) w = .error .undefined

/-- 41_transfer.md R113 (decisions D1, D6; logs 17, 18): ST stores Rd, a word in the modes 0, 1, 3 and 6 and the low byte
in mode 7, where the operand is, and changes nothing else. -/
def Obligations.StStoresRd : Prop :=
  ∀ (s : State) (rd : Reg) (l : Loc),
    (locWidth l = .word → Permitted s (locAddr s l) 2 → Writable (locAddr s l) 2 →
      ∃ t, exec (.st rd l) s = .next t ∧
        t = { s with mem := t.mem, pc := s.pc + BitVec.ofNat 16 (2 * l.words) } ∧
        SameMemoryOutside s t (locAddr s l).toNat 2 ∧
        (region (locAddr s l).toNat ≠ .attr →
          t.byteAt (locAddr s l).toNat = some (highByte (s.reg rd))) ∧
        (region (locAddr s l).toNat = .attr → t.byteAt (locAddr s l).toNat = s.byteAt (locAddr s l).toNat) ∧
        t.byteAt ((locAddr s l).toNat + 1) = some (lowByte (s.reg rd))) ∧
    (locWidth l = .byte → Permitted s (locAddr s l) 1 → Writable (locAddr s l) 1 →
      ∃ t, exec (.st rd l) s = .next t ∧
        t = { s with mem := t.mem, pc := s.pc + BitVec.ofNat 16 (2 * l.words) } ∧
        SameMemoryOutside s t (locAddr s l).toNat 1 ∧
        (region (locAddr s l).toNat ≠ .attr →
          t.byteAt (locAddr s l).toNat = some (lowByte (s.reg rd))) ∧
        (region (locAddr s l).toNat = .attr →
          t.byteAt (locAddr s l).toNat = s.byteAt (locAddr s l).toNat))

/-! ## Arithmetic and logic -/

/-- 42_arith_logic.md R120, 10_state.md R31 (decision D7, log 35): ADD, with the flags as facts about the exact sums. -/
def Obligations.AddWritesSumAndFlags : Prop :=
  ∀ (s : State) (rd : Reg) (src : Src) (b : Word), operand s src = .ok b →
    ∃ (r : Word) (fl : Vcsz),
      exec (.add rd src) s =
          .next { (s.setReg rd r).setVcsz fl with pc := s.pc + BitVec.ofNat 16 (2 * src.words) } ∧
        r.toNat = ((s.reg rd).toNat + b.toNat) % 65536 ∧
        (fl.z = true ↔ r.toNat = 0) ∧ (fl.s = true ↔ r.toInt < 0) ∧
        (fl.c = true ↔ 65536 ≤ (s.reg rd).toNat + b.toNat) ∧
        (fl.v = true ↔ (s.reg rd).toInt + b.toInt < -32768 ∨ 32767 < (s.reg rd).toInt + b.toInt)

/-- 42_arith_logic.md R121, R122, 10_state.md R32 (decision D7, log 35): SUB and CMP, with the flags as facts about the exact
differences; CMP writes no register. -/
def Obligations.SubAndCmpWriteFlags : Prop :=
  ∀ (s : State) (rd : Reg) (src : Src) (b : Word), operand s src = .ok b →
    ∃ (r : Word) (fl : Vcsz),
      exec (.sub rd src) s =
          .next { (s.setReg rd r).setVcsz fl with pc := s.pc + BitVec.ofNat 16 (2 * src.words) } ∧
        exec (.cmp rd src) s = .next { s.setVcsz fl with pc := s.pc + BitVec.ofNat 16 (2 * src.words) } ∧
        (r.toNat : Int) = ((s.reg rd).toNat - b.toNat : Int) % 65536 ∧
        (fl.z = true ↔ s.reg rd = b) ∧ (fl.s = true ↔ r.toInt < 0) ∧
        (fl.c = true ↔ (s.reg rd).toNat < b.toNat) ∧
        (fl.v = true ↔ (s.reg rd).toInt - b.toInt < -32768 ∨ 32767 < (s.reg rd).toInt - b.toInt)

/-- 42_arith_logic.md R123 to R125, 10_state.md R33 (decision D8, log 5): AND, OR and XOR bit by bit; Z and S from the result,
V and C free. -/
def Obligations.LogicWritesBitwiseResult : Prop :=
  ∀ (s : State) (rd : Reg) (src : Src) (b : Word), operand s src = .ok b →
    ∀ x ∈ [(Instr.and rd src, fun p q : Bool => p && q), (.or rd src, fun p q => p || q),
        (.xor rd src, fun p q => p != q)],
      ∃ (r : Word) (fl : Vcsz),
        exec x.1 s = .next { (s.setReg rd r).setVcsz fl with pc := s.pc + BitVec.ofNat 16 (2 * src.words) } ∧
          (∀ k < 16, r.getLsbD k = x.2 ((s.reg rd).getLsbD k) (b.getLsbD k)) ∧
          (fl.z = true ↔ r.toNat = 0) ∧ (fl.s = true ↔ r.toInt < 0)

/-- 42_arith_logic.md R126, 43_mul_div.md R130, 10_state.md R33 (decision D8, log 5): ADDS and MUL modulo 2^16; Z and S from
the result, V and C free. -/
def Obligations.AddsAndMulWriteResult : Prop :=
  ∀ (s : State) (rd : Reg) (src : Src) (b : Word), operand s src = .ok b →
    ∀ x ∈ [(Instr.adds rd src, (s.reg rd).toNat + 2 * b.toNat), (.mul rd src, (s.reg rd).toNat * b.toNat)],
      ∃ (r : Word) (fl : Vcsz),
        exec x.1 s = .next { (s.setReg rd r).setVcsz fl with pc := s.pc + BitVec.ofNat 16 (2 * src.words) } ∧
          r.toNat = x.2 % 65536 ∧ (fl.z = true ↔ r.toNat = 0) ∧ (fl.s = true ↔ r.toInt < 0)

/-! ## Multiply and divide -/

/-- 43_mul_div.md R131, R132, R135 (decisions D8, D9; logs 5, 16): the unit of the machine has the property that claims about
the five instructions rely on; DIV and MOD by a divisor that is not zero, on unsigned values. -/
def Obligations.DivAndModDivide : Prop :=
  IsUnsigned mulDiv ∧ ∀ (s : State) (rd : Reg) (src : Src) (b : Word), operand s src = .ok b → b ≠ 0 →
    ∃ (q m : Word) (fq fm : Vcsz),
      exec (.div rd src) s =
          .next { (s.setReg rd q).setVcsz fq with pc := s.pc + BitVec.ofNat 16 (2 * src.words) } ∧
        exec (.mod rd src) s =
          .next { (s.setReg rd m).setVcsz fm with pc := s.pc + BitVec.ofNat 16 (2 * src.words) } ∧
        (s.reg rd).toNat = b.toNat * q.toNat + m.toNat ∧ m.toNat < b.toNat ∧
        (fq.z = true ↔ q.toNat = 0) ∧ (fq.s = true ↔ q.toInt < 0) ∧
        (fm.z = true ↔ m.toNat = 0) ∧ (fm.s = true ↔ m.toInt < 0)

/-- 43_mul_div.md R133 (decisions D9, D12; logs 6, 16): MULL writes the 32-bit product to the pair, the upper half to Rd + 1;
the four flags are free. -/
def Obligations.MullWritesThePair : Prop :=
  ∀ (s : State) (rd : Reg) (src : Src) (b : Word), operand s src = .ok b → wellFormed (.mull rd src) = true →
    ∃ (rh : Reg) (lo hi : Word) (fl : Vcsz) (t : State),
      exec (.mull rd src) s = .next t ∧
        t = { ((s.setReg rd lo).setReg rh hi).setVcsz fl with pc := s.pc + BitVec.ofNat 16 (2 * src.words) } ∧
        rh.code.toNat = rd.code.toNat + 1 ∧ t.reg rd = lo ∧ t.reg rh = hi ∧
        hi.toNat * 65536 + lo.toNat = (s.reg rd).toNat * b.toNat

/-- 43_mul_div.md R134 (decisions D9, D11; logs 6, 8, 16): DIVL divides the pair; the quotient fits exactly when the upper
half is below the divisor, and otherwise Rd and Rd + 1 get free values, the instruction completing all the same. -/
def Obligations.DivlDividesThePair : Prop :=
  ∀ (s : State) (rd : Reg) (src : Src) (b : Word), operand s src = .ok b → b ≠ 0 →
    wellFormed (.divl rd src) = true →
    ∃ (rh : Reg) (q m : Word) (fl : Vcsz) (t : State),
      exec (.divl rd src) s = .next t ∧
        t = { ((s.setReg rd q).setReg rh m).setVcsz fl with pc := s.pc + BitVec.ofNat 16 (2 * src.words) } ∧
        rh.code.toNat = rd.code.toNat + 1 ∧ t.reg rd = q ∧ t.reg rh = m ∧
        ((s.reg rh).toNat < b.toNat →
          (s.reg rh).toNat * 65536 + (s.reg rd).toNat = b.toNat * q.toNat + m.toNat ∧ m.toNat < b.toNat)

/-- 43_mul_div.md R134, its corner cases (decisions D9, D12; log 16): MULL and then DIVL with the same operand, not zero,
restore Rd and leave 0 in Rd + 1. -/
def Obligations.DivlUndoesMull : Prop :=
  ∀ (s t : State) (rd rh : Reg) (src : Src) (b : Word),
    wellFormed (.mull rd src) = true → rh.code.toNat = rd.code.toNat + 1 →
    operand s src = .ok b → b ≠ 0 → exec (.mull rd src) s = .next t → operand t src = .ok b →
    ∃ u, exec (.divl rd src) t = .next u ∧ u.reg rd = s.reg rd ∧ u.reg rh = 0

/-! ## Shifts -/

/-- 44_shift.md R140, R141, R144 (decisions D8, D13; logs 5, 7): the left shifts; a count above 15 gives a free result, with
Z and S from it. -/
def Obligations.LeftShiftsMultiply : Prop :=
  ∀ (s : State) (rd : Reg) (src : Src) (n : Word), operand s src = .ok n →
    ∀ i ∈ [Instr.shla rd src, .shll rd src],
      ∃ (r : Word) (fl : Vcsz),
        exec i s = .next { (s.setReg rd r).setVcsz fl with pc := s.pc + BitVec.ofNat 16 (2 * src.words) } ∧
          (n.toNat ≤ 15 → r.toNat = (s.reg rd).toNat * 2 ^ n.toNat % 65536) ∧
          (fl.z = true ↔ r.toNat = 0) ∧ (fl.s = true ↔ r.toInt < 0)

/-- 44_shift.md R142, R143, R144 (decisions D8, D13; logs 5, 7): SHRA rounds the signed value toward minus infinity, SHRL
divides the unsigned value; a count above 15 gives a free result, with Z and S from it. -/
def Obligations.RightShiftsDivide : Prop :=
  ∀ (s : State) (rd : Reg) (src : Src) (n : Word), operand s src = .ok n →
    (∃ (r : Word) (fl : Vcsz),
      exec (.shra rd src) s =
          .next { (s.setReg rd r).setVcsz fl with pc := s.pc + BitVec.ofNat 16 (2 * src.words) } ∧
        (n.toNat ≤ 15 → r.toInt = (s.reg rd).toInt / 2 ^ n.toNat) ∧
        (fl.z = true ↔ r.toNat = 0) ∧ (fl.s = true ↔ r.toInt < 0)) ∧
    ∃ (r : Word) (fl : Vcsz),
      exec (.shrl rd src) s =
          .next { (s.setReg rd r).setVcsz fl with pc := s.pc + BitVec.ofNat 16 (2 * src.words) } ∧
        (n.toNat ≤ 15 → r.toNat = (s.reg rd).toNat / 2 ^ n.toNat) ∧
        (fl.z = true ↔ r.toNat = 0) ∧ (fl.s = true ↔ r.toInt < 0)

/-! ## Jumps and CALL -/

/-- 45_jump_call.md R150 to R153 and R158 to R161: the jumps on one flag, their condition numbers, and the relation that JZ,
JC, JNZ and JNC test after CMP of a and b. -/
def Obligations.JumpsOnOneFlag : Prop :=
  (∀ (s : State) (g : Target),
    (JumpDecides .jz s g (s.flags.z = true) ∧ HasCondition .jz g 0x0) ∧
      (JumpDecides .jc s g (s.flags.c = true) ∧ HasCondition .jc g 0x1) ∧
      (JumpDecides .jm s g (s.flags.s = true) ∧ HasCondition .jm g 0x2) ∧
      (JumpDecides .jo s g (s.flags.v = true) ∧ HasCondition .jo g 0x3) ∧
      (JumpDecides .jnz s g (s.flags.z = false) ∧ HasCondition .jnz g 0x8) ∧
      (JumpDecides .jnc s g (s.flags.c = false) ∧ HasCondition .jnc g 0x9) ∧
      (JumpDecides .jnm s g (s.flags.s = false) ∧ HasCondition .jnm g 0xA) ∧
      (JumpDecides .jno s g (s.flags.v = false) ∧ HasCondition .jno g 0xB)) ∧
    ∀ (s : State) (rd : Reg) (src : Src) (a b : Word) (g : Target), s.reg rd = a → operand s src = .ok b →
      ∃ t, exec (.cmp rd src) s = .next t ∧
        JumpDecides .jz t g (a = b) ∧ JumpDecides .jc t g (a.toNat < b.toNat) ∧
        JumpDecides .jnz t g (a ≠ b) ∧ JumpDecides .jnc t g (b.toNat ≤ a.toNat)

/-- 45_jump_call.md R154 to R157, R162, R163 and R164: the jumps on several flags and JMP, their condition numbers, and the
relation that each tests after CMP of a and b. -/
def Obligations.JumpsOnComparison : Prop :=
  (∀ (s : State) (g : Target),
    (JumpDecides .jgt s g (s.flags.z = false ∧ s.flags.s = s.flags.v) ∧ HasCondition .jgt g 0x4) ∧
      (JumpDecides .jge s g (s.flags.s = s.flags.v) ∧ HasCondition .jge g 0x5) ∧
      (JumpDecides .jle s g (s.flags.z = true ∨ s.flags.s ≠ s.flags.v) ∧ HasCondition .jle g 0x6) ∧
      (JumpDecides .jlt s g (s.flags.s ≠ s.flags.v) ∧ HasCondition .jlt g 0x7) ∧
      (JumpDecides .jhi s g (s.flags.z = false ∧ s.flags.c = false) ∧ HasCondition .jhi g 0xC) ∧
      (JumpDecides .jls s g (s.flags.z = true ∨ s.flags.c = true) ∧ HasCondition .jls g 0xE) ∧
      (JumpDecides .jmp s g True ∧ HasCondition .jmp g 0xF ∧ cost (.jmp g) = .states 5)) ∧
    ∀ (s : State) (rd : Reg) (src : Src) (a b : Word) (g : Target), s.reg rd = a → operand s src = .ok b →
      ∃ t, exec (.cmp rd src) s = .next t ∧
        JumpDecides .jgt t g (b.toInt < a.toInt) ∧ JumpDecides .jge t g (b.toInt ≤ a.toInt) ∧
        JumpDecides .jle t g (a.toInt ≤ b.toInt) ∧ JumpDecides .jlt t g (a.toInt < b.toInt) ∧
        JumpDecides .jhi t g (b.toNat < a.toNat) ∧ JumpDecides .jls t g (a.toNat ≤ b.toNat)

/-- 45_jump_call.md R166, the source's comparison table: after CMP or SUB of a and b, the jump decides by the relation of
a to b, signed and unsigned. -/
def Obligations.ComparisonTable : Prop :=
  ∀ (s : State) (rd : Reg) (src : Src) (b : Word) (g : Target), operand s src = .ok b →
    ∀ i ∈ [Instr.cmp rd src, .sub rd src],
      ∃ t, exec i s = .next t ∧
        JumpDecides .jgt t g (b.toInt < (s.reg rd).toInt) ∧ JumpDecides .jge t g (b.toInt ≤ (s.reg rd).toInt) ∧
        JumpDecides .jz t g (s.reg rd = b) ∧ JumpDecides .jnz t g (s.reg rd ≠ b) ∧
        JumpDecides .jle t g ((s.reg rd).toInt ≤ b.toInt) ∧ JumpDecides .jlt t g ((s.reg rd).toInt < b.toInt) ∧
        JumpDecides .jhi t g (b.toNat < (s.reg rd).toNat) ∧ JumpDecides .jnc t g (b.toNat ≤ (s.reg rd).toNat) ∧
        JumpDecides .jls t g ((s.reg rd).toNat ≤ b.toNat) ∧ JumpDecides .jc t g ((s.reg rd).toNat < b.toNat)

/-- 45_jump_call.md R165 (decisions D3, D14; log 34): CALL pushes the address of the next instruction on the stack P selects
and goes to the target, which is computed with SP as it was; nothing else changes. -/
def Obligations.CallPushesTheReturnAddress : Prop :=
  ∀ (s : State) (g : Target), Permitted s (s.reg .sp - 2) 2 → Writable (s.reg .sp - 2) 2 →
    ∃ t, exec (.call g) s = .next t ∧
      t = { s.setReg .sp (s.reg .sp - 2) with mem := t.mem, pc := targetAddr s g } ∧
      SameMemoryOutside s t (s.reg .sp - 2).toNat 2 ∧
      (Keeps (s.reg .sp - 2) 2 →
        HoldsWord t (s.reg .sp - 2) (highByte (s.pc + BitVec.ofNat 16 (2 * g.words)))
          (lowByte (s.pc + BitVec.ofNat 16 (2 * g.words))))

/-- 47_stack_return.md R182 after 45_jump_call.md R165 (decisions D3, D14; log 34): RET right after a CALL whose stack word
memory keeps resumes after the CALL with the stack pointer as it was. -/
def Obligations.RetReturnsAfterTheCall : Prop :=
  ∀ (s t : State) (g : Target), exec (.call g) s = .next t → Permitted s (s.reg .sp - 2) 2 →
    Keeps (s.reg .sp - 2) 2 →
    exec .ret t = .next { s with mem := t.mem, pc := s.pc + BitVec.ofNat 16 (2 * g.words) }

/-! ## Input and output -/

/-- 46_io.md R170, 20_memory.md R50, R51, R55 (decisions D24, D28; logs 15, 21, 31): IN in privileged mode records one read
and writes Rd; the limit registers read back; the bytes drawn 00H read 00h, the rows 12h, 14h and 16h excepted; everything
else is a free value. -/
def Obligations.InReadsThePort : Prop :=
  ∀ (s : State) (rd : Reg) (p : Port) (a : Nat),
    s.flags.p = true → a = (portAddr s p).toNat → a ≤ 0xFF → (portWidth p = .word → a % 2 = 0) →
    (portWidth p = .byte → a < 0xF4 ∨ 0xF7 < a) →
    ∃ v : Word,
      exec (.inp rd p) s =
          .next { s.setReg rd v with
                  ioLog := .read (BitVec.ofNat 8 a) (portWidth p) :: s.ioLog
                  pc := s.pc + BitVec.ofNat 16 (2 * p.words) } ∧
        (portWidth p = .word → a = 0xF4 → v = s.mplow) ∧ (portWidth p = .word → a = 0xF6 → v = s.mphigh) ∧
        (portWidth p = .word → (0x08 ≤ a ∧ a ≤ 0x10) ∨ (0x18 ≤ a ∧ a ≤ 0x26) ∨ a = 0xFC ∨ a = 0xFE → v.toNat < 256) ∧
        (portWidth p = .byte → v.toNat < 256) ∧
        (portWidth p = .byte → a % 2 = 0 →
          (0x08 ≤ a ∧ a ≤ 0x10) ∨ (0x18 ≤ a ∧ a ≤ 0x26) ∨ a = 0xFC ∨ a = 0xFE → v = 0)

/-- 46_io.md R171, 20_memory.md R50, R51, R56, R62, 60_exceptions.md R232 (decisions D24, D28, D29; logs 15, 21, 22, 40): OUT in
privileged mode records one write; a word to F4h or F6h sets a limit register; the byte +1 of 1Ch sets M and VVVV of the
extension-port-high register; an OUT to 10h to 17h lets the micro-SD controller at memory; nothing else changes. -/
def Obligations.OutPresentsRd : Prop :=
  ∀ (s : State) (rd : Reg) (p : Port) (a : Nat),
    s.flags.p = true → a = (portAddr s p).toNat → a ≤ 0xFF → (portWidth p = .word → a % 2 = 0) →
    (portWidth p = .byte → a < 0xF4 ∨ 0xF7 < a) →
    ∃ v : Word,
      exec (.outp rd p) s =
          .next { s with
                  mplow := if a = 0xF4 then s.reg rd else s.mplow
                  mphigh := if a = 0xF6 then s.reg rd else s.mphigh
                  extPortHi :=
                    if (portWidth p = .word ∧ a = 0x1C) ∨ (portWidth p = .byte ∧ a = 0x1D) then
                      { m := (s.reg rd).getLsbD 7, v := (s.reg rd).extractLsb' 0 4 }
                    else s.extPortHi
                  sdArmed := s.sdArmed || (decide (0x10 ≤ a) && decide (a ≤ 0x17))
                  ioLog := .write (BitVec.ofNat 8 a) (portWidth p) v :: s.ioLog
                  pc := s.pc + BitVec.ofNat 16 (2 * p.words) } ∧
        (portWidth p = .word → v = s.reg rd) ∧ (portWidth p = .byte → v.toNat = (s.reg rd).toNat % 256)

/-! ## Stack and returns -/

/-- 47_stack_return.md R180 (decisions D14, D34; logs 9, 34): PUSH writes Rd below the stack pointer P selects; where Rd is
that stack pointer, the value pushed is free. -/
def Obligations.PushStoresBelowSp : Prop :=
  ∀ (s : State) (rd : Reg), Permitted s (s.reg .sp - 2) 2 → Writable (s.reg .sp - 2) 2 →
    ∃ (t : State) (v : Word), exec (.push rd) s = .next t ∧
      t = { s.setReg .sp (s.reg .sp - 2) with mem := t.mem, pc := s.pc + 2 } ∧
      SameMemoryOutside s t (s.reg .sp - 2).toNat 2 ∧
      (Keeps (s.reg .sp - 2) 2 → HoldsWord t (s.reg .sp - 2) (highByte v) (lowByte v)) ∧
      (rd ≠ .sp → (rd ≠ .usp ∨ s.flags.p = true) → v = s.reg rd)

/-- 47_stack_return.md R181 (decisions D14, D34; logs 9, 34): POP reads the word at the stack pointer P selects into Rd and
moves that stack pointer up by 2; where Rd is that stack pointer, its final value is free. -/
def Obligations.PopLoadsFromSp : Prop :=
  ∀ (s : State) (rd : Reg) (w : Word), readWord s (s.reg .sp) = .ok w →
    ∃ v : Word,
      exec (.pop rd) s = .next { (s.setReg .sp (s.reg .sp + 2)).setReg rd v with pc := s.pc + 2 } ∧
        (rd ≠ .sp → (rd ≠ .usp ∨ s.flags.p = true) → v = w)

/-- 47_stack_return.md R182, 60_exceptions.md R221: RET pops the program counter, unchecked (decision D14, log 34); an exception
of the stack access is raised with `pc_next` to save (decision D20, log 12): its trap entry, or the end of the run where
the state says so (R204, log 13). -/
def Obligations.RetPopsThePc : Prop :=
  encode .ret = [0xD000] ∧ cost .ret = .states 6 ∧
    ∀ s : State,
      (∀ w, readWord s (s.reg .sp) = .ok w →
        exec .ret s = .next { s.setReg .sp (s.reg .sp + 2) with pc := w }) ∧
      (∀ e, readWord s (s.reg .sp) = .error (.trap e) → exec .ret s = raise e (s.pc + 2) s)

/-- 47_stack_return.md R183 (decisions D17, D18, D23; logs 27, 32, 33): RETI in privileged mode pops FLAG, then PC, from the
system stack, whatever the new P is; in user mode it has no meaning. -/
def Obligations.RetiPopsFlagAndPc : Prop :=
  ∀ s : State,
    (∀ f w, s.flags.p = true → readWord s s.ssp = .ok f → readWord s (s.ssp + 2) = .ok w →
      ∃ fl : Flags, exec .reti s = .next { s with ssp := s.ssp + 4, flags := fl, pc := w } ∧
        fl.toWord = f &&& 0x00CF) ∧
    (s.flags.p = false → exec .reti s = .refused .retiInUserMode)

/-! ## System -/

/-- 48_system.md R190 (decisions D21, D22; logs 14, 19): EI in privileged mode sets E alone, in force from the next boundary:
a single request is then accepted at once. -/
def Obligations.EiEnablesInterrupts : Prop :=
  ∀ s : State, s.flags.p = true →
    ∃ t, exec .ei s = .next t ∧ t = { s with flags := { s.flags with e := true }, pc := s.pc + 2 } ∧
      ∀ (n : Fin 10) (x : BoundaryInput) (rest : List BoundaryInput), s.inputs = x :: rest → x.irq = 1#10 <<< n.val →
        acceptedIrq t = some n

/-- 48_system.md R191: DI in privileged mode clears E alone, and no interrupt is accepted at the boundary after it; in user
mode it raises PrivilegeViolation. -/
def Obligations.DiDisablesInterrupts : Prop :=
  encode .di = [0xE400] ∧ cost .di = .states 5 ∧
    ∀ s : State,
      (s.flags.p = true →
        ∃ t, exec .di s = .next t ∧ t = { s with flags := { s.flags with e := false }, pc := s.pc + 2 } ∧
          acceptedIrq t = none) ∧
      (s.flags.p = false → exec .di s = raise .privilegeViolation (s.pc + 2) s)

/-- 48_system.md R192 (decisions D19, D20; logs 12, 33): SVC takes the trap of vector 15 in either mode, saving the address of
the next instruction. -/
def Obligations.SvcTrapsThroughVector15 : Prop :=
  ∀ (s : State) (hi lo : Byte), TrapReady 15 s hi lo →
    ∃ t, exec .svc s = .next t ∧ TrapTaken (s.pc + 2) hi lo s t

/-- 48_system.md R193 (decisions D22, D26; logs 14, 23): HALT in privileged mode advances the PC and halts the CPU; a halted
CPU steps no further, whatever requests. -/
def Obligations.HaltStopsTheCpu : Prop :=
  (∀ s : State, s.flags.p = true → exec .halt s = .next { s with pc := s.pc + 2, halted := true }) ∧
    ∀ s : State, s.halted = true → step s = .fault .halted

/-- 43_mul_div.md R133, R134, 20_memory.md R51, R54, 30_encoding.md R79, 10_state.md R23 (decisions D12, D15, D16, D24, D28; logs
25, 26, 28): the forms the spec gives no meaning are refused by name. -/
def Obligations.FormsWithoutMeaningAreRefused : Prop :=
  (∀ (s : State) (rd : Reg) (src : Src), rd.code.toNat % 2 = 1 ∨ rd = .usp →
    exec (.mull rd src) s = .refused .registerPair ∧ exec (.divl rd src) s = .refused .registerPair) ∧
    (∀ (s : State) (rd : Reg) (p : Port), s.flags.p = true →
      (0xFF < (portAddr s p).toNat →
        exec (.inp rd p) s = .refused .portAboveFF ∧ exec (.outp rd p) s = .refused .portAboveFF) ∧
      ((portAddr s p).toNat ≤ 0xFF → portWidth p = .word → (portAddr s p).toNat % 2 = 1 →
        exec (.inp rd p) s = .refused .oddWordPort ∧ exec (.outp rd p) s = .refused .oddWordPort) ∧
      (0xF4 ≤ (portAddr s p).toNat → (portAddr s p).toNat ≤ 0xF7 → portWidth p = .byte →
        exec (.inp rd p) s = .refused .limitPortByte ∧ exec (.outp rd p) s = .refused .limitPortByte)) ∧
    ∀ (s : State) (b0 b1 : Byte), s.halted = false → acceptedIrq s = none →
      Permitted s.boundary s.pc 2 → HoldsWord s.boundary s.pc b0 b1 →
      (decode (wordOf b0 b1) 0 = .error .reserved → step s = .refused .reservedWord) ∧
      (decode (wordOf b0 b1) 0 = .error .pcOperand → step s = .refused .pcOperand)

/-! ## The whole machine -/

/-- 10_state.md R37, 70_reset_and_hazards.md R250 (decision D25): the values that the spec gives for reset, and that no interrupt
is accepted there; the memory has its canonical form (log 1); OddAddress, LimitViolation and UndefinedInstruction end the
run (60_exceptions.md R204, 30_encoding.md R80, decisions D15 and D30, log 13). -/
def Obligations.ResetState : Prop :=
  State.reset.pc = 0xF000 ∧ State.reset.flags.p = true ∧ State.reset.flags.e = false ∧
    State.reset.halted = false ∧ MemoryFormHolds State.reset ∧ acceptedIrq State.reset = none ∧
    State.reset.runEndsAt = [.oddAddress, .limitViolation, .undefinedInstruction] ∧ ∀ a, State.reset.byteAt a = none

/-- 60_exceptions.md R225: privileged mode is left only by RETI with a stacked FLAG whose P bit is 0. -/
def Obligations.OnlyRetiLeavesPrivilegedMode : Prop :=
  ∀ s t : State, step s = .next t → s.flags.p = true → t.flags.p = false →
    acceptedIrq s = none ∧ fetchInstr s.boundary = .instr .reti ∧
      ∃ f, readWord s.boundary s.ssp = .ok f ∧ f.getLsbD 6 = false

/-- 60_exceptions.md R225: privileged mode is entered from user mode only by a trap entry. -/
def Obligations.OnlyTrapsEnterPrivilegedMode : Prop :=
  ∀ s t : State, step s = .next t → s.flags.p = false → t.flags.p = true →
    ∃ (n : Fin 16) (savedPc : Word), trapEntry n savedPc s.boundary = .next t

/-- 60_exceptions.md R225, R226, 20_memory.md R52 (decisions D22, D24; logs 14, 15): a step that begins and ends in user mode leaves
alone what belongs to the privileged program, and the program changes no byte of memory outside the limits: such a byte
is as the boundary left it, and the boundary changes none while the micro-SD controller is not at memory (log 22). -/
def Obligations.UserModeIsConfined : Prop :=
  ∀ s t : State, step s = .next t → s.flags.p = false → t.flags.p = false →
    SameSystemState s t ∧
      (∀ a, (a < s.mplow.toNat ∨ s.mphigh.toNat < a) → t.byteAt a = s.boundary.byteAt a) ∧
      (s.sdArmed = false → ∀ a, (a < s.mplow.toNat ∨ s.mphigh.toNat < a) → t.byteAt a = s.byteAt a)

/-- 10_state.md R23, 60_exceptions.md R225: in user mode SSP cannot be named: a step that begins and ends in user mode does the
same whatever SSP holds. -/
def Obligations.UserModeCannotSeeSsp : Prop :=
  ∀ (s t : State) (x : Word), step s = .next t → s.flags.p = false → t.flags.p = false →
    step { s with ssp := x } = .next { t with ssp := x }

/-- 60_exceptions.md R215, R216, R226, 47_stack_return.md R183: E rises only by EI or RETI; in privileged mode, since EI is
in PRIV_SET (decision D22, log 14) and RETI has no meaning in user mode (decision D23, log 27). -/
def Obligations.OnlyEiAndRetiEnableInterrupts : Prop :=
  ∀ s t : State, step s = .next t → s.flags.e = false → t.flags.e = true →
    s.flags.p = true ∧ (fetchInstr s.boundary = .instr .ei ∨ fetchInstr s.boundary = .instr .reti)

/-- 20_memory.md R41, R50, 60_exceptions.md R226 (decision D28, log 21): I/O accesses are recorded once each, in order, and never
dropped: the record of a run grows at its head, and a step adds at most one event, by IN or OUT; in privileged mode, since
both are in PRIV_SET (decision D22, log 14). -/
def Obligations.IoRecordOnlyGrows : Prop :=
  (∀ s t : State, Reaches s t → ∃ es, t.ioLog = es ++ s.ioLog) ∧
    ∀ s t : State, step s = .next t → t.ioLog ≠ s.ioLog →
      s.flags.p = true ∧ (∃ e, t.ioLog = e :: s.ioLog) ∧
        ∃ rd p, fetchInstr s.boundary = .instr (.inp rd p) ∨ fetchInstr s.boundary = .instr (.outp rd p)

/-- 20_memory.md R44, R48, 60_exceptions.md R202, R203, R221 (decisions D5, D20, D24; logs 11, 15): a fetch at an odd PC
raises OddAddress, and in user mode a fetch of the first or the second word outside the limits raises LimitViolation, with
some saved PC: the trap entry, or the end of the run where the state says so (R204, log 13); for the second word, of an instruction that has one and violates no privilege. -/
def Obligations.FetchExceptionsAreRaised : Prop :=
  ∀ s : State, s.halted = false → acceptedIrq s = none →
    (s.pc.toNat % 2 = 1 → ∃ savedPc, step s = raise .oddAddress savedPc s.boundary) ∧
    (s.pc.toNat % 2 = 0 → s.flags.p = false → (s.pc.toNat < s.mplow.toNat ∨ s.mphigh.toNat < s.pc.toNat + 1) →
      ∃ savedPc, step s = raise .limitViolation savedPc s.boundary) ∧
    ∀ (b0 b1 : Byte) (i : Instr), Permitted s.boundary s.pc 2 → HoldsWord s.boundary s.pc b0 b1 →
      decode (wordOf b0 b1) 0 = .ok i → instrWords i = 2 → privSet i = false → s.flags.p = false →
      ((s.pc + 2).toNat < s.mplow.toNat ∨ s.mphigh.toNat < (s.pc + 2).toNat + 1) →
      ∃ savedPc, step s = raise .limitViolation savedPc s.boundary
end

