-- ==== Sys2Proof/Laws/Decode.lean ====
section
/-! SUPPORT. The fields and bytes of a word, and the register fields: what the encoder puts in, the decoder gets out. -/

namespace Sys2Proof

/-! ## Bytes of a word -/

theorem getLsbD_wordOf (hi lo : Byte) (i : Nat) :
    (wordOf hi lo).getLsbD i = if i < 8 then lo.getLsbD i else hi.getLsbD (i - 8) :=
  (BitVec.getLsbD_append (x := hi) (y := lo)).trans (by cases h : decide (i < 8) <;> simp_all)

theorem getLsbD_firstWord (op : Byte) (rd rx : BitVec 4) (i : Nat) :
    (firstWord op rd rx).getLsbD i =
      if i < 4 then rx.getLsbD i else if i < 8 then rd.getLsbD (i - 4) else op.getLsbD (i - 8) := by
  refine (BitVec.getLsbD_append (x := op ++ rd) (y := rx)).trans ?_
  by_cases h : i < 4
  · simp [h]
  · have e : i - 4 - 4 = i - 8 := by omega
    have e' : i - 4 < 4 ↔ i < 8 := by omega
    rw [BitVec.getLsbD_append, e]
    by_cases h8 : i < 8 <;> simp [h, h8, e']

@[simp] theorem wordOf_bytes (w : Word) : wordOf (highByte w) (lowByte w) = w := by
  apply BitVec.eq_of_getLsbD_eq
  intro i hi
  rw [getLsbD_wordOf]
  by_cases h : i < 8
  · simp [lowByte, h]
  · have h1 : i - 8 < 8 := by omega
    have h2 : 8 + (i - 8) = i := by omega
    simp [highByte, h, h1, h2]

@[simp] theorem highByte_wordOf (hi lo : Byte) : highByte (wordOf hi lo) = hi := by
  apply BitVec.eq_of_getLsbD_eq
  intro i h
  rw [highByte, BitVec.getLsbD_extractLsb', getLsbD_wordOf]
  simp [h]

@[simp] theorem lowByte_wordOf (hi lo : Byte) : lowByte (wordOf hi lo) = lo := by
  apply BitVec.eq_of_getLsbD_eq
  intro i h
  rw [lowByte, BitVec.getLsbD_extractLsb', getLsbD_wordOf]
  simp [h]

/-! ## Fields of the first word (30_encoding.md rule R70) -/

@[simp] theorem opField_firstWord (op : Byte) (rd rx : BitVec 4) : opField (firstWord op rd rx) = op := by
  apply BitVec.eq_of_getLsbD_eq
  intro i h
  have h1 : ¬ (8 + i < 4) := by omega
  rw [opField, BitVec.getLsbD_extractLsb', getLsbD_firstWord]
  simp [h, h1]

@[simp] theorem rdField_firstWord (op : Byte) (rd rx : BitVec 4) : rdField (firstWord op rd rx) = rd := by
  apply BitVec.eq_of_getLsbD_eq
  intro i h
  have h1 : 4 + i < 8 := by omega
  rw [rdField, BitVec.getLsbD_extractLsb', getLsbD_firstWord]
  simp [h, h1]

@[simp] theorem rxField_firstWord (op : Byte) (rd rx : BitVec 4) : rxField (firstWord op rd rx) = rx := by
  apply BitVec.eq_of_getLsbD_eq
  intro i h
  rw [rxField, BitVec.getLsbD_extractLsb', getLsbD_firstWord]
  simp [h]

/-- A first word is its three fields. -/
theorem firstWord_fields (w : Word) : firstWord (opField w) (rdField w) (rxField w) = w := by
  apply BitVec.eq_of_getLsbD_eq
  intro i hi
  simp only [getLsbD_firstWord, opField, rdField, rxField, BitVec.getLsbD_extractLsb']
  by_cases h : i < 4
  · simp [h]
  · by_cases h' : i < 8
    · have h1 : i - 4 < 4 := by omega
      have e : 4 + (i - 4) = i := by omega
      simp [h, h', h1, e]
    · have h1 : i - 8 < 8 := by omega
      have e : 8 + (i - 8) = i := by omega
      simp [h, h', h1, e]

/-! ## Register fields (10_state.md rule R23) -/

@[simp] theorem regOfField_code (r : Reg) : regOfField r.code = .ok r := by
  cases r with
  | g k => revert k; decide
  | sp => decide
  | usp => decide

/-- The decoder's register has the field it was read from. -/
theorem code_of_regOfField {f : BitVec 4} {r : Reg} (h : regOfField f = .ok r) : r.code = f := by
  have key : ∀ f : BitVec 4, (match regOfField f with | .ok q => decide (q.code = f) | .error _ => true) = true := by
    decide
  have := key f
  rw [h] at this
  exact of_decide_eq_true this

@[simp] theorem zeroField_zero : zeroField 0 = .ok () := rfl

theorem zeroField_eq_ok {f : BitVec 4} {u : Unit} : zeroField f = .ok u ↔ f = 0 := by
  unfold zeroField
  split <;> simp_all

end Sys2Proof
end

