-- ==== Sys2Proof/Laws/Flags.lean ====
section
/-! SUPPORT. The FLAG word and the structure of its six bits (10_state.md rules R26, R27). -/

namespace Sys2Proof.Machine

/-- FLAG read as a word and written back is unchanged (rule R27). -/
@[simp] theorem Flags.ofWord_toWord (f : Flags) : Flags.ofWord f.toWord = f := by
  obtain ⟨e, p, v, c, s, z⟩ := f
  revert e p v c s z
  decide

/-- The result flags of class RESULT that the manual fixes (rule R33). -/
@[simp] theorem resultFlags_s (k : Nat) (op : OpenOp) (a b r : Word) : (resultFlags k op a b r).s = r.msb := rfl
@[simp] theorem resultFlags_z (k : Nat) (op : OpenOp) (a b r : Word) : (resultFlags k op a b r).z = (r == 0) := rfl

end Sys2Proof.Machine
end

