-- ==== Sys2Proof/Laws/Memory.lean ====
section
/-! SUPPORT. The laws of memory: a byte reads as last written, a write leaves every other byte, and every operation
keeps the canonical form. -/

namespace Sys2Proof.Machine

/-! ## Reading after writing -/

@[simp] theorem Memory.get_put_self (m : List Host.Cell) (a : Nat) (b : Byte) :
    Memory.get (Memory.put m a b) a = some b := by
  induction m with
  | nil => simp [Memory.put, Memory.get]
  | cons x m ih =>
    obtain ⟨k, v⟩ := x
    simp only [Memory.put]
    split
    · simp [Memory.get]
    · split
      · simp [Memory.get]
      · rename_i h1 h2
        simp [Memory.get, ih, Ne.symm h2]

theorem Memory.get_put_ne (m : List Host.Cell) {a a' : Nat} (b : Byte) (h : a' ≠ a) :
    Memory.get (Memory.put m a b) a' = Memory.get m a' := by
  induction m with
  | nil => simp [Memory.put, Memory.get, Ne.symm h]
  | cons x m ih =>
    obtain ⟨k, v⟩ := x
    simp only [Memory.put]
    split
    · simp [Memory.get, Ne.symm h]
    · split
      · rename_i h1 h2
        subst h2
        simp [Memory.get, Ne.symm h]
      · simp [Memory.get, ih]

@[simp] theorem Memory.get_del_self (m : List Host.Cell) (a : Nat) : Memory.get (Memory.del m a) a = none := by
  induction m with
  | nil => rfl
  | cons x m ih =>
    obtain ⟨k, v⟩ := x
    simp only [Memory.del]
    split
    · exact ih
    · rename_i h
      simp [Memory.get, ih, h]

theorem Memory.get_del_ne (m : List Host.Cell) {a a' : Nat} (h : a' ≠ a) :
    Memory.get (Memory.del m a) a' = Memory.get m a' := by
  induction m with
  | nil => rfl
  | cons x m ih =>
    obtain ⟨k, v⟩ := x
    simp only [Memory.del]
    split
    · rename_i h1
      subst h1
      simp [Memory.get, ih, Ne.symm h]
    · simp [Memory.get, ih]

/-- A byte that keeps what is written to it reads as last written (20_memory.md rules R45, R46). -/
theorem Memory.read_write_self (m : List Host.Cell) (a : Nat) (b : Byte) (h : region a ≠ .attr) :
    Memory.read (Memory.write m a b) a = some b := by
  unfold Memory.write
  rw [if_neg h]
  by_cases hu : Memory.unlisted a = some b
  · rw [if_pos hu]
    simp [Memory.read, hu]
  · rw [if_neg hu]
    simp [Memory.read]

/-- A write leaves every other byte alone (rule R46). -/
theorem Memory.read_write_ne (m : List Host.Cell) {a a' : Nat} (b : Byte) (h : a' ≠ a) :
    Memory.read (Memory.write m a b) a' = Memory.read m a' := by
  unfold Memory.write
  split
  · rfl
  · split
    · simp [Memory.read, Memory.get_del_ne m h]
    · simp [Memory.read, Memory.get_put_ne m b h]

/-- A write to a reserved attribute byte keeps nothing (rule R46). -/
theorem Memory.write_attribute (m : List Host.Cell) {a : Nat} (b : Byte) (h : region a = .attr) :
    Memory.write m a b = m := by
  simp [Memory.write, h]

/-! ## The canonical form -/

theorem Memory.rising_mono {lo lo' : Nat} (m : List Host.Cell) (h : lo' ≤ lo) (hm : Memory.rising lo m = true) :
    Memory.rising lo' m = true := by
  cases m with
  | nil => rfl
  | cons x m =>
    obtain ⟨k, v⟩ := x
    simp only [Memory.rising, Bool.and_eq_true, decide_eq_true_eq] at hm ⊢
    exact ⟨by omega, hm.2⟩

theorem Memory.rising_put {lo : Nat} (m : List Host.Cell) (a : Nat) (b : Byte) (h : lo ≤ a)
    (hm : Memory.rising lo m = true) : Memory.rising lo (Memory.put m a b) = true := by
  induction m generalizing lo with
  | nil => simp [Memory.put, Memory.rising, h]
  | cons x m ih =>
    obtain ⟨k, v⟩ := x
    simp only [Memory.rising, Bool.and_eq_true, decide_eq_true_eq] at hm
    simp only [Memory.put]
    split
    · rename_i h1
      simp only [Memory.rising, Bool.and_eq_true, decide_eq_true_eq]
      exact ⟨h, by omega, hm.2⟩
    · split
      · rename_i h2
        subst h2
        simp only [Memory.rising, Bool.and_eq_true, decide_eq_true_eq]
        exact hm
      · simp only [Memory.rising, Bool.and_eq_true, decide_eq_true_eq]
        exact ⟨hm.1, ih (by omega) hm.2⟩

theorem Memory.rising_del {lo : Nat} (m : List Host.Cell) (a : Nat) (hm : Memory.rising lo m = true) :
    Memory.rising lo (Memory.del m a) = true := by
  induction m generalizing lo with
  | nil => rfl
  | cons x m ih =>
    obtain ⟨k, v⟩ := x
    simp only [Memory.rising, Bool.and_eq_true, decide_eq_true_eq] at hm
    simp only [Memory.del]
    split
    · exact Memory.rising_mono _ (by omega) (ih hm.2)
    · simp only [Memory.rising, Bool.and_eq_true, decide_eq_true_eq]
      exact ⟨hm.1, ih hm.2⟩

theorem Memory.all_put (p : Host.Cell → Bool) (m : List Host.Cell) (a : Nat) (b : Byte) (hx : p (a, b) = true)
    (hm : m.all p = true) : (Memory.put m a b).all p = true := by
  induction m with
  | nil => simp [Memory.put, hx]
  | cons x m ih =>
    obtain ⟨k, v⟩ := x
    simp only [List.all_cons, Bool.and_eq_true] at hm
    simp only [Memory.put]
    split
    · simp [hx, hm.1, hm.2]
    · split
      · simp [hx, hm.2]
      · simp [hm.1, ih hm.2]

theorem Memory.all_del (p : Host.Cell → Bool) (m : List Host.Cell) (a : Nat) (hm : m.all p = true) :
    (Memory.del m a).all p = true := by
  induction m with
  | nil => rfl
  | cons x m ih =>
    obtain ⟨k, v⟩ := x
    simp only [List.all_cons, Bool.and_eq_true] at hm
    simp only [Memory.del]
    split
    · exact ih hm.2
    · simp [hm.1, ih hm.2]

/-- A write to an address of the space keeps the canonical form. -/
theorem Memory.wf_write (m : List Host.Cell) (a : Nat) (b : Byte) (ha : a < 0x10000) (hm : Memory.wf m = true) :
    Memory.wf (Memory.write m a b) = true := by
  simp only [Memory.wf, Bool.and_eq_true] at hm
  unfold Memory.write
  split
  · simp [Memory.wf, hm.1, hm.2]
  · rename_i hr
    split
    · simp [Memory.wf, Memory.rising_del _ a hm.1, Memory.all_del _ _ a hm.2]
    · rename_i hu
      have hx : Memory.cellOk (a, b) = true := by simp [Memory.cellOk, ha, hr, hu]
      simp [Memory.wf, Memory.rising_put _ a b (Nat.zero_le a) hm.1, Memory.all_put _ _ a b hx hm.2]

theorem isRam_lt {a : Nat} (h : isRam a = true) : a < 0x10000 := by
  unfold isRam at h
  split at h <;> simp_all

/-- The micro-SD controller's writes keep the canonical form. -/
theorem Memory.wf_writeRam (m xs : List Host.Cell) (hm : Memory.wf m = true) :
    Memory.wf (Memory.writeRam m xs) = true := by
  induction xs generalizing m with
  | nil => exact hm
  | cons x xs ih =>
    simp only [Memory.writeRam]
    apply ih
    split
    · rename_i h
      exact Memory.wf_write m x.1 x.2 (isRam_lt h) hm
    · exact hm

/-- The micro-SD controller's writes leave every byte that is not RAM. -/
theorem Memory.read_writeRam (m xs : List Host.Cell) (a : Nat) (h : isRam a = false) :
    Memory.read (Memory.writeRam m xs) a = Memory.read m a := by
  induction xs generalizing m with
  | nil => rfl
  | cons x xs ih =>
    simp only [Memory.writeRam, ih]
    split
    · rename_i hx
      exact Memory.read_write_ne m x.2 (fun e => by rw [e, hx] at h; exact absurd h (by decide))
    · rfl

theorem Memory.wf_nil : Memory.wf [] = true := rfl

end Sys2Proof.Machine
end

