-- ==== Sys2Proof/Laws/Params.lean ====
section
/-! SUPPORT. What the operations that read a parameter do at its default (00_scope.md rule R5): cite these instead of
unfolding `params`. -/

namespace Sys2Proof

/-! ## BYTE_ORDER -/

theorem wordOf_eq (b0 b1 : Byte) : wordOf b0 b1 = b0 ++ b1 := rfl
@[simp] theorem evenByte_eq (w : Word) : evenByte w = highByte w := rfl
@[simp] theorem oddByte_eq (w : Word) : oddByte w = lowByte w := rfl

namespace Machine

/-! ## MEMPROT, PRIV_SET, EXC_SAVED_PC and HALT_WAKE -/

/-- The limits bind in user mode only, and both are inclusive (20_memory.md rule R52). -/
theorem admits_iff {s : State} {a : Word} {n : Nat} :
    admits s a n = true ↔
      s.flags.p = true ∨ (s.mplow.toNat ≤ a.toNat ∧ a.toNat + n - 1 ≤ s.mphigh.toNat) := by
  show userLimits s.flags.p s.mplow s.mphigh a n = true ↔ _
  simp [userLimits]

theorem violates_eq (i : Instr) (s : State) : violates i s = (privSet i && !s.flags.p) := rfl
@[simp] theorem excSavedPc_eq (s : State) (n : Nat) : excSavedPc s n = nextPc s n := rfl
@[simp] theorem stillHalted_eq (s : State) : stillHalted s = s.halted := rfl
@[simp] theorem haltedStep_eq (s : State) : haltedStep s = .fault .halted := rfl

/-! ## MULDIV_SIGNED -/

theorem mulDiv_eq : mulDiv = unsignedUnit := rfl

/-- The unit of the machine has the property that the claims about the five instructions rely on (43_mul_div.md rule
R135). -/
theorem mulDiv_isUnsigned : IsUnsigned mulDiv := by
  rw [mulDiv_eq]
  refine ⟨fun a b => BitVec.toNat_mul a b, fun a b => ?_, fun a b => rfl, fun a b => ?_, fun hi lo b => rfl⟩
  · exact ⟨_, rfl, rfl⟩
  · have h : a.toNat * b.toNat < 2 ^ 32 :=
      Nat.lt_of_le_of_lt (Nat.mul_le_mul (Nat.le_of_lt_succ a.isLt) (Nat.le_of_lt_succ b.isLt)) (by decide)
    exact Nat.mod_eq_of_lt h

/-- The two halves of a product. -/
theorem halves_toNat (p : BitVec 32) :
    (p.extractLsb' 16 16).toNat * 65536 + (p.extractLsb' 0 16).toNat = p.toNat := by
  have h := p.isLt
  simp only [BitVec.extractLsb'_toNat, Nat.shiftRight_eq_div_pow]
  omega

end Machine
end Sys2Proof
end

