-- ==== Sys2Proof/Laws/State.lean ====
section
/-! SUPPORT. What each named update of the state does to each field: one lemma for each field of each update. -/

namespace Sys2Proof.Machine

/-! ## Flags -/

@[simp] theorem Flags.setVcsz_e (f : Flags) (r : Vcsz) : (f.setVcsz r).e = f.e := rfl
@[simp] theorem Flags.setVcsz_p (f : Flags) (r : Vcsz) : (f.setVcsz r).p = f.p := rfl
@[simp] theorem Flags.setVcsz_v (f : Flags) (r : Vcsz) : (f.setVcsz r).v = r.v := rfl
@[simp] theorem Flags.setVcsz_c (f : Flags) (r : Vcsz) : (f.setVcsz r).c = r.c := rfl
@[simp] theorem Flags.setVcsz_s (f : Flags) (r : Vcsz) : (f.setVcsz r).s = r.s := rfl
@[simp] theorem Flags.setVcsz_z (f : Flags) (r : Vcsz) : (f.setVcsz r).z = r.z := rfl

/-! ## setPc -/

@[simp] theorem State.setPc_gpr (s : State) (v : Word) : (s.setPc v).gpr = s.gpr := rfl
@[simp] theorem State.setPc_ssp (s : State) (v : Word) : (s.setPc v).ssp = s.ssp := rfl
@[simp] theorem State.setPc_usp (s : State) (v : Word) : (s.setPc v).usp = s.usp := rfl
@[simp] theorem State.setPc_pc (s : State) (v : Word) : (s.setPc v).pc = v := rfl
@[simp] theorem State.setPc_flags (s : State) (v : Word) : (s.setPc v).flags = s.flags := rfl
@[simp] theorem State.setPc_halted (s : State) (v : Word) : (s.setPc v).halted = s.halted := rfl
@[simp] theorem State.setPc_mplow (s : State) (v : Word) : (s.setPc v).mplow = s.mplow := rfl
@[simp] theorem State.setPc_mphigh (s : State) (v : Word) : (s.setPc v).mphigh = s.mphigh := rfl
@[simp] theorem State.setPc_extPortHi (s : State) (v : Word) : (s.setPc v).extPortHi = s.extPortHi := rfl
@[simp] theorem State.setPc_mem (s : State) (v : Word) : (s.setPc v).mem = s.mem := rfl
@[simp] theorem State.setPc_ioLog (s : State) (v : Word) : (s.setPc v).ioLog = s.ioLog := rfl
@[simp] theorem State.setPc_sdArmed (s : State) (v : Word) : (s.setPc v).sdArmed = s.sdArmed := rfl
@[simp] theorem State.setPc_inputs (s : State) (v : Word) : (s.setPc v).inputs = s.inputs := rfl
@[simp] theorem State.setPc_runEndsAt (s : State) (v : Word) : (s.setPc v).runEndsAt = s.runEndsAt := rfl
@[simp] theorem State.setPc_draws (s : State) (v : Word) : (s.setPc v).draws = s.draws := rfl

/-! ## setVcsz -/

@[simp] theorem State.setVcsz_gpr (s : State) (r : Vcsz) : (s.setVcsz r).gpr = s.gpr := rfl
@[simp] theorem State.setVcsz_ssp (s : State) (r : Vcsz) : (s.setVcsz r).ssp = s.ssp := rfl
@[simp] theorem State.setVcsz_usp (s : State) (r : Vcsz) : (s.setVcsz r).usp = s.usp := rfl
@[simp] theorem State.setVcsz_pc (s : State) (r : Vcsz) : (s.setVcsz r).pc = s.pc := rfl
@[simp] theorem State.setVcsz_flags (s : State) (r : Vcsz) : (s.setVcsz r).flags = s.flags.setVcsz r := rfl
@[simp] theorem State.setVcsz_halted (s : State) (r : Vcsz) : (s.setVcsz r).halted = s.halted := rfl
@[simp] theorem State.setVcsz_mplow (s : State) (r : Vcsz) : (s.setVcsz r).mplow = s.mplow := rfl
@[simp] theorem State.setVcsz_mphigh (s : State) (r : Vcsz) : (s.setVcsz r).mphigh = s.mphigh := rfl
@[simp] theorem State.setVcsz_extPortHi (s : State) (r : Vcsz) : (s.setVcsz r).extPortHi = s.extPortHi := rfl
@[simp] theorem State.setVcsz_mem (s : State) (r : Vcsz) : (s.setVcsz r).mem = s.mem := rfl
@[simp] theorem State.setVcsz_ioLog (s : State) (r : Vcsz) : (s.setVcsz r).ioLog = s.ioLog := rfl
@[simp] theorem State.setVcsz_sdArmed (s : State) (r : Vcsz) : (s.setVcsz r).sdArmed = s.sdArmed := rfl
@[simp] theorem State.setVcsz_inputs (s : State) (r : Vcsz) : (s.setVcsz r).inputs = s.inputs := rfl
@[simp] theorem State.setVcsz_runEndsAt (s : State) (r : Vcsz) : (s.setVcsz r).runEndsAt = s.runEndsAt := rfl
@[simp] theorem State.setVcsz_draws (s : State) (r : Vcsz) : (s.setVcsz r).draws = s.draws := rfl

/-! ## setE -/

@[simp] theorem State.setE_gpr (s : State) (b : Bool) : (s.setE b).gpr = s.gpr := rfl
@[simp] theorem State.setE_ssp (s : State) (b : Bool) : (s.setE b).ssp = s.ssp := rfl
@[simp] theorem State.setE_usp (s : State) (b : Bool) : (s.setE b).usp = s.usp := rfl
@[simp] theorem State.setE_pc (s : State) (b : Bool) : (s.setE b).pc = s.pc := rfl
@[simp] theorem State.setE_flags (s : State) (b : Bool) : (s.setE b).flags = { s.flags with e := b } := rfl
@[simp] theorem State.setE_halted (s : State) (b : Bool) : (s.setE b).halted = s.halted := rfl
@[simp] theorem State.setE_mplow (s : State) (b : Bool) : (s.setE b).mplow = s.mplow := rfl
@[simp] theorem State.setE_mphigh (s : State) (b : Bool) : (s.setE b).mphigh = s.mphigh := rfl
@[simp] theorem State.setE_extPortHi (s : State) (b : Bool) : (s.setE b).extPortHi = s.extPortHi := rfl
@[simp] theorem State.setE_mem (s : State) (b : Bool) : (s.setE b).mem = s.mem := rfl
@[simp] theorem State.setE_ioLog (s : State) (b : Bool) : (s.setE b).ioLog = s.ioLog := rfl
@[simp] theorem State.setE_sdArmed (s : State) (b : Bool) : (s.setE b).sdArmed = s.sdArmed := rfl
@[simp] theorem State.setE_inputs (s : State) (b : Bool) : (s.setE b).inputs = s.inputs := rfl
@[simp] theorem State.setE_runEndsAt (s : State) (b : Bool) : (s.setE b).runEndsAt = s.runEndsAt := rfl
@[simp] theorem State.setE_draws (s : State) (b : Bool) : (s.setE b).draws = s.draws := rfl

/-! ## storeByte -/

@[simp] theorem State.storeByte_gpr (s : State) (a : Nat) (b : Byte) : (s.storeByte a b).gpr = s.gpr := rfl
@[simp] theorem State.storeByte_ssp (s : State) (a : Nat) (b : Byte) : (s.storeByte a b).ssp = s.ssp := rfl
@[simp] theorem State.storeByte_usp (s : State) (a : Nat) (b : Byte) : (s.storeByte a b).usp = s.usp := rfl
@[simp] theorem State.storeByte_pc (s : State) (a : Nat) (b : Byte) : (s.storeByte a b).pc = s.pc := rfl
@[simp] theorem State.storeByte_flags (s : State) (a : Nat) (b : Byte) : (s.storeByte a b).flags = s.flags := rfl
@[simp] theorem State.storeByte_halted (s : State) (a : Nat) (b : Byte) : (s.storeByte a b).halted = s.halted := rfl
@[simp] theorem State.storeByte_mplow (s : State) (a : Nat) (b : Byte) : (s.storeByte a b).mplow = s.mplow := rfl
@[simp] theorem State.storeByte_mphigh (s : State) (a : Nat) (b : Byte) : (s.storeByte a b).mphigh = s.mphigh := rfl
@[simp] theorem State.storeByte_extPortHi (s : State) (a : Nat) (b : Byte) : (s.storeByte a b).extPortHi = s.extPortHi := rfl
@[simp] theorem State.storeByte_mem (s : State) (a : Nat) (b : Byte) : (s.storeByte a b).mem = Memory.write s.mem a b := rfl
@[simp] theorem State.storeByte_ioLog (s : State) (a : Nat) (b : Byte) : (s.storeByte a b).ioLog = s.ioLog := rfl
@[simp] theorem State.storeByte_sdArmed (s : State) (a : Nat) (b : Byte) : (s.storeByte a b).sdArmed = s.sdArmed := rfl
@[simp] theorem State.storeByte_inputs (s : State) (a : Nat) (b : Byte) : (s.storeByte a b).inputs = s.inputs := rfl
@[simp] theorem State.storeByte_runEndsAt (s : State) (a : Nat) (b : Byte) : (s.storeByte a b).runEndsAt = s.runEndsAt := rfl
@[simp] theorem State.storeByte_draws (s : State) (a : Nat) (b : Byte) : (s.storeByte a b).draws = s.draws := rfl

/-! ## enterPrivileged -/

@[simp] theorem State.enterPrivileged_gpr (s : State) : (s.enterPrivileged).gpr = s.gpr := rfl
@[simp] theorem State.enterPrivileged_ssp (s : State) : (s.enterPrivileged).ssp = s.ssp := rfl
@[simp] theorem State.enterPrivileged_usp (s : State) : (s.enterPrivileged).usp = s.usp := rfl
@[simp] theorem State.enterPrivileged_pc (s : State) : (s.enterPrivileged).pc = s.pc := rfl
@[simp] theorem State.enterPrivileged_flags (s : State) : (s.enterPrivileged).flags = { s.flags with p := true, e := false } := rfl
@[simp] theorem State.enterPrivileged_halted (s : State) : (s.enterPrivileged).halted = s.halted := rfl
@[simp] theorem State.enterPrivileged_mplow (s : State) : (s.enterPrivileged).mplow = s.mplow := rfl
@[simp] theorem State.enterPrivileged_mphigh (s : State) : (s.enterPrivileged).mphigh = s.mphigh := rfl
@[simp] theorem State.enterPrivileged_extPortHi (s : State) : (s.enterPrivileged).extPortHi = s.extPortHi := rfl
@[simp] theorem State.enterPrivileged_mem (s : State) : (s.enterPrivileged).mem = s.mem := rfl
@[simp] theorem State.enterPrivileged_ioLog (s : State) : (s.enterPrivileged).ioLog = s.ioLog := rfl
@[simp] theorem State.enterPrivileged_sdArmed (s : State) : (s.enterPrivileged).sdArmed = s.sdArmed := rfl
@[simp] theorem State.enterPrivileged_inputs (s : State) : (s.enterPrivileged).inputs = s.inputs := rfl
@[simp] theorem State.enterPrivileged_runEndsAt (s : State) : (s.enterPrivileged).runEndsAt = s.runEndsAt := rfl
@[simp] theorem State.enterPrivileged_draws (s : State) : (s.enterPrivileged).draws = s.draws := rfl

/-! ## logIo -/

@[simp] theorem State.logIo_gpr (s : State) (e : IoEvent) : (s.logIo e).gpr = s.gpr := rfl
@[simp] theorem State.logIo_ssp (s : State) (e : IoEvent) : (s.logIo e).ssp = s.ssp := rfl
@[simp] theorem State.logIo_usp (s : State) (e : IoEvent) : (s.logIo e).usp = s.usp := rfl
@[simp] theorem State.logIo_pc (s : State) (e : IoEvent) : (s.logIo e).pc = s.pc := rfl
@[simp] theorem State.logIo_flags (s : State) (e : IoEvent) : (s.logIo e).flags = s.flags := rfl
@[simp] theorem State.logIo_halted (s : State) (e : IoEvent) : (s.logIo e).halted = s.halted := rfl
@[simp] theorem State.logIo_mplow (s : State) (e : IoEvent) : (s.logIo e).mplow = s.mplow := rfl
@[simp] theorem State.logIo_mphigh (s : State) (e : IoEvent) : (s.logIo e).mphigh = s.mphigh := rfl
@[simp] theorem State.logIo_extPortHi (s : State) (e : IoEvent) : (s.logIo e).extPortHi = s.extPortHi := rfl
@[simp] theorem State.logIo_mem (s : State) (e : IoEvent) : (s.logIo e).mem = s.mem := rfl
@[simp] theorem State.logIo_ioLog (s : State) (e : IoEvent) : (s.logIo e).ioLog = e :: s.ioLog := rfl
@[simp] theorem State.logIo_sdArmed (s : State) (e : IoEvent) : (s.logIo e).sdArmed = s.sdArmed := rfl
@[simp] theorem State.logIo_inputs (s : State) (e : IoEvent) : (s.logIo e).inputs = s.inputs := rfl
@[simp] theorem State.logIo_runEndsAt (s : State) (e : IoEvent) : (s.logIo e).runEndsAt = s.runEndsAt := rfl
@[simp] theorem State.logIo_draws (s : State) (e : IoEvent) : (s.logIo e).draws = s.draws := rfl

/-! ## ioEffect -/

@[simp] theorem ioEffect_gpr (s : State) (p : Byte) (w : Width) (v : Word) : (ioEffect s p w v).gpr = s.gpr := rfl
@[simp] theorem ioEffect_ssp (s : State) (p : Byte) (w : Width) (v : Word) : (ioEffect s p w v).ssp = s.ssp := rfl
@[simp] theorem ioEffect_usp (s : State) (p : Byte) (w : Width) (v : Word) : (ioEffect s p w v).usp = s.usp := rfl
@[simp] theorem ioEffect_pc (s : State) (p : Byte) (w : Width) (v : Word) : (ioEffect s p w v).pc = s.pc := rfl
@[simp] theorem ioEffect_flags (s : State) (p : Byte) (w : Width) (v : Word) : (ioEffect s p w v).flags = s.flags := rfl
@[simp] theorem ioEffect_halted (s : State) (p : Byte) (w : Width) (v : Word) : (ioEffect s p w v).halted = s.halted := rfl
@[simp] theorem ioEffect_mem (s : State) (p : Byte) (w : Width) (v : Word) : (ioEffect s p w v).mem = s.mem := rfl
@[simp] theorem ioEffect_ioLog (s : State) (p : Byte) (w : Width) (v : Word) : (ioEffect s p w v).ioLog = s.ioLog := rfl
@[simp] theorem ioEffect_inputs (s : State) (p : Byte) (w : Width) (v : Word) : (ioEffect s p w v).inputs = s.inputs := rfl
@[simp] theorem ioEffect_runEndsAt (s : State) (p : Byte) (w : Width) (v : Word) : (ioEffect s p w v).runEndsAt = s.runEndsAt := rfl
@[simp] theorem ioEffect_draws (s : State) (p : Byte) (w : Width) (v : Word) : (ioEffect s p w v).draws = s.draws := rfl
@[simp] theorem ioEffect_mplow (s : State) (p : Byte) (w : Width) (v : Word) :
    (ioEffect s p w v).mplow = if p = 0xF4 then v else s.mplow := rfl
@[simp] theorem ioEffect_mphigh (s : State) (p : Byte) (w : Width) (v : Word) :
    (ioEffect s p w v).mphigh = if p = 0xF6 then v else s.mphigh := rfl
@[simp] theorem ioEffect_extPortHi (s : State) (p : Byte) (w : Width) (v : Word) :
    (ioEffect s p w v).extPortHi = ((extPortByte p w v).map ExtPortHi.ofByte).getD s.extPortHi := rfl
@[simp] theorem ioEffect_sdArmed (s : State) (p : Byte) (w : Width) (v : Word) :
    (ioEffect s p w v).sdArmed = (s.sdArmed || isSdPort p) := rfl

/-! ## boundary -/

@[simp] theorem State.boundary_gpr (s : State) : (s.boundary).gpr = s.gpr := rfl
@[simp] theorem State.boundary_ssp (s : State) : (s.boundary).ssp = s.ssp := rfl
@[simp] theorem State.boundary_usp (s : State) : (s.boundary).usp = s.usp := rfl
@[simp] theorem State.boundary_pc (s : State) : (s.boundary).pc = s.pc := rfl
@[simp] theorem State.boundary_flags (s : State) : (s.boundary).flags = s.flags := rfl
@[simp] theorem State.boundary_halted (s : State) : (s.boundary).halted = s.halted := rfl
@[simp] theorem State.boundary_mplow (s : State) : (s.boundary).mplow = s.mplow := rfl
@[simp] theorem State.boundary_mphigh (s : State) : (s.boundary).mphigh = s.mphigh := rfl
@[simp] theorem State.boundary_extPortHi (s : State) : (s.boundary).extPortHi = s.extPortHi := rfl
@[simp] theorem State.boundary_mem (s : State) : (s.boundary).mem = if s.sdArmed then Memory.writeRam s.mem (sdWrites s) else s.mem := rfl
@[simp] theorem State.boundary_ioLog (s : State) : (s.boundary).ioLog = s.ioLog := rfl
@[simp] theorem State.boundary_sdArmed (s : State) : (s.boundary).sdArmed = s.sdArmed := rfl
@[simp] theorem State.boundary_inputs (s : State) : (s.boundary).inputs = s.inputs.tail := rfl
@[simp] theorem State.boundary_runEndsAt (s : State) : (s.boundary).runEndsAt = s.runEndsAt := rfl
@[simp] theorem State.boundary_draws (s : State) : (s.boundary).draws = s.draws + 1 := rfl

/-! ## setReg -/

@[simp] theorem State.setReg_pc (s : State) (r : Reg) (v : Word) : (s.setReg r v).pc = s.pc := rfl
@[simp] theorem State.setReg_flags (s : State) (r : Reg) (v : Word) : (s.setReg r v).flags = s.flags := rfl
@[simp] theorem State.setReg_halted (s : State) (r : Reg) (v : Word) : (s.setReg r v).halted = s.halted := rfl
@[simp] theorem State.setReg_mplow (s : State) (r : Reg) (v : Word) : (s.setReg r v).mplow = s.mplow := rfl
@[simp] theorem State.setReg_mphigh (s : State) (r : Reg) (v : Word) : (s.setReg r v).mphigh = s.mphigh := rfl
@[simp] theorem State.setReg_extPortHi (s : State) (r : Reg) (v : Word) : (s.setReg r v).extPortHi = s.extPortHi := rfl
@[simp] theorem State.setReg_mem (s : State) (r : Reg) (v : Word) : (s.setReg r v).mem = s.mem := rfl
@[simp] theorem State.setReg_ioLog (s : State) (r : Reg) (v : Word) : (s.setReg r v).ioLog = s.ioLog := rfl
@[simp] theorem State.setReg_sdArmed (s : State) (r : Reg) (v : Word) : (s.setReg r v).sdArmed = s.sdArmed := rfl
@[simp] theorem State.setReg_inputs (s : State) (r : Reg) (v : Word) : (s.setReg r v).inputs = s.inputs := rfl
@[simp] theorem State.setReg_runEndsAt (s : State) (r : Reg) (v : Word) : (s.setReg r v).runEndsAt = s.runEndsAt := rfl
@[simp] theorem State.setReg_draws (s : State) (r : Reg) (v : Word) : (s.setReg r v).draws = s.draws := rfl

@[simp] theorem State.setReg_g_gpr (s : State) (k : Fin 13) (v : Word) :
    (s.setReg (.g k) v).gpr = s.gpr.set k.val v k.isLt := rfl
@[simp] theorem State.setReg_sp_gpr (s : State) (v : Word) : (s.setReg .sp v).gpr = s.gpr := rfl
@[simp] theorem State.setReg_usp_gpr (s : State) (v : Word) : (s.setReg .usp v).gpr = s.gpr := rfl

theorem State.setReg_ssp (s : State) (r : Reg) (v : Word) :
    (s.setReg r v).ssp = if r = .sp ∧ s.flags.p = true then v else s.ssp := rfl
theorem State.setReg_usp (s : State) (r : Reg) (v : Word) :
    (s.setReg r v).usp = if r = .usp ∨ (r = .sp ∧ s.flags.p = false) then v else s.usp := rfl

/-- In user mode no register operand names SSP (10_state.md rule R23). -/
theorem State.setReg_ssp_user (s : State) (r : Reg) (v : Word) (h : s.flags.p = false) :
    (s.setReg r v).ssp = s.ssp := by
  simp [State.setReg_ssp, h]

/-! ## Reading a register after an update that writes none -/

@[simp] theorem State.reg_setPc (s : State) (v : Word) (r : Reg) : (s.setPc v).reg r = s.reg r := by cases r <;> rfl
@[simp] theorem State.reg_setVcsz (s : State) (x : Vcsz) (r : Reg) : (s.setVcsz x).reg r = s.reg r := by
  cases r <;> rfl
@[simp] theorem State.reg_setE (s : State) (b : Bool) (r : Reg) : (s.setE b).reg r = s.reg r := by cases r <;> rfl
@[simp] theorem State.reg_storeByte (s : State) (a : Nat) (b : Byte) (r : Reg) :
    (s.storeByte a b).reg r = s.reg r := by cases r <;> rfl
@[simp] theorem State.reg_logIo (s : State) (e : IoEvent) (r : Reg) : (s.logIo e).reg r = s.reg r := by
  cases r <;> rfl
@[simp] theorem State.reg_boundary (s : State) (r : Reg) : s.boundary.reg r = s.reg r := by cases r <;> rfl

/-! ## Reading memory after an update that writes none -/

@[simp] theorem State.byteAt_setPc (s : State) (v : Word) (a : Nat) : (s.setPc v).byteAt a = s.byteAt a := rfl
@[simp] theorem State.byteAt_setVcsz (s : State) (x : Vcsz) (a : Nat) : (s.setVcsz x).byteAt a = s.byteAt a := rfl
@[simp] theorem State.byteAt_setE (s : State) (b : Bool) (a : Nat) : (s.setE b).byteAt a = s.byteAt a := rfl
@[simp] theorem State.byteAt_setReg (s : State) (r : Reg) (v : Word) (a : Nat) :
    (s.setReg r v).byteAt a = s.byteAt a := rfl
@[simp] theorem State.byteAt_logIo (s : State) (e : IoEvent) (a : Nat) : (s.logIo e).byteAt a = s.byteAt a := rfl
@[simp] theorem State.byteAt_enterPrivileged (s : State) (a : Nat) : s.enterPrivileged.byteAt a = s.byteAt a := rfl

/-! ## Reading a register after writing one (10_state.md rule R23) -/

@[simp] theorem State.reg_setReg_self (s : State) (r : Reg) (v : Word) : (s.setReg r v).reg r = v := by
  cases r with
  | g k => simp [State.reg]
  | sp => cases h : s.flags.p <;> simp [State.reg, State.setReg, h]
  | usp => simp [State.reg, State.setReg]

theorem State.reg_setReg_g (s : State) (k j : Fin 13) (v : Word) :
    (s.setReg (.g k) v).reg (.g j) = if j = k then v else s.reg (.g j) := by
  by_cases h : j = k
  · subst h; simp
  · have h' : k.val ≠ j.val := fun e => h (Fin.ext e.symm)
    simp [State.reg, h, Vector.getElem_set_ne, h']

/-- A general register and a stack pointer are different registers. -/
theorem State.reg_setReg_of_ne (s : State) {r q : Reg} (v : Word) (h : q ≠ r)
    (hs : s.flags.p = true ∨ ¬(isActiveSp s r = true ∧ isActiveSp s q = true)) :
    (s.setReg r v).reg q = s.reg q := by
  cases r with
  | g k =>
    cases q with
    | g j => rw [State.reg_setReg_g, if_neg (fun e => h (by rw [e]))]
    | sp => simp [State.reg, State.setReg]
    | usp => simp [State.reg, State.setReg]
  | sp =>
    cases q with
    | g j => rfl
    | sp => exact absurd rfl h
    | usp =>
      rcases hs with hp | hp
      · simp [State.reg, State.setReg, hp]
      · cases hf : s.flags.p
        · simp [isActiveSp, hf] at hp
        · simp [State.reg, State.setReg, hf]
  | usp =>
    cases q with
    | g j => rfl
    | sp =>
      rcases hs with hp | hp
      · simp [State.reg, State.setReg, hp]
      · cases hf : s.flags.p
        · simp [isActiveSp, hf] at hp
        · simp [State.reg, State.setReg, hf]
    | usp => exact absurd rfl h

end Sys2Proof.Machine
end

