-- ==== Sys2Proof/Laws/Ops.lean ====
section
/-! SUPPORT. What each shared operation of Machine/Ops.lean can do, said once: cite these instead of unfolding. -/

namespace Sys2Proof.Machine

/-! ## Except -/

theorem bind_eq_ok {α β : Type} {x : Except Stop α} {f : α → Except Stop β} {b : β} :
    (x >>= f) = .ok b ↔ ∃ a, x = .ok a ∧ f a = .ok b := by
  cases x <;> simp [bind, Except.bind]

theorem bind_eq_error {α β : Type} {x : Except Stop α} {f : α → Except Stop β} {e : Stop} :
    (x >>= f) = .error e ↔ x = .error e ∨ ∃ a, x = .ok a ∧ f a = .error e := by
  cases x <;> simp [bind, Except.bind]

@[simp] theorem bind_ok {α β : Type} (a : α) (f : α → Except Stop β) : ((.ok a : Except Stop α) >>= f) = f a := rfl
@[simp] theorem bind_error {α β : Type} (e : Stop) (f : α → Except Stop β) :
    ((.error e : Except Stop α) >>= f) = .error e := rfl

/-! ## Access checks (20_memory.md rule R44) -/

/-- An access passes its checks exactly when a word is at an even address and the protection admits it. -/
theorem checkAccess_eq_ok {s : State} {a : Word} {n : Nat} :
    checkAccess s a n = .ok () ↔ (n = 2 → a.getLsbD 0 = false) ∧ admits s a n = true := by
  unfold checkAccess
  split
  · rename_i h
    simp [h.1, h.2]
  · rename_i h
    rw [not_and, Bool.not_eq_true] at h
    cases hl : admits s a n
    · simp
    · simpa using h

/-- A word at an odd address is OddAddress, before the limits are looked at. -/
theorem checkAccess_odd (s : State) {a : Word} (h : a.getLsbD 0 = true) :
    checkAccess s a 2 = .error (.trap .oddAddress) := by
  simp only [checkAccess, h, and_self, if_true]

/-- An access at an aligned address that the protection does not admit is LimitViolation. -/
theorem checkAccess_outside {s : State} {a : Word} {n : Nat} (h : n = 2 → a.getLsbD 0 = false)
    (ha : admits s a n = false) : checkAccess s a n = .error (.trap .limitViolation) := by
  have h1 : ¬(n = 2 ∧ a.getLsbD 0 = true) := fun ⟨hn, hb⟩ => by rw [h hn] at hb; cases hb
  rw [checkAccess, if_neg h1, if_pos ha]

/-- A check stops an access only by one of the two memory exceptions. -/
theorem checkAccess_eq_error {s : State} {a : Word} {n : Nat} {w : Stop} (h : checkAccess s a n = .error w) :
    (w = .trap .oddAddress ∧ n = 2 ∧ a.getLsbD 0 = true) ∨
      (w = .trap .limitViolation ∧ admits s a n = false) := by
  unfold checkAccess at h
  split at h
  · rename_i h1
    cases h
    exact .inl ⟨rfl, h1⟩
  · split at h
    · rename_i h2
      cases h
      exact .inr ⟨rfl, h2⟩
    · cases h

/-- Bit 0 says whether an address is odd. -/
theorem getLsbD_zero_eq_false {a : Word} : a.getLsbD 0 = false ↔ a.toNat % 2 = 0 := by
  simp [BitVec.getLsbD, Nat.testBit_zero]

theorem getLsbD_zero_eq_true {a : Word} : a.getLsbD 0 = true ↔ a.toNat % 2 = 1 := by
  simp [BitVec.getLsbD, Nat.testBit_zero]

/-! ## Reads -/

theorem dataByte_of_byteAt {s : State} {a : Nat} {b : Byte} (hr : region a ≠ .attr) (hb : s.byteAt a = some b) :
    dataByte s a = .ok b := by
  unfold dataByte
  split
  · rename_i h
    exact absurd h hr
  all_goals simp [hb]

theorem dataByte_attribute (s : State) {a : Nat} (hr : region a = .attr) :
    dataByte s a = .ok (Config.attributeByte s.draws a) := by
  simp [dataByte, hr]

/-- A data byte is what memory holds, or the free value of a reserved attribute byte. -/
theorem dataByte_eq_ok {s : State} {a : Nat} {b : Byte} (h : dataByte s a = .ok b) :
    (region a = .attr ∧ b = Config.attributeByte s.draws a) ∨ (region a ≠ .attr ∧ s.byteAt a = some b) := by
  unfold dataByte at h
  split at h
  · rename_i hr
    cases h
    exact .inl ⟨hr, rfl⟩
  all_goals
    rename_i hr
    right
    refine ⟨by simp [hr], ?_⟩
    split at h
    · rename_i hb
      cases h
      exact hb
    · cases h

/-- A data byte never raises an exception. -/
theorem dataByte_eq_error {s : State} {a : Nat} {w : Stop} (h : dataByte s a = .error w) :
    w = .refuse .iplImageAbsent ∨ w = .fault (.unwritten a) := by
  unfold dataByte at h
  split at h
  · cases h
  all_goals
    split at h
    · cases h
    · cases h
      simp

/-- Reading depends on the memory, the draw counter, P and the limits alone. -/
theorem readWord_congr {s t : State} (hm : t.mem = s.mem) (hd : t.draws = s.draws) (hp : t.flags.p = s.flags.p)
    (hl : t.mplow = s.mplow) (hh : t.mphigh = s.mphigh) (a : Word) : readWord t a = readWord s a := by
  have ha : admits t a 2 = admits s a 2 := by simp only [admits, hp, hl, hh]
  have hc : checkAccess t a 2 = checkAccess s a 2 := by simp only [checkAccess, ha]
  have hb : ∀ x, dataByte t x = dataByte s x := fun x => by simp only [dataByte, State.byteAt, hm, hd]
  simp only [readWord, hc, hb]

theorem readByte_eq_ok {s : State} {a : Word} {b : Byte} :
    readByte s a = .ok b ↔ checkAccess s a 1 = .ok () ∧ dataByte s a.toNat = .ok b := by
  simp only [readByte, bind_eq_ok]
  exact ⟨fun ⟨_, h, h1⟩ => ⟨h, h1⟩, fun ⟨h, h1⟩ => ⟨(), h, h1⟩⟩

theorem readWord_eq_ok {s : State} {a w : Word} :
    readWord s a = .ok w ↔
      checkAccess s a 2 = .ok () ∧
        ∃ hi lo, dataByte s a.toNat = .ok hi ∧ dataByte s (a.toNat + 1) = .ok lo ∧ w = wordOf hi lo := by
  simp only [readWord, bind_eq_ok]
  constructor
  · rintro ⟨_, h, hi, h1, lo, h2, h3⟩
    cases h3
    exact ⟨h, hi, lo, h1, h2, rfl⟩
  · rintro ⟨h, hi, lo, h1, h2, rfl⟩
    exact ⟨(), h, hi, h1, lo, h2, rfl⟩

/-! ## Writes -/

theorem writeByte_eq_ok {s t : State} {a : Word} {b : Byte} :
    writeByte s a b = .ok t ↔
      checkAccess s a 1 = .ok () ∧ region a.toNat ≠ .rom ∧ t = s.storeByte a.toNat b := by
  simp only [writeByte, bind_eq_ok]
  constructor
  · rintro ⟨_, h, h1⟩
    split at h1
    · cases h1
    · rename_i hr
      cases h1
      exact ⟨h, hr, rfl⟩
  · rintro ⟨h, hr, rfl⟩
    exact ⟨(), h, by rw [if_neg hr]⟩

theorem writeWord_eq_ok {s t : State} {a v : Word} :
    writeWord s a v = .ok t ↔
      checkAccess s a 2 = .ok () ∧ region a.toNat ≠ .rom ∧ region (a.toNat + 1) ≠ .rom ∧
        t = (s.storeByte a.toNat (highByte v)).storeByte (a.toNat + 1) (lowByte v) := by
  simp only [writeWord, bind_eq_ok]
  constructor
  · rintro ⟨_, h, h1⟩
    split at h1
    · cases h1
    · rename_i hr
      rw [not_or] at hr
      cases h1
      exact ⟨h, hr.1, hr.2, rfl⟩
  · rintro ⟨h, hr, hr', rfl⟩
    exact ⟨(), h, if_neg (not_or.mpr ⟨hr, hr'⟩)⟩

/-- A write stops only by a memory exception or by falling in the ROM. -/
theorem writeWord_eq_error {s : State} {a v : Word} {w : Stop} (h : writeWord s a v = .error w) :
    checkAccess s a 2 = .error w ∨ w = .refuse .romWrite := by
  simp only [writeWord, bind_eq_error] at h
  rcases h with h | ⟨_, _, h⟩
  · exact .inl h
  · split at h
    · cases h
      exact .inr rfl
    · cases h

/-- What a store of one byte leaves of every byte. -/
theorem byteAt_storeByte_self (s : State) {a : Nat} (b : Byte) (h : region a ≠ .attr) :
    (s.storeByte a b).byteAt a = some b := Memory.read_write_self s.mem a b h

theorem byteAt_storeByte_ne (s : State) {a x : Nat} (b : Byte) (h : x ≠ a) :
    (s.storeByte a b).byteAt x = s.byteAt x := Memory.read_write_ne s.mem b h

/-! ## The stack -/

theorem pushWord_eq_ok {s t : State} {v : Word} :
    pushWord s v = .ok t ↔ ∃ u, writeWord s (s.reg .sp - 2) v = .ok u ∧ t = u.setReg .sp (s.reg .sp - 2) := by
  simp only [pushWord, bind_eq_ok]
  constructor
  · rintro ⟨u, h, h1⟩
    cases h1
    exact ⟨u, h, rfl⟩
  · rintro ⟨u, h, rfl⟩
    exact ⟨u, h, rfl⟩

theorem popWord_eq_ok {s : State} {x : Word × State} :
    popWord s = .ok x ↔ ∃ t, readWord s (s.reg .sp) = .ok t ∧ x = (t, s.setReg .sp (s.reg .sp + 2)) := by
  simp only [popWord, bind_eq_ok]
  constructor
  · rintro ⟨t, h, h1⟩
    cases h1
    exact ⟨t, h, rfl⟩
  · rintro ⟨t, h, rfl⟩
    exact ⟨t, h, rfl⟩

/-! ## Traps -/

/-- The trap entry answers a next state exactly when its three accesses succeed. -/
theorem trapEntry_eq_next {n : Fin 16} {pc : Word} {s t : State} :
    trapEntry n pc s = .next t ↔ trapFrame n pc s = .ok t := by
  unfold trapEntry
  split <;> simp_all

/-- The trap entry never refuses. -/
theorem trapEntry_ne_refused (n : Fin 16) (pc : Word) (s : State) (r : Refusal) : trapEntry n pc s ≠ .refused r := by
  unfold trapEntry
  split <;> simp

/-- The three accesses of the trap entry. -/
theorem trapFrame_eq_ok {n : Fin 16} {pc : Word} {s t : State} :
    trapFrame n pc s = .ok t ↔
      ∃ s1 s2 v, pushWord s.enterPrivileged pc = .ok s1 ∧ pushWord s1 s.flags.toWord = .ok s2 ∧
        readWord s2 (vectorAddr n) = .ok v ∧ t = s2.setPc v := by
  simp only [trapFrame, bind_eq_ok]
  constructor
  · rintro ⟨s1, h1, s2, h2, v, h3, h4⟩
    cases h4
    exact ⟨s1, s2, v, h1, h2, h3, rfl⟩
  · rintro ⟨s1, s2, v, h1, h2, h3, rfl⟩
    exact ⟨s1, h1, s2, h2, v, h3, rfl⟩

/-- Which of the two an exception leads to. -/
theorem raise_of_mem {e : Exc} {s : State} (h : e ∈ s.runEndsAt) (pc : Word) :
    raise e pc s = .fault (.exceptionEndsRun e) := if_pos h
theorem raise_of_not_mem {e : Exc} {s : State} (h : e ∉ s.runEndsAt) (pc : Word) :
    raise e pc s = trapEntry e.entry pc s := if_neg h

/-- An exception answers a next state exactly when it does not end the run and its entry succeeds. -/
theorem raise_eq_next {e : Exc} {pc : Word} {s t : State} :
    raise e pc s = .next t ↔ e ∉ s.runEndsAt ∧ trapFrame e.entry pc s = .ok t := by
  unfold raise
  split
  · rename_i h
    simp [h]
  · rename_i h
    simp [h, trapEntry_eq_next]

/-- What an instruction that did not complete leads to: a trap, or no next state. -/
theorem raiseStop_eq_next {pc : Word} {s t : State} {w : Stop} :
    raiseStop pc s w = .next t ↔ ∃ e, w = .trap e ∧ e ∉ s.runEndsAt ∧ trapFrame e.entry pc s = .ok t := by
  cases w <;> simp [raiseStop, raise_eq_next]

/-- An instruction answers a next state by completing, or by the trap of the exception it raised. -/
theorem complete_eq_next {n : Nat} {s t : State} {x : Except Stop State} :
    complete n s x = .next t ↔
      x = .ok t ∨ ∃ e, x = .error (.trap e) ∧ e ∉ s.runEndsAt ∧ trapFrame e.entry (excSavedPc s n) s = .ok t := by
  cases x with
  | ok u => simp [complete]
  | error w => simp [complete, raiseStop_eq_next]

@[simp] theorem complete_ok (n : Nat) (s t : State) : complete n s (.ok t) = .next t := rfl
@[simp] theorem complete_trap (n : Nat) (s : State) (e : Exc) :
    complete n s (.error (.trap e)) = raise e (excSavedPc s n) s := rfl

/-- A guarded instruction answers a next state by running, or by the privilege violation. -/
theorem guarded_eq_next {i : Instr} {s t : State} {run : Result} :
    guarded i s run = .next t ↔
      (violates i s = false ∧ run = .next t) ∨
        (violates i s = true ∧ Exc.privilegeViolation ∉ s.runEndsAt ∧
          trapFrame Exc.privilegeViolation.entry (excSavedPc s (instrWords i)) s = .ok t) := by
  unfold guarded
  cases h : violates i s <;> simp [raise_eq_next]

theorem guarded_privileged {i : Instr} {s : State} (run : Result) (h : s.flags.p = true) : guarded i s run = run := by
  simp [guarded, violates_eq, h]

/-- An instruction outside `PRIV_SET` runs in either mode. -/
@[simp] theorem guarded_unprivileged {i : Instr} {s : State} (run : Result) (h : privSet i = false) :
    guarded i s run = run := by
  simp [guarded, violates_eq, h]

theorem guarded_user {i : Instr} {s : State} (run : Result) (hi : privSet i = true) (h : s.flags.p = false) :
    guarded i s run = raise .privilegeViolation (excSavedPc s (instrWords i)) s := by
  simp [guarded, violates_eq, h, hi]

theorem returnFromTrap_eq_ok {s t : State} :
    returnFromTrap s = .ok t ↔
      ∃ f pc, readWord s s.ssp = .ok f ∧ readWord s (s.ssp + 2) = .ok pc ∧
        t = { s with ssp := s.ssp + 4, flags := Flags.ofWord f, pc := pc } := by
  simp only [returnFromTrap, bind_eq_ok]
  constructor
  · rintro ⟨f, h, pc, h1, h2⟩
    cases h2
    exact ⟨f, pc, h, h1, rfl⟩
  · rintro ⟨f, pc, h, h1, rfl⟩
    exact ⟨f, h, pc, h1, rfl⟩

end Sys2Proof.Machine
end

