-- ==== Sys2Proof/Laws/Exec.lean ====
section
/-! SUPPORT. What an instruction can do, said once: `exec_cases`. -/

namespace Sys2Proof.Machine

/-! ## Operands -/

theorem writeLoc_eq_ok {s t : State} {l : Loc} {v : Word} (h : writeLoc s l v = .ok t) :
    writeWord s (locAddr s l) v = .ok t ∨ writeByte s (locAddr s l) (lowByte v) = .ok t := by
  unfold writeLoc at h
  split at h
  · exact .inl h
  · exact .inr h

/-! ## The state a plain instruction leaves -/

/-- What no instruction but EI, DI, HALT, RETI, IN, OUT and a trap changes. -/
structure KeepsSystem (s t : State) : Prop where
  mplow : t.mplow = s.mplow
  mphigh : t.mphigh = s.mphigh
  extPortHi : t.extPortHi = s.extPortHi
  ioLog : t.ioLog = s.ioLog
  sdArmed : t.sdArmed = s.sdArmed
  halted : t.halted = s.halted
  inputs : t.inputs = s.inputs
  draws : t.draws = s.draws
  runEndsAt : t.runEndsAt = s.runEndsAt
  e : t.flags.e = s.flags.e
  p : t.flags.p = s.flags.p
  ssp : s.flags.p = false → t.ssp = s.ssp

theorem KeepsSystem.refl (s : State) : KeepsSystem s s := by constructor <;> intros <;> rfl

theorem KeepsSystem.setPc {s t : State} (h : KeepsSystem s t) (v : Word) : KeepsSystem s (t.setPc v) :=
  ⟨h.mplow, h.mphigh, h.extPortHi, h.ioLog, h.sdArmed, h.halted, h.inputs, h.draws, h.runEndsAt, h.e, h.p, h.ssp⟩

theorem KeepsSystem.setVcsz {s t : State} (h : KeepsSystem s t) (r : Vcsz) : KeepsSystem s (t.setVcsz r) :=
  ⟨h.mplow, h.mphigh, h.extPortHi, h.ioLog, h.sdArmed, h.halted, h.inputs, h.draws, h.runEndsAt, h.e, h.p, h.ssp⟩

theorem KeepsSystem.storeByte {s t : State} (h : KeepsSystem s t) (a : Nat) (b : Byte) :
    KeepsSystem s (t.storeByte a b) :=
  ⟨h.mplow, h.mphigh, h.extPortHi, h.ioLog, h.sdArmed, h.halted, h.inputs, h.draws, h.runEndsAt, h.e, h.p, h.ssp⟩

theorem KeepsSystem.setReg {s t : State} (h : KeepsSystem s t) (r : Reg) (v : Word) : KeepsSystem s (t.setReg r v) :=
  ⟨h.mplow, h.mphigh, h.extPortHi, h.ioLog, h.sdArmed, h.halted, h.inputs, h.draws, h.runEndsAt, h.e, h.p, fun hp => by
    rw [State.setReg_ssp_user t r v (h.p.trans hp)]
    exact h.ssp hp⟩

/-- How an instruction can end in a next state. -/
inductive Effect (i : Instr) (s t : State) : Prop where
  /-- It took a trap. -/
  | trapped (n : Fin 16) (pc : Word) (h : trapFrame n pc s = .ok t)
  /-- It wrote registers and result flags alone. -/
  | plain (h : KeepsSystem s t) (hm : t.mem = s.mem)
  /-- It stored one byte. -/
  | storedByte (h : KeepsSystem s t) (a : Word) (b : Byte) (u : State) (hw : writeByte s a b = .ok u)
      (hm : t.mem = u.mem)
  /-- It stored one word. -/
  | storedWord (h : KeepsSystem s t) (a v : Word) (u : State) (hw : writeWord s a v = .ok u) (hm : t.mem = u.mem)
  /-- It is a system instruction, run in privileged mode. -/
  | system (hi : i = .ei ∨ i = .di ∨ i = .halt ∨ i = .reti ∨ (∃ rd p, i = .inp rd p) ∨ ∃ rd p, i = .outp rd p)
      (hp : s.flags.p = true) (hm : t.mem = s.mem) (hin : t.inputs = s.inputs) (hd : t.draws = s.draws)
      (hr : t.runEndsAt = s.runEndsAt)

theorem Effect.of_complete {i : Instr} {n : Nat} {s t : State} {x : Except Stop State}
    (hx : ∀ u, x = .ok u → Effect i s u) (h : complete n s x = .next t) : Effect i s t := by
  rcases complete_eq_next.mp h with h | ⟨e, _, _, h⟩
  · exact hx t h
  · exact .trapped _ _ h

theorem Effect.of_binary {i : Instr} {rd : Reg} {src : Src} {s t : State} {f : Word → Word → Except Stop (Word × Vcsz)}
    (h : binary rd src s f = .next t) : Effect i s t := by
  refine Effect.of_complete (fun u hu => ?_) h
  simp only [bind_eq_ok] at hu
  obtain ⟨b, _, r, _, hu⟩ := hu
  cases hu
  exact .plain ((((KeepsSystem.refl s).setReg _ _).setVcsz _).setPc _) rfl

theorem Effect.of_jump {i : Instr} {c : Bool} {g : Target} {s t : State} (h : jumpIf c g s = .next t) :
    Effect i s t := by
  cases h
  exact .plain ((KeepsSystem.refl s).setPc _) rfl

theorem Effect.of_setPair {i : Instr} {s : State} {rd rh : Reg} {lo hi pc : Word} {fl : Vcsz} :
    Effect i s ((setPair s rd rh lo hi fl).setPc pc) :=
  .plain (((((KeepsSystem.refl s).setReg _ _).setReg _ _).setVcsz _).setPc _) rfl

/-- A push changes memory by one word, and the stack pointer in use. -/
theorem Effect.of_push {i : Instr} {s u : State} {v pc : Word} (h : pushWord s v = .ok u) :
    Effect i s (u.setPc pc) := by
  obtain ⟨w, hw, rfl⟩ := pushWord_eq_ok.mp h
  obtain ⟨_, _, _, rfl⟩ := writeWord_eq_ok.mp hw
  exact .storedWord (((((KeepsSystem.refl s).storeByte _ _).storeByte _ _).setReg _ _).setPc _) _ _ _ hw rfl

/-- The guard of every instruction: it ran, and in privileged mode if it is one of `PRIV_SET`, or it took the trap. -/
theorem Effect.of_guarded {i : Instr} {s t : State} {run : Result} (h : guarded i s run = .next t)
    (hx : (privSet i = true → s.flags.p = true) → run = .next t → Effect i s t) : Effect i s t := by
  rcases guarded_eq_next.mp h with ⟨hv, h⟩ | ⟨_, _, h⟩
  · exact hx (fun hi => by simpa [violates_eq, hi] using hv) h
  · exact .trapped _ _ h

/-- What an instruction can do: how `exec` can answer a next state. -/
theorem exec_cases (i : Instr) (s t : State) (h : exec i s = .next t) : Effect i s t := by
  cases i <;> refine .of_guarded h fun hp h => ?_
  case no => cases h; exact .plain ((KeepsSystem.refl s).setPc _) rfl
  case ld =>
    refine Effect.of_complete (fun u hu => ?_) h
    simp only [bind_eq_ok] at hu
    obtain ⟨v, _, hu⟩ := hu
    cases hu
    exact .plain (((KeepsSystem.refl s).setReg _ _).setPc _) rfl
  case ldFlag => cases h; exact .plain (((KeepsSystem.refl s).setReg _ _).setPc _) rfl
  case st =>
    refine Effect.of_complete (fun u hu => ?_) h
    simp only [bind_eq_ok] at hu
    obtain ⟨w, hw, hu⟩ := hu
    cases hu
    rcases writeLoc_eq_ok hw with hw | hw
    · obtain ⟨_, _, _, rfl⟩ := writeWord_eq_ok.mp hw
      exact .storedWord ((((KeepsSystem.refl s).storeByte _ _).storeByte _ _).setPc _) _ _ _ hw rfl
    · obtain ⟨_, _, rfl⟩ := writeByte_eq_ok.mp hw
      exact .storedByte (((KeepsSystem.refl s).storeByte _ _).setPc _) _ _ _ hw rfl
  case cmp =>
    refine Effect.of_complete (fun u hu => ?_) h
    simp only [bind_eq_ok] at hu
    obtain ⟨v, _, hu⟩ := hu
    cases hu
    exact .plain (((KeepsSystem.refl s).setVcsz _).setPc _) rfl
  case mull =>
    split at h
    · cases h
    · refine Effect.of_complete (fun u hu => ?_) h
      simp only [bind_eq_ok] at hu
      obtain ⟨b, _, hu⟩ := hu
      cases hu
      exact .of_setPair
  case divl =>
    split at h
    · cases h
    · refine Effect.of_complete (fun u hu => ?_) h
      simp only [bind_eq_ok] at hu
      obtain ⟨b, _, hu⟩ := hu
      split at hu
      · cases hu
      · cases hu
        exact .of_setPair
  case call =>
    refine Effect.of_complete (fun u hu => ?_) h
    simp only [bind_eq_ok] at hu
    obtain ⟨w, hw, hu⟩ := hu
    cases hu
    exact .of_push hw
  case inp =>
    refine Effect.of_complete (fun u hu => ?_) h
    simp only [ioRead, bind_eq_ok] at hu
    obtain ⟨x, ⟨_, _, hx⟩, hu⟩ := hu
    cases hx
    cases hu
    exact .system (.inr (.inr (.inr (.inr (.inl ⟨_, _, rfl⟩))))) (hp rfl) rfl rfl rfl rfl
  case outp =>
    refine Effect.of_complete (fun u hu => ?_) h
    simp only [ioWrite, bind_eq_ok] at hu
    obtain ⟨x, ⟨_, _, hx⟩, hu⟩ := hu
    cases hx
    cases hu
    exact .system (.inr (.inr (.inr (.inr (.inr ⟨_, _, rfl⟩))))) (hp rfl) rfl rfl rfl rfl
  case push =>
    refine Effect.of_complete (fun u hu => ?_) h
    simp only [bind_eq_ok] at hu
    obtain ⟨w, hw, hu⟩ := hu
    cases hu
    exact .of_push hw
  case pop =>
    refine Effect.of_complete (fun u hu => ?_) h
    simp only [bind_eq_ok] at hu
    obtain ⟨x, hx, hu⟩ := hu
    cases hu
    obtain ⟨w, _, rfl⟩ := popWord_eq_ok.mp hx
    exact .plain ((((KeepsSystem.refl s).setReg _ _).setReg _ _).setPc _) rfl
  case ret =>
    refine Effect.of_complete (fun u hu => ?_) h
    simp only [bind_eq_ok] at hu
    obtain ⟨x, hx, hu⟩ := hu
    cases hu
    obtain ⟨w, _, rfl⟩ := popWord_eq_ok.mp hx
    exact .plain (((KeepsSystem.refl s).setReg _ _).setPc _) rfl
  case reti =>
    split at h
    · rename_i hp
      refine Effect.of_complete (fun u hu => ?_) h
      obtain ⟨f, pc, _, _, rfl⟩ := returnFromTrap_eq_ok.mp hu
      exact .system (.inr (.inr (.inr (.inl rfl)))) hp rfl rfl rfl rfl
    · cases h
  case ei => cases h; exact .system (.inl rfl) (hp rfl) rfl rfl rfl rfl
  case di => cases h; exact .system (.inr (.inl rfl)) (hp rfl) rfl rfl rfl rfl
  case svc => exact .trapped _ _ (trapEntry_eq_next.mp h)
  case halt => cases h; exact .system (.inr (.inr (.inl rfl))) (hp rfl) rfl rfl rfl rfl
  all_goals first
    | exact .of_binary h
    | exact .of_jump h
    | exact .of_guarded h fun _ h => .of_binary h

/-- `PRIV_SET` binds every instruction: one that violates the privilege does nothing else. -/
theorem exec_of_violates {i : Instr} {s : State} (h : violates i s = true) :
    exec i s = raise .privilegeViolation (excSavedPc s (instrWords i)) s := by
  cases i <;> exact if_pos h

/-! ## What a step can do -/

/-- How a step can end in a next state: an accepted interrupt, an executed instruction, or an exception of the fetch. -/
theorem step_cases {s t : State} (h : step s = .next t) :
    s.halted = false ∧
      ((∃ n, acceptedIrq s = some n ∧ trapFrame (irqEntry n) s.pc s.boundary = .ok t) ∨
        (acceptedIrq s = none ∧ ∃ i, fetchInstr s.boundary = .instr i ∧ exec i s.boundary = .next t) ∨
        (acceptedIrq s = none ∧ ∃ e pc, fetchInstr s.boundary = .stop (.trap e) pc ∧ e ∉ s.runEndsAt ∧
          trapFrame e.entry pc s.boundary = .ok t)) := by
  unfold step at h
  split at h
  · cases h
  · rename_i hh
    refine ⟨by simpa using hh, ?_⟩
    split at h
    · rename_i n hn
      exact .inl ⟨n, hn, trapEntry_eq_next.mp h⟩
    · rename_i hn
      split at h
      · rename_i i hi
        exact .inr (.inl ⟨hn, i, hi, h⟩)
      · rename_i w pc hw
        obtain ⟨e, rfl, he, ht⟩ := raiseStop_eq_next.mp h
        exact .inr (.inr ⟨hn, e, pc, hw, he, ht⟩)

/-- A step of a CPU that is not halted and accepts no interrupt runs the fetched instruction. -/
theorem step_of_fetch {s : State} {i : Instr} (hh : s.halted = false) (hq : acceptedIrq s = none)
    (hf : fetchInstr s.boundary = .instr i) : step s = exec i s.boundary := by
  simp [step, hh, hq, hf]

/-! ## The trap entry, in full -/

/-- All that a trap entry changes (60_exceptions.md rule R220): FLAG, SSP, PC and the two words of the frame. -/
theorem trapFrame_shape {n : Fin 16} {pc : Word} {s t : State} (h : trapFrame n pc s = .ok t) :
    ∃ u v,
      u = (((s.storeByte (s.ssp - 2).toNat (highByte pc)).storeByte ((s.ssp - 2).toNat + 1) (lowByte pc)).storeByte
            (s.ssp - 4).toNat (highByte s.flags.toWord)).storeByte ((s.ssp - 4).toNat + 1)
            (lowByte s.flags.toWord) ∧
        region (s.ssp - 2).toNat ≠ .rom ∧ region ((s.ssp - 2).toNat + 1) ≠ .rom ∧
        region (s.ssp - 4).toNat ≠ .rom ∧ region ((s.ssp - 4).toNat + 1) ≠ .rom ∧
        (s.ssp - 2).getLsbD 0 = false ∧
        t = { s with
              mem := u.mem, ssp := s.ssp - 4, flags := { s.flags with p := true, e := false }, pc := v } := by
  obtain ⟨s1, s2, v, h1, h2, _, rfl⟩ := trapFrame_eq_ok.mp h
  obtain ⟨u1, hw1, rfl⟩ := pushWord_eq_ok.mp h1
  obtain ⟨hc1, hr1, hr1', rfl⟩ := writeWord_eq_ok.mp hw1
  obtain ⟨u2, hw2, rfl⟩ := pushWord_eq_ok.mp h2
  obtain ⟨_, hr2, hr2', rfl⟩ := writeWord_eq_ok.mp hw2
  have e1 : s.enterPrivileged.reg .sp = s.ssp := by simp [State.reg]
  rw [e1] at hc1 hr1 hr1'
  have e4 : s.ssp - 2 - 2 = s.ssp - 4 := by bv_omega
  rw [State.reg_setReg_self, e1, e4] at hr2 hr2'
  refine ⟨_, v, rfl, hr1, hr1', hr2, hr2', (checkAccess_eq_ok.mp hc1).1 rfl, ?_⟩
  simp only [State.reg_setReg_self, e1, e4]
  simp [State.setReg, State.setPc, State.storeByte, State.enterPrivileged]

/-- A trap entry keeps the model's choice of the exceptions that end a run. -/
theorem trapFrame_runEndsAt {n : Fin 16} {pc : Word} {s t : State} (h : trapFrame n pc s = .ok t) :
    t.runEndsAt = s.runEndsAt := by
  obtain ⟨_, _, _, _, _, _, _, _, rfl⟩ := trapFrame_shape h
  rfl

end Sys2Proof.Machine
end

