-- ==== Sys2Proof/Laws/Instr.lean ====
section
/-! SUPPORT. What the operations that the instructions share can do, said once: operands, fetch, the arithmetic form, pairs,
the jump form, ports and the choice of an interrupt. -/

namespace Sys2Proof.Machine

/-! ## The terms of Safety.lean -/

theorem permitted_iff_checkAccess {s : State} {a : Word} {n : Nat} :
    Permitted s a n ↔ checkAccess s a n = .ok () := by
  rw [checkAccess_eq_ok, getLsbD_zero_eq_false]
  simp [Permitted, admits_iff]

/-- A permitted read of a word that memory holds. -/
theorem readWord_of_holds {s : State} {a : Word} {hi lo : Byte} (hp : Permitted s a 2) (h : HoldsWord s a hi lo) :
    readWord s a = .ok (wordOf hi lo) :=
  readWord_eq_ok.mpr ⟨permitted_iff_checkAccess.mp hp, hi, lo, dataByte_of_byteAt h.1 h.2.2.1,
    dataByte_of_byteAt h.2.1 h.2.2.2, rfl⟩

/-- The byte after an even address is no reserved attribute byte. -/
theorem region_succ_ne_attribute {a : Nat} (h : a % 2 = 0) : region (a + 1) ≠ .attr := by
  unfold region
  split_ifs <;> simp
  omega

/-! ## Operands -/

@[simp] theorem operand_imm (s : State) (v : Word) : operand s (.imm v) = .ok v := rfl
@[simp] theorem operand_reg (s : State) (r : Reg) : operand s (.reg r) = .ok (s.reg r) := rfl
@[simp] theorem operand_imm4 (s : State) (i : BitVec 4) : operand s (.imm4 i) = .ok (sext4 i) := rfl
@[simp] theorem operand_mem (s : State) (l : Loc) : operand s (.mem l) = readLoc s l := rfl

/-- A memory operand is the word, or the zero-extended byte, at its address. -/
theorem readLoc_eq_ok {s : State} {l : Loc} {w : Word} :
    readLoc s l = .ok w ↔
      (locWidth l = .word ∧ readWord s (locAddr s l) = .ok w) ∨
        (locWidth l = .byte ∧ ∃ b, readByte s (locAddr s l) = .ok b ∧ w = zext8 b) := by
  unfold readLoc
  cases h : locWidth l with
  | word => simp
  | byte =>
    simp only [bind_eq_ok, reduceCtorEq, false_and, false_or, true_and]
    constructor
    · rintro ⟨b, hb, hw⟩
      cases hw
      exact ⟨b, hb, rfl⟩
    · rintro ⟨b, hb, rfl⟩
      exact ⟨b, hb, rfl⟩

/-! ## Fetch (30_encoding.md rule R82, 20_memory.md rule R48) -/

theorem fetchWord_eq_ok {s : State} {a w : Word} :
    fetchWord s a = .ok w ↔ checkAccess s a 2 = .ok () ∧ region a.toNat ≠ .attr ∧ readWord s a = .ok w := by
  simp only [fetchWord, bind_eq_ok]
  constructor
  · rintro ⟨_, h, h1⟩
    split at h1
    · cases h1
    · rename_i hr
      exact ⟨h, hr, h1⟩
  · rintro ⟨h, hr, h1⟩
    exact ⟨(), h, by rw [if_neg hr, h1]⟩

/-- The fetch of a word stops at the checks of the access. -/
theorem fetchWord_of_stop {s : State} {a : Word} {w : Stop} (h : checkAccess s a 2 = .error w) :
    fetchWord s a = .error w := by
  rw [fetchWord, h]
  rfl

/-- The fetch of a word that memory holds. -/
theorem fetchWord_of_holds {s : State} {a : Word} {hi lo : Byte} (hp : Permitted s a 2) (h : HoldsWord s a hi lo) :
    fetchWord s a = .ok (wordOf hi lo) :=
  fetchWord_eq_ok.mpr ⟨permitted_iff_checkAccess.mp hp, h.1, readWord_of_holds hp h⟩

/-! ## The arithmetic form and the jump form -/

/-- What an arithmetic instruction leaves, when its operand can be read and it computes a result. -/
theorem binary_of_ok {rd : Reg} {src : Src} {s : State} {b : Word} {f : Word → Word → Except Stop (Word × Vcsz)}
    {r : Word × Vcsz} (h : operand s src = .ok b) (hf : f (s.reg rd) b = .ok r) :
    binary rd src s f =
      .next { (s.setReg rd r.1).setVcsz r.2 with pc := s.pc + BitVec.ofNat 16 (2 * src.words) } := by
  simp only [binary, h, hf, bind_ok]
  rfl

/-- An exception of the operand read ends an arithmetic instruction. -/
theorem binary_of_trap {rd : Reg} {src : Src} {s : State} {e : Exc} {f : Word → Word → Except Stop (Word × Vcsz)}
    (h : operand s src = .error (.trap e)) :
    binary rd src s f = raise e (s.pc + BitVec.ofNat 16 (2 * src.words)) s := by
  simp only [binary, h]
  rfl

theorem jumpIf_true (t : Target) (s : State) : jumpIf true t s = .next { s with pc := targetAddr s t } := rfl
theorem jumpIf_false (t : Target) (s : State) :
    jumpIf false t s = .next { s with pc := s.pc + BitVec.ofNat 16 (2 * t.words) } := rfl

/-! ## Flags as facts about integers (10_state.md rules R31 to R33) -/

theorem beq_zero_iff (r : Word) : (r == 0) = true ↔ r.toNat = 0 := by
  rw [beq_iff_eq]
  exact ⟨fun h => h ▸ rfl, fun h => BitVec.eq_of_toNat_eq h⟩

theorem msb_iff (r : Word) : r.msb = true ↔ r.toInt < 0 := by
  rw [BitVec.msb_eq_toInt, decide_eq_true_eq]

/-! ## Pairs (43_mul_div.md rule R133) -/

/-- A register that begins a pair has a second half, another register. -/
theorem pairHigh_of_beginsPair {rd : Reg} (h : beginsPair rd = true) : ∃ rh, pairHigh rd = some rh ∧ rh ≠ rd := by
  cases rd with
  | g k => revert h; revert k; decide
  | sp => cases h
  | usp => cases h

/-! ## Ports (20_memory.md rules R51, R54) -/

theorem ioRead_eq_ok {s : State} {port : Word} {w : Width} {x : Word × State} :
    ioRead s port w = .ok x ↔
      checkPort port w = .ok () ∧
        x = ((match w with
          | .word => wordOf (portByte s (lowByte port)) (portByte s (lowByte port + 1))
          | .byte => zext8 (portByte s (lowByte port))), s.logIo (.read (lowByte port) w)) := by
  simp only [ioRead, bind_eq_ok]
  constructor
  · rintro ⟨_, h, h1⟩
    cases h1
    exact ⟨h, rfl⟩
  · rintro ⟨h, rfl⟩
    exact ⟨(), h, rfl⟩

theorem ioWrite_eq_ok {s t : State} {port v : Word} {w : Width} :
    ioWrite s port w v = .ok t ↔
      checkPort port w = .ok () ∧
        t = (ioEffect s (lowByte port) w (match w with
          | .word => v
          | .byte => zext8 (lowByte v))).logIo (.write (lowByte port) w (match w with
          | .word => v
          | .byte => zext8 (lowByte v))) := by
  simp only [ioWrite, bind_eq_ok]
  constructor
  · rintro ⟨_, h, h1⟩
    cases h1
    exact ⟨h, rfl⟩
  · rintro ⟨h, rfl⟩
    exact ⟨(), h, rfl⟩

/-! ## The choice of an interrupt (60_exceptions.md rule R213) -/

theorem mem_requesters {w : BitVec 10} {n : Fin 10} : n ∈ requesters w ↔ w.getLsbD n.val = true := by
  have hn : n ∈ ([0, 1, 2, 3, 4, 5, 6, 7, 8, 9] : List (Fin 10)) := by revert n; decide
  simp only [requesters, List.mem_filter, hn, true_and]

/-- The source chosen requests. -/
theorem pickIrq_requests {k : Nat} {w : BitVec 10} {n : Fin 10} (h : pickIrq k w = some n) : w.getLsbD n.val = true := by
  rw [← mem_requesters]
  unfold pickIrq at h
  split at h
  · cases h
  · rename_i m hm
    cases h
    rw [hm]
    exact List.mem_singleton.mpr rfl
  · rename_i n m rest hm
    cases h
    rw [hm]
    have hlt : Config.irqOrder k w % (n :: m :: rest).length < (n :: m :: rest).length := Nat.mod_lt _ (by simp)
    rw [List.getD_eq_getElem _ _ hlt]
    exact List.getElem_mem _

end Sys2Proof.Machine
end

