-- ==== Sys2Proof/Laws/PerInstr.lean ====
section
/-! SUPPORT. Facts about every instruction as syntax, one lemma for each constructor. -/

namespace Sys2Proof.Laws

/-! ## The words of an operand -/

theorem locFields_length (l : Loc) : l.fields.second.length + 1 = l.words := by cases l <;> rfl

theorem srcFields_length (x : Src) : x.fields.second.length + 1 = x.words := by
  cases x with
  | mem l => exact locFields_length l
  | imm v => rfl
  | reg r => rfl
  | imm4 i => rfl

theorem targetFields_length (t : Target) : t.fields.second.length + 1 = t.words := by cases t <;> rfl

theorem portFields_length (p : Port) : p.fields.second.length + 1 = p.words := by cases p <;> rfl

/-! ## EncodeLength: the encoder writes as many words as the length rule says (30_encoding.md rules R72, R75) -/

namespace EncodeLength

/-- The encoding of the instruction has the length of rule R75. -/
def Statement (i : Instr) : Prop := (encode i).length = instrWords i

theorem no : Statement (.no) := rfl
theorem ld (rd : Reg) (src : Src) : Statement (.ld rd src) := srcFields_length src
theorem ldFlag (rd : Reg) : Statement (.ldFlag rd) := rfl
theorem st (rd : Reg) (dst : Loc) : Statement (.st rd dst) := locFields_length dst
theorem add (rd : Reg) (src : Src) : Statement (.add rd src) := srcFields_length src
theorem sub (rd : Reg) (src : Src) : Statement (.sub rd src) := srcFields_length src
theorem cmp (rd : Reg) (src : Src) : Statement (.cmp rd src) := srcFields_length src
theorem and (rd : Reg) (src : Src) : Statement (.and rd src) := srcFields_length src
theorem or (rd : Reg) (src : Src) : Statement (.or rd src) := srcFields_length src
theorem xor (rd : Reg) (src : Src) : Statement (.xor rd src) := srcFields_length src
theorem adds (rd : Reg) (src : Src) : Statement (.adds rd src) := srcFields_length src
theorem mul (rd : Reg) (src : Src) : Statement (.mul rd src) := srcFields_length src
theorem div (rd : Reg) (src : Src) : Statement (.div rd src) := srcFields_length src
theorem mod (rd : Reg) (src : Src) : Statement (.mod rd src) := srcFields_length src
theorem mull (rd : Reg) (src : Src) : Statement (.mull rd src) := srcFields_length src
theorem divl (rd : Reg) (src : Src) : Statement (.divl rd src) := srcFields_length src
theorem shla (rd : Reg) (src : Src) : Statement (.shla rd src) := srcFields_length src
theorem shll (rd : Reg) (src : Src) : Statement (.shll rd src) := srcFields_length src
theorem shra (rd : Reg) (src : Src) : Statement (.shra rd src) := srcFields_length src
theorem shrl (rd : Reg) (src : Src) : Statement (.shrl rd src) := srcFields_length src
theorem jz (t : Target) : Statement (.jz t) := targetFields_length t
theorem jc (t : Target) : Statement (.jc t) := targetFields_length t
theorem jm (t : Target) : Statement (.jm t) := targetFields_length t
theorem jo (t : Target) : Statement (.jo t) := targetFields_length t
theorem jgt (t : Target) : Statement (.jgt t) := targetFields_length t
theorem jge (t : Target) : Statement (.jge t) := targetFields_length t
theorem jle (t : Target) : Statement (.jle t) := targetFields_length t
theorem jlt (t : Target) : Statement (.jlt t) := targetFields_length t
theorem jnz (t : Target) : Statement (.jnz t) := targetFields_length t
theorem jnc (t : Target) : Statement (.jnc t) := targetFields_length t
theorem jnm (t : Target) : Statement (.jnm t) := targetFields_length t
theorem jno (t : Target) : Statement (.jno t) := targetFields_length t
theorem jhi (t : Target) : Statement (.jhi t) := targetFields_length t
theorem jls (t : Target) : Statement (.jls t) := targetFields_length t
theorem jmp (t : Target) : Statement (.jmp t) := targetFields_length t
theorem call (t : Target) : Statement (.call t) := targetFields_length t
theorem inp (rd : Reg) (port : Port) : Statement (.inp rd port) := portFields_length port
theorem outp (rd : Reg) (port : Port) : Statement (.outp rd port) := portFields_length port
theorem push (rd : Reg) : Statement (.push rd) := rfl
theorem pop (rd : Reg) : Statement (.pop rd) := rfl
theorem ret : Statement (.ret) := rfl
theorem reti : Statement (.reti) := rfl
theorem ei : Statement (.ei) := rfl
theorem di : Statement (.di) := rfl
theorem svc : Statement (.svc) := rfl
theorem halt : Statement (.halt) := rfl

end EncodeLength
end Sys2Proof.Laws
end

