-- ==== Sys2Proof/Tests/Slice0.lean ====
section
/-! SUPPORT. Tests on single steps, and for each statement of Certificates/Slice0 with hypotheses a witness: a state and
operands that meet them. The expected values are those of 95_test_vectors.md, whose row is named, or are worked out by
hand from the rule that is named. -/

namespace Sys2Proof.Tests

open Sys2Proof Sys2Proof.Machine

/-! ## Small states -/

def setRegs (s : State) : List (Reg × Word) → State
  | [] => s
  | x :: xs => setRegs (s.setReg x.1 x.2) xs

def setWords (s : State) : List (Word × Word) → State
  | [] => s
  | x :: xs => setWords (s.storeBytes x.1 (wordBytes x.2)) xs

/-- Privileged mode at 0100h, with these registers and memory words. -/
def start (regs : List (Reg × Word)) (words : List (Word × Word)) : State :=
  setWords (setRegs { State.reset with pc := 0x0100 } regs) words

/-- User mode at 0100h with the limits `lo` and `hi` and SSP = 1000h; `.sp` is USP. -/
def user (lo hi : Word) (regs : List (Reg × Word)) (words : List (Word × Word)) : State :=
  setWords (setRegs { State.reset with
    pc := 0x0100, ssp := 0x1000, mplow := lo, mphigh := hi, flags := { State.reset.flags with p := false } } regs) words

/-- Other result flags. -/
def flagged (s : State) (v c n z : Bool) : State := s.setVcsz { v := v, c := c, s := n, z := z }

/-- A request on these lines at the next boundary, with E = `e`. -/
def requested (s : State) (e : Bool) (lines : BitVec 10) : State :=
  { s.setE e with inputs := [{ irq := lines, sdWrites := [] }] }

/-- A state that follows the handler of every exception. -/
def following (s : State) : State := { s with runEndsAt := [] }

/-- What is seen of the state after one step; nothing where the step has no next state. -/
def after {α : Type} (s : State) (f : State → α) : Option α :=
  match step s with
  | .next t => some (f t)
  | .fault _ => none
  | .refused _ => none

/-- Why a step has no next state. -/
def stopOf (s : State) : Option (Fault ⊕ Refusal) :=
  match step s with
  | .next _ => none
  | .fault f => some (.inl f)
  | .refused r => some (.inr r)

/-- The two bytes of the memory word at an address. -/
def wordAt (s : State) (a : Nat) : Option Byte × Option Byte := (s.byteAt a, s.byteAt (a + 1))

/-! ## WellFormed: MULL and DIVL (43_mul_div.md R133, R134) -/

/-- 95_test_vectors.md M15. -/
theorem test_wellFormed_refuses_odd_mull : wellFormed (.mull (.g 1) (.reg (.g 0))) = false := by
  decide

/-- 95_test_vectors.md M16. -/
theorem test_wellFormed_refuses_usp_mull : wellFormed (.mull .usp (.reg (.g 0))) = false := by
  decide

theorem test_wellFormed_refuses_sp_mull : wellFormed (.mull .sp (.imm 2)) = false := by
  decide

theorem test_wellFormed_refuses_odd_divl : wellFormed (.divl (.g 11) (.imm 2)) = false := by
  decide

theorem test_wellFormed_refuses_sp_divl : wellFormed (.divl .sp (.imm 2)) = false := by
  decide

theorem test_wellFormed_admits_g12 :
    wellFormed (.mull (.g 12) (.imm 2)) = true ∧ wellFormed (.divl (.g 12) (.imm 2)) = true := by
  decide

/-! ## Decoding: words written out from the formats (30_encoding.md R72) and the OP map (R74) -/

/-- OP = 00001 ++ mode; then Rd ++ Rx, Rx at 0, Rx, 0, D4, Rs, I4, Rx, Rx. -/
theorem test_decode_ld :
    decodeBytes [0b00001000, 0b00000000, 0x02, 0x00] = .ok (.ld (.g 0) (.mem (.drct 0x0200)), []) ∧
      decodeBytes [0b00001001, 0b00000001, 0x02, 0x00] = .ok (.ld (.g 0) (.mem (.index 0x0200 (.g 1))), []) ∧
      decodeBytes [0b00001010, 0b00010000, 0x12, 0x34] = .ok (.ld (.g 1) (.imm 0x1234), []) ∧
      decodeBytes [0b00001011, 0b00011110] = .ok (.ld (.g 1) (.mem (.fpRel 0xE)), []) ∧
      decodeBytes [0b00001100, 0b11010001] = .ok (.ld .sp (.reg (.g 1)), []) ∧
      decodeBytes [0b00001101, 0b00001000] = .ok (.ld (.g 0) (.imm4 8), []) ∧
      decodeBytes [0b00001110, 0b11101100] = .ok (.ld .usp (.mem (.indr (.g 12))), []) ∧
      decodeBytes [0b00001111, 0b00000010] = .ok (.ld (.g 0) (.mem (.bIndr (.g 2))), []) := by
  and_intros <;> decide

/-- NO, LD Rd,FLAG (OP 14h) and the five modes of ST. -/
theorem test_decode_transfer :
    decodeBytes [0b00000000, 0b00000000] = .ok (.no, []) ∧
      decodeBytes [0b00010100, 0b00100000] = .ok (.ldFlag (.g 2), []) ∧
      decodeBytes [0b00010000, 0b00000000, 0xFF, 0xE0] = .ok (.st (.g 0) (.drct 0xFFE0), []) ∧
      decodeBytes [0b00010001, 0b00000001, 0x00, 0x02] = .ok (.st (.g 0) (.index 2 (.g 1)), []) ∧
      decodeBytes [0b00010011, 0b00010001] = .ok (.st (.g 1) (.fpRel 1), []) ∧
      decodeBytes [0b00010110, 0b00000001] = .ok (.st (.g 0) (.indr (.g 1)), []) ∧
      decodeBytes [0b00010111, 0b00000001] = .ok (.st (.g 0) (.bIndr (.g 1)), []) := by
  and_intros <;> decide

/-- The rows 00011 to 01110 of the OP map, one word each. -/
theorem test_decode_arith :
    decodeBytes [0b00011101, 0b00010011] = .ok (.add (.g 1) (.imm4 3), []) ∧
      decodeBytes [0b00100101, 0b00010001] = .ok (.sub (.g 1) (.imm4 1), []) ∧
      decodeBytes [0b00101101, 0b00001000] = .ok (.cmp (.g 0) (.imm4 8), []) ∧
      decodeBytes [0b00110100, 0b00000001] = .ok (.and (.g 0) (.reg (.g 1)), []) ∧
      decodeBytes [0b00111100, 0b00000000] = .ok (.or (.g 0) (.reg (.g 0)), []) ∧
      decodeBytes [0b01000101, 0b00111111] = .ok (.xor (.g 3) (.imm4 15), []) ∧
      decodeBytes [0b01001100, 0b00010010] = .ok (.adds (.g 1) (.reg (.g 2)), []) ∧
      decodeBytes [0b01010101, 0b00000110] = .ok (.mul (.g 0) (.imm4 6), []) ∧
      decodeBytes [0b01011101, 0b00000111] = .ok (.div (.g 0) (.imm4 7), []) ∧
      decodeBytes [0b01100100, 0b00000001] = .ok (.mod (.g 0) (.reg (.g 1)), []) ∧
      decodeBytes [0b01101010, 0b00100000, 0x01, 0x00] = .ok (.mull (.g 2) (.imm 0x0100), []) ∧
      decodeBytes [0b01110010, 0b00100000, 0x01, 0x00] = .ok (.divl (.g 2) (.imm 0x0100), []) := by
  and_intros <;> decide

/-- The rows 10000 to 10011 of the OP map. -/
theorem test_decode_shift :
    decodeBytes [0b10000101, 0b00010100] = .ok (.shla (.g 1) (.imm4 4), []) ∧
      decodeBytes [0b10001010, 0b00010000, 0x00, 0x08] = .ok (.shll (.g 1) (.imm 8), []) ∧
      decodeBytes [0b10010101, 0b00010100] = .ok (.shra (.g 1) (.imm4 4), []) ∧
      decodeBytes [0b10011101, 0b00010100] = .ok (.shrl (.g 1) (.imm4 4), []) := by
  and_intros <;> decide

/-- OP = 10100 ++ mode (0, 1 or 6), Rd the condition number (R78). -/
theorem test_decode_jumps :
    decodeBytes [0b10100000, 0b00000000, 0x02, 0x00] = .ok (.jz (.drct 0x0200), []) ∧
      decodeBytes [0b10100001, 0b00010001, 0x00, 0x10] = .ok (.jc (.index 0x0010 (.g 1)), []) ∧
      decodeBytes [0b10100110, 0b00100101] = .ok (.jm (.indr (.g 5)), []) ∧
      decodeBytes [0b10100000, 0b00110000, 0x02, 0x00] = .ok (.jo (.drct 0x0200), []) ∧
      decodeBytes [0b10100001, 0b01000001, 0x00, 0x10] = .ok (.jgt (.index 0x0010 (.g 1)), []) ∧
      decodeBytes [0b10100110, 0b01010101] = .ok (.jge (.indr (.g 5)), []) ∧
      decodeBytes [0b10100000, 0b01100000, 0x02, 0x00] = .ok (.jle (.drct 0x0200), []) ∧
      decodeBytes [0b10100001, 0b01110001, 0x00, 0x10] = .ok (.jlt (.index 0x0010 (.g 1)), []) ∧
      decodeBytes [0b10100110, 0b10000101] = .ok (.jnz (.indr (.g 5)), []) ∧
      decodeBytes [0b10100000, 0b10010000, 0x02, 0x00] = .ok (.jnc (.drct 0x0200), []) ∧
      decodeBytes [0b10100001, 0b10100001, 0x00, 0x10] = .ok (.jnm (.index 0x0010 (.g 1)), []) ∧
      decodeBytes [0b10100110, 0b10110101] = .ok (.jno (.indr (.g 5)), []) ∧
      decodeBytes [0b10100000, 0b11000000, 0x02, 0x00] = .ok (.jhi (.drct 0x0200), []) ∧
      decodeBytes [0b10100110, 0b11100101] = .ok (.jls (.indr (.g 5)), []) ∧
      decodeBytes [0b10100000, 0b11110000, 0x02, 0x00] = .ok (.jmp (.drct 0x0200), []) := by
  and_intros <;> decide

/-- CALL, IN, OUT, PUSH and POP. -/
theorem test_decode_call_io_stack :
    decodeBytes [0b10101000, 0b00000000, 0x02, 0x00] = .ok (.call (.drct 0x0200), []) ∧
      decodeBytes [0b10101001, 0b00000011, 0x00, 0x10] = .ok (.call (.index 0x0010 (.g 3)), []) ∧
      decodeBytes [0b10101110, 0b00000011] = .ok (.call (.indr (.g 3)), []) ∧
      decodeBytes [0b10110000, 0b00000000, 0x00, 0xF4] = .ok (.inp (.g 0) (.drct 0x00F4), []) ∧
      decodeBytes [0b10110110, 0b00000001] = .ok (.inp (.g 0) (.indr (.g 1)), []) ∧
      decodeBytes [0b10110111, 0b00000001] = .ok (.inp (.g 0) (.bIndr (.g 1)), []) ∧
      decodeBytes [0b10111000, 0b00000000, 0x00, 0xF6] = .ok (.outp (.g 0) (.drct 0x00F6), []) ∧
      decodeBytes [0b10111110, 0b00000001] = .ok (.outp (.g 0) (.indr (.g 1)), []) ∧
      decodeBytes [0b10111111, 0b00000001] = .ok (.outp (.g 0) (.bIndr (.g 1)), []) ∧
      decodeBytes [0b11000000, 0b00110000] = .ok (.push (.g 3), []) ∧
      decodeBytes [0b11000100, 0b11010000] = .ok (.pop .sp, []) := by
  and_intros <;> decide

/-- The words that the instruction table prints in full (95_test_vectors.md 1.1). -/
theorem test_decode_bare :
    decodeBytes [0xD0, 0x00] = .ok (.ret, []) ∧
      decodeBytes [0xD4, 0x00] = .ok (.reti, []) ∧
      decodeBytes [0xE0, 0x00] = .ok (.ei, []) ∧
      decodeBytes [0xE4, 0x00] = .ok (.di, []) ∧
      decodeBytes [0xF0, 0x00] = .ok (.svc, []) ∧
      decodeBytes [0xFF, 0x00] = .ok (.halt, []) := by
  and_intros <;> decide

/-- Whether the decoder answers every one of these first words with the reason `r`. -/
def allRejected (r : Reject) : List Word → Bool
  | [] => true
  | w :: ws => decide (decode w 0 = .error r) && allRejected r ws

/-- 95_test_vectors.md 2.12, the words answered "undefined". -/
theorem test_decode_undefined :
    allRejected .undefined [0x0100, 0x0700, 0x1200, 0x1500, 0x7800, 0x7F00, 0xA0D0, 0xA1D3, 0xA200,
      0xA700, 0xAA00, 0xB100, 0xC100, 0xC800, 0xD800, 0xE800, 0xF100, 0xFE00] = true := by
  decide

/-- 95_test_vectors.md 2.12, J10, K8 and Y2, the words answered "reserved". -/
theorem test_decode_reserved :
    allRejected .reserved [0x0001, 0x0801, 0x0A01, 0x1401, 0xA001, 0xA810, 0xC011, 0xD010, 0xFF01] = true := by
  decide

/-- 95_test_vectors.md 2.12, the register field Fh. -/
theorem test_decode_pc : decode 0x0C0F 0 = .error .pcOperand ∧ decode 0x0CF0 0 = .error .pcOperand := by
  decide

/-- Whether an OP value begins a defined instruction, and of how many words: 95_test_vectors.md 2.12, "Counts a model can
check". -/
def opWords (op : Nat) : Nat :=
  match decode (firstWord (BitVec.ofNat 8 op) 0 0) 0 with
  | .ok i => instrWords i
  | .error _ => 0

theorem test_op_counts :
    ((List.range 256).filter fun n => opWords n = 0).length = 93 ∧
      ((List.range 256).filter fun n => opWords n = 2).length = 59 ∧
      ((List.range 256).filter fun n => opWords n = 1).length = 104 := by
  decide

/-- The numbering of a table word: the second word is bits 31 to 16. -/
theorem test_table_word :
    decodeTableWord 16 0xC430 = some (.pop (.g 3)) ∧
      decodeTableWord 32 0x01000A10 = some (.ld (.g 1) (.imm 0x0100)) := by
  decide

/-! ## One step -/

/-- Y1. -/
theorem test_no :
    after (start [(.g 0, 0x0007)]
        [(0x0100, 0x0000)])
        (fun t => (t.reg (.g 0), t.pc)) = some (7, 0x0102) := by
  decide

/-- T2. -/
theorem test_ld_index :
    after (start [(.g 1, 0x0004)]
        [(0x0100, 0x0901), (0x0102, 0x0200), (0x0204, 0x5678)])
        (fun t => (t.reg (.g 0), t.pc)) = some (0x5678, 0x0104) := by
  decide

/-- T14: a byte is zero-extended. -/
theorem test_ld_byte :
    after (start [(.g 2, 0x0080)]
        [(0x0100, 0x0F02), (0x0080, 0xFF00)])
        (fun t => (t.reg (.g 0), t.pc)) = some (0x00FF, 0x0102) := by
  decide

/-- S11. -/
theorem test_ldFlag :
    after (flagged ((start [] [(0x0100, 0x1400)]).setE true) false true false true) (fun t => t.reg (.g 0)) =
      some 0x00C5 := by
  decide

/-- S1, big-endian. -/
theorem test_st_word :
    after (start [(.g 0, 0xBEEF)]
        [(0x0100, 0x1000), (0x0102, 0x0200)])
        (fun t => (wordAt t 0x0200, t.pc)) = some ((some 0xBE, some 0xEF), 0x0104) := by
  decide

/-- S6. -/
theorem test_st_byte :
    after (start [(.g 0, 0xBEEF), (.g 1, 0x0201)]
        [(0x0100, 0x1701), (0x0200, 0x1122)])
        (fun t => wordAt t 0x0200) = some (some 0x11, some 0xEF) := by
  decide

/-- 2.3, FFFFh + 1. -/
theorem test_add_carry :
    after (start [(.g 0, 0xFFFF)]
        [(0x0100, 0x1D01)])
        (fun t => (t.reg (.g 0),
        (t.flags.v, t.flags.c, t.flags.s, t.flags.z))) = some (0, (false, true, false, true)) := by
  decide

/-- 2.3, 8000h + FFFFh. -/
theorem test_add_overflow :
    after (start [(.g 0, 0x8000)]
        [(0x0100, 0x1D0F)])
        (fun t => (t.reg (.g 0),
        (t.flags.v, t.flags.c, t.flags.s, t.flags.z))) = some (0x7FFF, (true, true, false, false)) := by
  decide

/-- 2.3, 7FFFh - FFFFh. -/
theorem test_sub_borrow :
    after (start [(.g 0, 0x7FFF)]
        [(0x0100, 0x250F)])
        (fun t => (t.reg (.g 0),
        (t.flags.v, t.flags.c, t.flags.s, t.flags.z))) = some (0x8000, (true, true, true, false)) := by
  decide

/-- 2.3, 0000h against FFF8h: G0 stays. -/
theorem test_cmp :
    after (start []
        [(0x0100, 0x2D08)])
        (fun t => (t.reg (.g 0),
        (t.flags.v, t.flags.c, t.flags.s, t.flags.z))) = some (0, (false, true, false, false)) := by
  decide

/-- L1. -/
theorem test_and :
    after (start [(.g 0, 0xF0F0)]
        [(0x0100, 0x3200), (0x0102, 0x0FF0)])
        (fun t => (t.reg (.g 0), t.flags.s, t.flags.z)) = some (0x00F0, false, false) := by
  decide

/-- L4. -/
theorem test_or :
    after (start [(.g 0, 0x0110)]
        [(0x0100, 0x3A00), (0x0102, 0x8001)])
        (fun t => (t.reg (.g 0), t.flags.s, t.flags.z)) = some (0x8111, true, false) := by
  decide

/-- L7. -/
theorem test_xor :
    after (start [(.g 3, 0x00FF)]
        [(0x0100, 0x453F)])
        (fun t => (t.reg (.g 3), t.flags.s, t.flags.z)) = some (0xFF00, true, false) := by
  decide

/-- L10. -/
theorem test_adds :
    after (start [(.g 1, 0x5555)]
        [(0x0100, 0x4C11)])
        (fun t => (t.reg (.g 1), t.flags.s, t.flags.z)) = some (0xFFFF, true, false) := by
  decide

/-- M2. -/
theorem test_mul :
    after (start [(.g 0, 0xFFFF), (.g 1, 0xFFFF)]
        [(0x0100, 0x5401)])
        (fun t => (t.reg (.g 0), t.flags.s, t.flags.z)) = some (1, false, false) := by
  decide

/-- M8: unsigned. -/
theorem test_div :
    after (start [(.g 0, 0xFFFE)]
        [(0x0100, 0x5D0F)])
        (fun t => (t.reg (.g 0), t.flags.z)) = some (0, true) := by
  decide

/-- M9: unsigned. -/
theorem test_mod :
    after (start [(.g 0, 0xFFFE)]
        [(0x0100, 0x650F)])
        (fun t => (t.reg (.g 0), t.flags.s)) = some (0xFFFE, true) := by
  decide

/-- M13. -/
theorem test_mull :
    after (start [(.g 0, 0xFFFF), (.g 1, 0xFFFF)]
        [(0x0100, 0x6C01)])
        (fun t => (t.reg (.g 0), t.reg (.g 1))) = some (0x0001, 0xFFFE) := by
  decide

/-- The pair of G12 is SP (R133). -/
theorem test_mull_g12 :
    after (start [(.g 12, 0xFFFF)]
        [(0x0100, 0x6AC0), (0x0102, 0xFFFF)])
        (fun t => (t.reg (.g 12), t.ssp)) = some (0x0001, 0xFFFE) := by
  decide

/-- M18. -/
theorem test_divl :
    after (start [(.g 0, 0x0003), (.g 1, 0x0001)]
        [(0x0100, 0x7200), (0x0102, 0x000A)])
        (fun t => (t.reg (.g 0), t.reg (.g 1))) = some (0x1999, 0x0009) := by
  decide

/-- M19: the quotient does not fit. -/
theorem test_divl_overflow_completes :
    after (start [(.g 0, 0x0003), (.g 1, 0x0001)]
        [(0x0100, 0x7200), (0x0102, 0x0001)])
        (fun t => t.pc) = some 0x0104 := by
  decide

/-- H12. -/
theorem test_shla :
    after (start [(.g 1, 0x0001), (.g 2, 0x000F)]
        [(0x0100, 0x8412)])
        (fun t => (t.reg (.g 1), t.flags.s, t.flags.z)) = some (0x8000, true, false) := by
  decide

/-- H4. -/
theorem test_shll :
    after (start [(.g 1, 0x8000)]
        [(0x0100, 0x8D11)])
        (fun t => (t.reg (.g 1), t.flags.z)) = some (0, true) := by
  decide

/-- H7. -/
theorem test_shra :
    after (start [(.g 1, 0x8000)]
        [(0x0100, 0x9210), (0x0102, 0x000F)])
        (fun t => (t.reg (.g 1), t.flags.s)) = some (0xFFFF, true) := by
  decide

/-- H8. -/
theorem test_shrl :
    after (start [(.g 1, 0x8000)]
        [(0x0100, 0x9A10), (0x0102, 0x000F)])
        (fun t => t.reg (.g 1)) = some 1 := by
  decide

/-- H10: a count above 15. -/
theorem test_shift_big_completes :
    after (start [(.g 1, 0x0003)]
        [(0x0100, 0x8D1F)])
        (fun t => t.pc) = some 0x0102 := by
  decide

/-- The jumps that 95_test_vectors.md 2.4 lists for these flags: the condition numbers taken, at 0200h. -/
def taken (v c n z : Bool) : List Nat :=
  (List.range 16).filter fun k =>
    after (flagged (start [] [(0x0100, firstWord 0xA0 (BitVec.ofNat 4 k) 0), (0x0102, 0x0200)]) v c n z)
      (fun t => t.pc) = some 0x0200

/-- After CMP of 0005h, 0003h: JGT JGE JNZ JNC JNM JNO JHI JMP. -/
theorem test_jumps_row1 : taken false false false false = [4, 5, 8, 9, 10, 11, 12, 15] := by
  decide

/-- After CMP of 0003h, 0005h: JC JM JLE JLT JNZ JNO JLS JMP. -/
theorem test_jumps_row2 : taken false true true false = [1, 2, 6, 7, 8, 11, 14, 15] := by
  decide

/-- After CMP of 1234h, 1234h: JZ JGE JLE JNC JNM JNO JLS JMP. -/
theorem test_jumps_row3 : taken false false false true = [0, 5, 6, 9, 10, 11, 14, 15] := by
  decide

/-- After CMP of 8000h, 0001h: JO JLE JLT JNZ JNC JNM JHI JMP. -/
theorem test_jumps_row4 : taken true false false false = [3, 6, 7, 8, 9, 10, 12, 15] := by
  decide

/-- After CMP of 0001h, 8000h: JC JM JO JGT JGE JNZ JLS JMP. -/
theorem test_jumps_row5 : taken true true true false = [1, 2, 3, 4, 5, 8, 14, 15] := by
  decide

/-- After CMP of FFFFh, 0001h: JM JLE JLT JNZ JNC JNO JHI JMP. -/
theorem test_jumps_row6 : taken false false true false = [2, 6, 7, 8, 9, 11, 12, 15] := by
  decide

/-- J7: a one-word jump falls through by 2. -/
theorem test_jump_not_taken :
    after (start [(.g 5, 0x0300)]
        [(0x0100, 0xA605)])
        (fun t => t.pc) = some 0x0102 := by
  decide

/-- J8: the jump itself completes. -/
theorem test_jump_odd_target :
    after (start []
        [(0x0100, 0xA0F0), (0x0102, 0x0201)])
        (fun t => t.pc) = some 0x0201 := by
  decide

/-- K11. -/
theorem test_call :
    after (start [(.g 3, 0x0400), (.sp, 0x1000)]
        [(0x0100, 0xA903), (0x0102, 0x0010)])
        (fun t => (t.pc, t.ssp, wordAt t 0x0FFE)) = some (0x0410, 0x0FFE, (some 0x01, some 0x04)) := by
  decide

/-- I3. -/
theorem test_in_limit :
    after (start []
        [(0x0100, 0xB000), (0x0102, 0x00F4)])
        (fun t => (t.reg (.g 0), t.ioLog)) = some (0, [.read 0xF4 .word]) := by
  decide

/-- I2. -/
theorem test_out_limit :
    after (start [(.g 0, 0x9FFF)]
        [(0x0100, 0xB800), (0x0102, 0x00F6)])
        (fun t => (t.mphigh, t.mplow, t.ioLog)) = some (0x9FFF, 0, [.write 0xF6 .word 0x9FFF]) := by
  decide

/-- An OUT of one byte presents bits 7 to 0, and port 10h lets the micro-SD controller at memory (R56, R62). -/
theorem test_out_byte :
    after (start [(.g 0, 0x1234), (.g 1, 0x0010)]
        [(0x0100, 0xBF01)])
        (fun t => (t.ioLog, t.sdArmed)) = some ([.write 0x10 .byte 0x34], true) := by
  decide

/-- K3: SP wraps. -/
theorem test_push :
    after (start [(.g 1, 0xABCD)]
        [(0x0100, 0xC010)])
        (fun t => (t.ssp, wordAt t 0xFFFE)) = some (0xFFFE, (some 0xAB, some 0xCD)) := by
  decide

/-- K4. -/
theorem test_push_user :
    after (user 0 0xFFFF [(.g 1, 0x0001), (.sp, 0x3000)]
        [(0x0100, 0xC010)])
        (fun t => (t.usp, t.ssp, wordAt t 0x2FFE)) = some (0x2FFE, 0x1000, (some 0x00, some 0x01)) := by
  decide

/-- K2. -/
theorem test_pop :
    after (start [(.sp, 0x0FFE)]
        [(0x0100, 0xC420), (0x0FFE, 0xABCD)])
        (fun t => (t.reg (.g 2), t.ssp)) = some (0xABCD, 0x1000) := by
  decide

/-- K13: the value popped is not checked. -/
theorem test_ret :
    after (start [(.sp, 0x0FFE)]
        [(0x0100, 0xD000), (0x0FFE, 0x0105)])
        (fun t => (t.pc, t.ssp)) = some (0x0105, 0x1000) := by
  decide

/-- K15. -/
theorem test_reti :
    after (start [(.sp, 0x0FFC)]
        [(0x0100, 0xD400), (0x0FFC, 0xFFFF), (0x0FFE, 0x2000)])
        (fun t => (t.flags.toWord, t.pc, t.ssp)) = some (0x00CF, 0x2000, 0x1000) := by
  decide

/-- Y3. -/
theorem test_ei :
    after (start []
        [(0x0100, 0xE000)])
        (fun t => (t.flags.toWord, t.pc)) = some (0x00C0, 0x0102) := by
  decide

/-- Y4. -/
theorem test_di :
    after ((start [] [(0x0100, 0xE400)]).setE true) (fun t => (t.flags.toWord, t.pc)) = some (0x0040, 0x0102) := by
  decide

/-- Y6, at 0100h. -/
theorem test_svc :
    after (user 0 0xFFFF [(.usp, 0x3000)]
        [(0x0100, 0xF000), (0xFFFE, 0x0400)])
        (fun t => (t.pc, t.ssp, t.usp, wordAt t 0x0FFE, wordAt t 0x0FFC)) =
        some (0x0400, 0x0FFC, 0x3000, (some 0x01, some 0x02), (some 0x00, some 0x00)) := by
  decide

/-- Y8. -/
theorem test_halt :
    after (start []
        [(0x0100, 0xFF00)])
        (fun t => (t.halted, t.pc)) = some (true, 0x0102) := by
  decide

/-! ## Traps and interrupts -/

/-- M11 and X4, with Z = 0. -/
theorem test_zeroDivide :
    after (start [(.g 0, 0x0064), (.sp, 0x1000)]
        [(0x0100, 0x5D00), (0xFFF8, 0x0500)])
        (fun t => (t.reg (.g 0), t.pc, t.ssp, wordAt t 0x0FFE, wordAt t 0x0FFC)) =
        some (0x64, 0x0500, 0x0FFC, (some 0x01, some 0x02), (some 0x00, some 0x40)) := by
  decide

/-- X1, following the handler. -/
theorem test_oddAddress :
    after (following (start [(.sp, 0x1000)]
        [(0x0100, 0x0800), (0x0102, 0x0201), (0xFFF4, 0x0400)]))
        (fun t => (t.reg (.g 0), t.pc, wordAt t 0x0FFE)) = some (0, 0x0400, (some 0x01, some 0x04)) := by
  decide

/-- X3, following the handler. -/
theorem test_limitViolation :
    after (following (user 0x0100 0x01FF []
        [(0x0100, 0x0800), (0x0102, 0x0200), (0x0200, 0x0001), (0xFFF6, 0x0800)]))
        (fun t => (t.pc, t.ssp, t.flags.toWord, wordAt t 0x0FFE)) =
        some (0x0800, 0x0FFC, 0x0040, (some 0x01, some 0x04)) := by
  decide

/-- I9: the second word is not fetched. -/
theorem test_privilegeViolation :
    after (user 0 0xFFFF []
        [(0x0100, 0xB000), (0xFFFA, 0x0600)])
        (fun t => (t.pc, wordAt t 0x0FFE, wordAt t 0x0FFC)) = some (0x0600, (some 0x01, some 0x04),
        (some 0x00, some 0x00)) := by
  decide

/-- X6, following the handler. -/
theorem test_undefined :
    after (following (start [(.sp, 0x1000)]
        [(0x0100, 0x1200), (0xFFFC, 0x0700)]))
        (fun t => (t.pc, wordAt t 0x0FFE)) = some (0x0700, (some 0x01, some 0x02)) := by
  decide

/-- 60_exceptions.md R204: from reset X1 and X3 end the run. -/
theorem test_operand_exceptions_end_the_run :
    stopOf (start [(.sp, 0x1000)] [(0x0100, 0x0800), (0x0102, 0x0201), (0xFFF4, 0x0400)]) =
        some (.inl (.exceptionEndsRun .oddAddress)) ∧
      stopOf (user 0x0100 0x01FF [] [(0x0100, 0x0800), (0x0102, 0x0200), (0x0200, 0x0001), (0xFFF6, 0x0800)]) =
        some (.inl (.exceptionEndsRun .limitViolation)) := by
  decide

/-- 30_encoding.md R80, 93_implementation_defined.md U1: from reset X5, and a jump with Rd = Dh, end the run. -/
theorem test_undefined_ends_the_run :
    stopOf (start [(.sp, 0x1000)] [(0x0100, 0x0100), (0xFFFC, 0x0700)]) =
        some (.inl (.exceptionEndsRun .undefinedInstruction)) ∧
      stopOf (start [(.sp, 0x1000)] [(0x0100, 0xA0D0), (0xFFFC, 0x0700)]) =
        some (.inl (.exceptionEndsRun .undefinedInstruction)) := by
  decide

/-- R204: so does X7. -/
theorem test_fetch_exception_ends_the_run :
    stopOf ({ start [(.sp, 0x1000)] [(0xFFF4, 0x0400)] with pc := 0x0201 }) =
      some (.inl (.exceptionEndsRun .oddAddress)) := by
  decide

/-- X7, following the handler: the saved PC is a free value. -/
theorem test_fetch_oddAddress :
    after (following { start [(.sp, 0x1000)] [(0xFFF4, 0x0400)] with pc := 0x0201 }) (fun t => (t.pc, t.ssp)) =
      some (0x0400, 0x0FFC) := by
  decide

/-- X8, following the handler. -/
theorem test_trap_odd_ssp :
    stopOf (following (start [(.sp, 0x0FFF)] [(0x0100, 0x0100), (0xFFFC, 0x0700)])) = some (.inl .trapEntryOddSsp) := by
  decide

/-- X9, following the handler. -/
theorem test_trap_unwritten_vector :
    stopOf (following (start [(.sp, 0x1000)] [(0x0100, 0x0100)])) = some (.inl (.unwritten 0xFFFC)) := by
  decide

/-- X10 at 0100h, with Z = 0. -/
theorem test_interrupt :
    after (requested (user 0 0xFFFF [] [(0xFFE0, 0x0500)]) true 1)
      (fun t => (t.pc, t.flags.toWord, wordAt t 0x0FFC)) =
      some (0x0500, 0x0040, (some 0x00, some 0x80)) := by
  decide

/-- X11. -/
theorem test_interrupt_masked :
    after (requested (user 0 0xFFFF [] [(0x0100, 0x0000)]) false 1) (fun t => t.pc) = some 0x0102 := by
  decide

/-! ## Stops -/

/-- S8. -/
theorem test_refuses_rom_store :
    stopOf (start [(.g 0, 0x0001)] [(0x0100, 0x1000), (0x0102, 0xF000)]) = some (.inr .romWrite) := by
  decide

/-- T19. -/
theorem test_refuses_pc :
    stopOf (start [] [(0x0100, 0x0C0F)]) = some (.inr .pcOperand) := by
  decide

/-- J10. -/
theorem test_refuses_reserved :
    stopOf (start [] [(0x0100, 0xA001), (0x0102, 0x0200)]) = some (.inr .reservedWord) := by
  decide

/-- M15. -/
theorem test_refuses_odd_pair :
    stopOf (start [] [(0x0100, 0x6C10)]) = some (.inr .registerPair) := by
  decide

/-- I7. -/
theorem test_refuses_port_above :
    stopOf (start [] [(0x0100, 0xB000), (0x0102, 0x0100)]) = some (.inr .portAboveFF) := by
  decide

/-- I8. -/
theorem test_refuses_odd_port :
    stopOf (start [] [(0x0100, 0xB000), (0x0102, 0x0009)]) = some (.inr .oddWordPort) := by
  decide

/-- R51. -/
theorem test_refuses_limit_byte :
    stopOf (start [(.g 1, 0x00F5)] [(0x0100, 0xB701)]) = some (.inr .limitPortByte) := by
  decide

/-- K16. -/
theorem test_refuses_user_reti :
    stopOf (user 0 0xFFFF [] [(0x0100, 0xD400)]) = some (.inr .retiInUserMode) := by
  decide

/-- R45. -/
theorem test_unwritten :
    stopOf (start [] [(0x0100, 0x0800), (0x0102, 0x0200)]) = some (.inl (.unwritten 0x0200)) := by
  decide

/-- 20_memory.md R48. -/
theorem test_fetch_reserved :
    stopOf ({ start [] [] with pc := 0xE000 }) = some (.inl (.fetchReserved 0xE000)) := by
  decide

/-- Log 2. -/
theorem test_reset_has_no_program : stopOf State.reset = some (.inr .iplImageAbsent) := by
  decide

/-- The instruction placed for the first step after reset is the one that runs. -/
theorem test_withFetchWord :
    (match step (State.reset.withFetchWord 16 0x0D05) with
      | .next t => some (t.reg (.g 0), t.pc)
      | .fault _ => none
      | .refused _ => none) = some (5, 0xF002) := by
  decide

/-- 60_exceptions.md R232: OUT G0,001Ch of 12F5h presents F5h, M = 1 and VVVV = 5. -/
theorem test_extPortHi_word :
    (after (start [(.g 0, 0x12F5)] [(0x0100, 0xB800), (0x0102, 0x001C)]) fun t => t.extPortHi) = some ⟨true, 5⟩ := by
  decide

/-- R232, 20_memory.md R56: OUT G0,@G1 with G1 = 001Dh presents the same byte, with G1 = 001Ch none. -/
theorem test_extPortHi_byte :
    (after (start [(.g 0, 0x12F5), (.g 1, 0x001D)] [(0x0100, 0xBF01)]) fun t => t.extPortHi) = some ⟨true, 5⟩ ∧
      (after (start [(.g 0, 0x12F5), (.g 1, 0x001C)] [(0x0100, 0xBF01)]) fun t => t.extPortHi) = some ⟨false, 0⟩ := by
  decide

/-- 46_io.md R170, 60_exceptions.md R230: the byte +0 of the row 1Ch reads 00h. -/
theorem test_in_drawn_zero :
    (after (start [(.g 0, 0xFFFF), (.g 1, 0x001C)] [(0x0100, 0xB701)]) fun t => t.reg (.g 0)) = some 0 := by
  decide

/-- 43_mul_div.md R131, its corner case: FFFFh / 0002h is 7FFFh unsigned, and 0 in a signed divider. -/
theorem test_muldiv_units :
    unsignedUnit.div 0xFFFF 2 = some 0x7FFF ∧ signedUnit.div 0xFFFF 2 = some 0 := by
  decide

/-- FFFFh times FFFFh is FFFE0001h unsigned (43_mul_div.md R133) and 1 signed; 8000h / FFFFh does not fit a signed word. -/
theorem test_muldiv_units_wide :
    unsignedUnit.mull 0xFFFF 0xFFFF = 0xFFFE0001 ∧ signedUnit.mull 0xFFFF 0xFFFF = 1 ∧
      signedUnit.div 0x8000 0xFFFF = none := by
  decide

/-! ## Witnesses: for each statement with hypotheses, a state and operands that meet them -/

/-- The checks of an access, decided. -/
def permitted (s : State) (a : Word) (n : Nat) : Bool :=
  decide (n = 2 → a.toNat % 2 = 0) &&
    (s.flags.p || (decide (s.mplow.toNat ≤ a.toNat) && decide (a.toNat + n - 1 ≤ s.mphigh.toNat)))

theorem permitted_iff {s : State} {a : Word} {n : Nat} (h : permitted s a n = true) : Permitted s a n := by
  simpa [permitted, Permitted, imp_iff_not_or] using h

/-- Whether memory holds a word, decided. -/
def holds (s : State) (a : Word) (hi lo : Byte) : Bool :=
  decide (region a.toNat ≠ .attr) && decide (region (a.toNat + 1) ≠ .attr) &&
    decide (s.byteAt a.toNat = some hi) && decide (s.byteAt (a.toNat + 1) = some lo)

theorem holdsWord_of {s : State} {a : Word} {hi lo : Byte} (h : holds s a hi lo = true) : HoldsWord s a hi lo := by
  simpa [holds, HoldsWord, and_assoc] using h

theorem keeps_of {a : Word} (h : (decide (region a.toNat ≠ .rom) && decide (region a.toNat ≠ .attr) &&
    decide (region (a.toNat + 1) ≠ .rom) && decide (region (a.toNat + 1) ≠ .attr)) = true) : Keeps a 2 := by
  simp only [Bool.and_eq_true, decide_eq_true_eq] at h
  intro k hk
  obtain rfl | rfl : k = 0 ∨ k = 1 := by omega
  · exact ⟨h.1.1.1, h.1.1.2⟩
  · exact ⟨h.1.2, h.2⟩

theorem writable_of {a : Word} {n : Nat} (h : (List.range n).all
      (fun k => decide (region (a.toNat + k) ≠ .rom)) = true) :
    Writable a n := by
  intro k hk
  have := List.all_eq_true.mp h k (List.mem_range.mpr hk)
  exact of_decide_eq_true this

/-- Privileged mode with SSP = 1000h. -/
def sys : State := start [(.sp, 0x1000)] []

/-- User mode with the limits 0100h and 2FFFh and USP = 3000h. -/
def usr : State := user 0x0100 0x2FFF [(.sp, 0x3000)] []

/-- A state for the witnesses. -/
def popState : State := start [(.sp, 0xFFFE)] [(0xFFFE, 0xABCD)]

/-- A state for the witnesses. -/
def retState : State := start [(.sp, 0x0FFE)] [(0x0FFE, 0x0105)]

/-- A state for the witnesses. -/
def oddState : State := start [(.sp, 1)] []

/-- A state for the witnesses. -/
def badCond : State := start [] [(0x0100, 0xA0D0)]

/-- A state for the witnesses. -/
def request9 : State := requested (start [] []) true 0x200

/-- A state for the witnesses. -/
def svcState : State := user 0 0xFFFF [] [(0x0100, 0xF000), (0xFFFE, 0x0400)]

/-- A state for the witnesses. -/
def inState : State := start [] [(0x0100, 0xB000), (0x0102, 0x00F4)]

/-- A state for the witnesses. -/
def badRet : State := start [] [(0x0100, 0xD010)]

/-- A state for the witnesses. -/
def byteAtLimit : State := user 0x0100 0x01FF [(.g 1, 0x01FF)] [(0x01FE, 0x1234)]

/-- A state for the witnesses. -/
def topWord : State := start [] [(0xFFFE, 0x1234)]

/-- A state in which a trap of vector `n` can be entered. -/
def trapState (n : Fin 16) : State := start [(.sp, 0x1000)] [(vectorAddr n, 0x0400)]

/-- A character in the video memory. -/
def videoState : State := start [] [(0xE000, 0x0041)]

theorem trapReady_of {n : Fin 16} {s : State} {hi lo : Byte} (he : s.ssp.toNat % 2 = 0)
    (n2 : s.ssp - 2 ≠ vectorAddr n) (n4 : s.ssp - 4 ≠ vectorAddr n)
    (h2 : (List.range 2).all (fun k => decide (region ((s.ssp - 2).toNat + k) ≠ .rom)) = true)
    (h4 : (List.range 2).all (fun k => decide (region ((s.ssp - 4).toNat + k) ≠ .rom)) = true)
    (hv : holds s (vectorAddr n) hi lo = true) : TrapReady n s hi lo :=
  ⟨he, writable_of h2, writable_of h4, holdsWord_of hv, n2, n4⟩

/-- One state for each clause on P. -/
theorem witness_RegisterReadsWhatWasWritten :
    sys.flags.p = true ∧ usr.flags.p = false := by
  decide

/-- A word at the top of memory, which `.drct 0xFFFE` names. -/
theorem witness_OperandOfEachMode :
    Permitted topWord 0xFFFE 2 ∧
      HoldsWord topWord 0xFFFE 0x12 0x34 := ⟨permitted_iff (by decide), holdsWord_of (by decide)⟩

/-- A byte at the upper limit. -/
theorem witness_OperandOfEachMode_byte :
    Permitted byteAtLimit 0x01FF 1 ∧ region 0x01FF ≠ .attr ∧
      byteAtLimit.byteAt 0x01FF = some 0x34 := ⟨permitted_iff (by decide), by decide, by decide⟩

/-- The first word and the last attribute byte of the video area, the word's second byte held. -/
theorem witness_OperandOfEachMode_attr :
    Permitted videoState 0xE000 2 ∧ region 0xE000 = .attr ∧ videoState.byteAt 0xE001 = some 0x41 ∧
      Permitted videoState 0xEFFE 1 ∧ region 0xEFFE = .attr :=
  ⟨permitted_iff (by decide), by decide, by decide, permitted_iff (by decide), by decide⟩

/-- An odd address; the first word and byte past the upper limit, and the last below the lower one; privileged mode. -/
theorem witness_AccessChecksInOrder :
    (0xFFFF : Word).toNat % 2 = 1 ∧ (0x3000 : Word).toNat % 2 = 0 ∧ usr.flags.p = false ∧
      (usr.mphigh.toNat < (0x3000 : Word).toNat + 1) ∧ (usr.mphigh.toNat < (0x3000 : Word).toNat) ∧
      ((0x00FE : Word).toNat < usr.mplow.toNat) ∧ sys.flags.p = true := by
  decide

/-- A word at the top of memory, and one that begins with a reserved attribute byte. -/
theorem witness_StoreChangesItsBytesAlone :
    Permitted sys 0xFFFE 2 ∧ Writable 0xFFFE 2 ∧ Permitted sys 0xE000 2 ∧ Writable 0xE000 2 := by
  refine ⟨permitted_iff ?_, writable_of ?_, permitted_iff ?_, writable_of ?_⟩ <;> decide

/-- A video byte and a reserved attribute byte. -/
theorem witness_StoreChangesItsBytesAlone_byte :
    Permitted sys 0xEFFF 1 ∧ Writable 0xEFFF 1 ∧ Permitted sys 0xE000 1 ∧ Writable 0xE000 1 := by
  refine ⟨permitted_iff ?_, writable_of ?_, permitted_iff ?_, writable_of ?_⟩ <;> decide

/-- The last word and the first byte of the ROM. -/
theorem witness_StoreChangesItsBytesAlone_rom :
    Permitted sys 0xFFDE 2 ∧ region 0xFFDE = .rom ∧ Permitted sys 0xF000 1 ∧ region 0xF000 = .rom := by
  refine ⟨permitted_iff ?_, ?_, permitted_iff ?_, ?_⟩ <;> decide

/-- A store of a word at 0200h. -/
def storing : State := start [(.g 0, 0xBEEF)] [(0x0100, 0x1000), (0x0102, 0x0200), (0xF000, 0x1234)]

theorem witness_EveryStepKeepsMemoryForm :
    Memory.wf storing.mem = true ∧ (after storing fun t => wordAt t 0x0200) = some (some 0xBE, some 0xEF) := by
  decide

/-- A run of one step, with a program in the ROM. -/
theorem witness_NoRunChangesRom :
    ∃ t, Reaches storing t ∧ t.byteAt 0xF000 = some 0x12 := by
  refine ⟨_, .step (.refl storing) (by rfl), ?_⟩
  decide

theorem witness_EncodeOfDecode :
    decodeBytes [0xA1, 0xF1, 0x00, 0x10, 0xFF] = .ok (.jmp (.index 0x0010 (.g 1)), [0xFF]) := by
  decide

theorem witness_JumpConditionTable :
    (0xA1 : Byte) ∈ [(0xA0 : Byte), 0xA1, 0xA6] ∧ (0xA6 : Byte) ∈ [(0xA0 : Byte), 0xA1, 0xA6] ∧
      decode (firstWord 0xA6 0xE 0x5) 0 = .ok (.jls (.indr (.g 5))) ∧ (0xAE : Byte) ∈ [(0xA8 : Byte), 0xA9, 0xAE] ∧
      decode (firstWord 0xAE 0 0x3) 0 = .ok (.call (.indr (.g 3))) := by
  and_intros <;> decide

/-- A two-word instruction at 0100h, in privileged mode. -/
def fetching : State := start [] [(0x0100, 0x0800), (0x0102, 0x0200), (0x0200, 0x1234)]

/-- IN in user mode, whose second word is not there. -/
def fetchingIn : State := user 0x0100 0x2FFF [] [(0x0100, 0xB000)]

theorem witness_StepRunsTheDecodedInstruction :
    fetching.halted = false ∧ acceptedIrq fetching = none ∧ Permitted fetching.boundary fetching.pc 2 ∧
      HoldsWord fetching.boundary fetching.pc 0x08 0x00 ∧
      decodeBytes [0x08, 0x00, 0x02, 0x00] = .ok (.ld (.g 0) (.mem (.drct 0x0200)), []) ∧
      Permitted fetching.boundary (fetching.pc + 2) 2 ∧ HoldsWord fetching.boundary (fetching.pc + 2) 0x02 0x00 ∧
      fetching.sdArmed = false := by
  refine ⟨?_, ?_, permitted_iff ?_, holdsWord_of ?_, ?_, permitted_iff ?_, holdsWord_of ?_, ?_⟩ <;> decide

theorem witness_StepRunsTheDecodedInstruction_violating :
    fetchingIn.halted = false ∧ acceptedIrq fetchingIn = none ∧ Permitted fetchingIn.boundary fetchingIn.pc 2 ∧
      HoldsWord fetchingIn.boundary fetchingIn.pc 0xB0 0x00 ∧
      decodeBytes [0xB0, 0x00, 0x00, 0xF4] = .ok (.inp (.g 0) (.drct 0x00F4), []) ∧
      privSet (.inp (.g 0) (.drct 0x00F4)) = true ∧ fetchingIn.flags.p = false ∧ instrWords .ret = 1 := by
  refine ⟨?_, ?_, permitted_iff ?_, holdsWord_of ?_, ?_, ?_, ?_, ?_⟩ <;> decide

theorem witness_UndefinedWordTraps :
    acceptedIrq badCond = none ∧ badCond.halted = false ∧
      Permitted badCond.boundary 0x0100 2 ∧
      HoldsWord badCond.boundary 0x0100 0xA0 0xD0 ∧ decode (wordOf 0xA0 0xD0) 0 = .error .undefined := by
  refine ⟨?_, ?_, permitted_iff ?_, holdsWord_of ?_, ?_⟩ <;> decide

/-- User mode with the PC just below and just past the limits, and a two-word instruction in the last word within. -/
def fetchBelow : State := { usr with pc := 0x00FE }
def fetchAbove : State := { usr with pc := 0x3000 }
def fetchSplit : State := { user 0x0100 0x2FFF [] [(0x2FFE, 0x0800)] with pc := 0x2FFE }

theorem witness_FetchExceptionsAreRaised :
    fetchBelow.halted = false ∧ acceptedIrq fetchBelow = none ∧ fetchBelow.flags.p = false ∧
      fetchBelow.pc.toNat % 2 = 0 ∧ fetchBelow.pc.toNat < fetchBelow.mplow.toNat ∧
      fetchAbove.pc.toNat % 2 = 0 ∧ fetchAbove.mphigh.toNat < fetchAbove.pc.toNat + 1 ∧
      ({ sys with pc := 0xFFFF } : State).pc.toNat % 2 = 1 := by
  and_intros <;> decide

theorem witness_FetchExceptionsAreRaised_second :
    fetchSplit.halted = false ∧ acceptedIrq fetchSplit = none ∧ Permitted fetchSplit.boundary fetchSplit.pc 2 ∧
      HoldsWord fetchSplit.boundary fetchSplit.pc 0x08 0x00 ∧
      decode (wordOf 0x08 0x00) 0 = .ok (.ld (.g 0) (.mem (.drct 0))) ∧
      instrWords (.ld (.g 0) (.mem (.drct 0))) = 2 ∧ privSet (.ld (.g 0) (.mem (.drct 0))) = false ∧
      fetchSplit.flags.p = false ∧ fetchSplit.mphigh.toNat < (fetchSplit.pc + 2).toNat + 1 := by
  refine ⟨?_, ?_, permitted_iff ?_, holdsWord_of ?_, ?_, ?_, ?_, ?_, ?_⟩ <;> decide

/-- Source 9 alone, masked, all ten at once, and none. -/
theorem witness_InterruptIsAcceptedWhenEnabled :
    request9.inputs = [⟨0x200, []⟩] ∧ request9.halted = false ∧
      request9.flags.e = true ∧ (0x200 : BitVec 10) = 1#10 <<< (9 : Fin 10).val ∧
      (requested (start [] []) false 0x200).flags.e = false ∧
      (requested (start [] []) true 0x3FF).inputs = [⟨0x3FF, []⟩] ∧
      (requested (start [] []) true 0).inputs = [⟨0, []⟩] := by
  and_intros <;> decide

/-- The first vector and the last; an exception that ends the run, and one that does not. -/
theorem witness_TrapEntrySavesThePsw :
    TrapReady 0 (trapState 0) 0x04 0x00 ∧ TrapReady 15 (trapState 15) 0x04 0x00 ∧
      (0x0FFF : Word).toNat % 2 = 1 ∧ Exc.oddAddress ∈ sys.runEndsAt ∧ Exc.zeroDivide ∉ sys.runEndsAt ∧
      Exc.oddAddress ∉ (following sys).runEndsAt := by
  refine ⟨trapReady_of ?_ ?_ ?_ ?_ ?_ ?_, trapReady_of ?_ ?_ ?_ ?_ ?_ ?_, ?_, ?_, ?_, ?_⟩ <;> decide

theorem witness_TrapEntrySavesThePsw_run : ∃ t, Reaches storing t ∧ t.pc = 0x0104 :=
  ⟨_, .step (.refl storing) (by rfl), by decide⟩

theorem witness_RetiUndoesTheTrapEntry :
    (∃ t, trapEntry 15 0x0102 (trapState 15) = .next t) ∧ Keeps ((trapState 15).ssp - 2) 2 ∧
      Keeps ((trapState 15).ssp - 4) 2 := ⟨⟨_, by rfl⟩, keeps_of (by decide), keeps_of (by decide)⟩

theorem witness_OperandExceptionIsRaised :
    operand (start [] []) (.mem (.drct 0x0201)) = .error (.trap .oddAddress) ∧
      operand (user 0x0100 0x01FF [] []) (.mem (.drct 0x0200)) = .error (.trap .limitViolation) ∧
      wellFormed (.divl (.g 12) (.mem (.drct 0x0201))) = true := by
  and_intros <;> decide

/-- A POP above the limit in user mode; an odd SP in privileged mode. -/
theorem witness_StoreAndStackExceptionsAreRaised :
    checkAccess usr 0x3000 2 = .error (.trap .limitViolation) ∧ usr.reg .sp = 0x3000 ∧
      checkAccess oddState 0xFFFF 2 = .error (.trap .oddAddress) ∧
      oddState.reg .sp - 2 = 0xFFFF ∧ oddState.flags.p = true ∧
      oddState.ssp.toNat % 2 = 1 := by
  and_intros <;> decide

theorem witness_DivisionByZeroTraps :
    operand (start [] []) (.imm4 0) = .ok 0 ∧ wellFormed (.divl (.g 0) (.imm4 0)) = true := by
  decide

theorem witness_PrivilegedInstructionsTrapInUserMode :
    usr.flags.p = false ∧ params.privSet .halt = true ∧ params.privSet (.outp (.g 0) (.drct 0)) = true := by
  decide

theorem witness_LdLoadsTheOperand :
    operand topWord (.mem (.drct 0xFFFE)) = .ok 0x1234 ∧
      operand (start [] []) (.mem (.drct 0xFFFF)) = .error (.trap .oddAddress) := by
  decide

theorem witness_StStoresRd :
    locWidth (.drct 0xE000) = .word ∧ Permitted sys 0xE000 2 ∧ Writable 0xE000 2 ∧ region 0xE000 = .attr ∧
      Permitted sys 0xFFFE 2 ∧ Writable 0xFFFE 2 ∧ region 0xFFFE ≠ .attr := by
  refine ⟨?_, permitted_iff ?_, writable_of ?_, ?_, permitted_iff ?_, writable_of ?_, ?_⟩ <;> decide

theorem witness_StStoresRd_byte :
    locWidth (.bIndr .sp) = .byte ∧ locAddr usr (.bIndr .sp) = 0x3000 ∧
      Permitted (user 0x0100 0x3000 [(.sp, 0x3000)] []) 0x3000 1 ∧ Writable 0x3000 1 ∧ region 0x3000 ≠ .attr := by
  refine ⟨?_, ?_, permitted_iff ?_, writable_of ?_, ?_⟩ <;> decide

theorem witness_AddWritesSumAndFlags :
    operand (start [(.g 2, 0x0080)] [(0x0080, 0xFF00)]) (.mem (.bIndr (.g 2))) = .ok 0x00FF := by
  decide

theorem witness_SubAndCmpWriteFlags :
    operand (start [(.g 2, 0x0080)] [(0x0080, 0xFF00)]) (.mem (.bIndr (.g 2))) = .ok 0x00FF := by
  decide

theorem witness_LogicWritesBitwiseResult :
    operand (start [(.g 2, 0x0080)] [(0x0080, 0xFF00)]) (.mem (.bIndr (.g 2))) = .ok 0x00FF := by
  decide

theorem witness_AddsAndMulWriteResult :
    operand (start [(.g 2, 0x0080)] [(0x0080, 0xFF00)]) (.mem (.bIndr (.g 2))) = .ok 0x00FF := by
  decide

theorem witness_DivAndModDivide :
    operand (start [] []) (.imm4 15) = .ok 0xFFFF ∧ (0xFFFF : Word) ≠ 0 := by
  decide

theorem witness_MullWritesThePair :
    operand (start [] []) (.imm 0x0100) = .ok 0x0100 ∧ wellFormed (.mull (.g 12) (.imm 0x0100)) = true := by
  decide

/-- The largest upper half whose quotient fits. -/
theorem witness_DivlDividesThePair :
    operand (start [(.g 1, 9)] []) (.imm 10) = .ok 10 ∧ (10 : Word) ≠ 0 ∧
      wellFormed (.divl (.g 0) (.imm 10)) = true ∧
      ((start [(.g 1, 9)] []).reg (.g 1)).toNat < (10 : Word).toNat := by
  decide

theorem witness_DivlUndoesMull :
    wellFormed (.mull (.g 0) (.imm 0x0100)) = true ∧ (Reg.g 1).code.toNat = (Reg.g 0).code.toNat + 1 ∧
      operand (start [(.g 0, 0x1234)] []) (.imm 0x0100) = .ok 0x0100 ∧ (0x0100 : Word) ≠ 0 ∧
      ∃ t, exec (.mull (.g 0) (.imm 0x0100)) (start [(.g 0, 0x1234)] []) = .next t ∧
        operand t (.imm 0x0100) = .ok 0x0100 := ⟨by decide, by decide, by decide, by decide, _, rfl, rfl⟩

/-- The largest count with a stated result, and the first without. -/
theorem witness_LeftShiftsMultiply :
    operand (start [] []) (.imm 15) = .ok 15 ∧ (15 : Word).toNat ≤ 15 ∧
      operand (start [] []) (.imm 16) = .ok 16 := by
  decide

/-- The largest count with a stated result, and the first without. -/
theorem witness_RightShiftsDivide :
    operand (start [] []) (.imm 15) = .ok 15 ∧ (15 : Word).toNat ≤ 15 ∧
      operand (start [] []) (.imm 16) = .ok 16 := by
  decide

theorem witness_JumpsOnOneFlag :
    (start [(.g 0, 0x8000)] []).reg (.g 0) = 0x8000 ∧ operand (start [(.g 0, 0x8000)] []) (.imm4 1) = .ok 1 := by
  decide

theorem witness_JumpsOnComparison :
    (start [(.g 0, 0x8000)] []).reg (.g 0) = 0x8000 ∧ operand (start [(.g 0, 0x8000)] []) (.imm4 1) = .ok 1 := by
  decide

theorem witness_ComparisonTable :
    (start [(.g 0, 0x8000)] []).reg (.g 0) = 0x8000 ∧ operand (start [(.g 0, 0x8000)] []) (.imm4 1) = .ok 1 := by
  decide

theorem witness_CallPushesTheReturnAddress :
    sys.reg .sp - 2 = 0x0FFE ∧ Permitted sys 0x0FFE 2 ∧ Writable 0x0FFE 2 ∧ Keeps 0x0FFE 2 := by
  refine ⟨?_, permitted_iff ?_, writable_of ?_, keeps_of ?_⟩ <;> decide

/-- SP = 0 wraps. -/
theorem witness_CallPushesTheReturnAddress_wrap :
    (start [] []).reg .sp - 2 = 0xFFFE ∧ Permitted (start [] []) 0xFFFE 2 ∧ Writable 0xFFFE 2 ∧ Keeps 0xFFFE 2 := by
  refine ⟨?_, permitted_iff ?_, writable_of ?_, keeps_of ?_⟩ <;> decide

theorem witness_RetReturnsAfterTheCall :
    (∃ t, exec (.call (.drct 0x0200)) sys = .next t) ∧ sys.reg .sp - 2 = 0x0FFE ∧ Permitted sys 0x0FFE 2 ∧
      Keeps 0x0FFE 2 := ⟨⟨_, by rfl⟩, by decide, permitted_iff (by decide), keeps_of (by decide)⟩

/-- Word and byte ports at the bounds of each clause, and the byte ports beside the limit registers. -/
theorem witness_InReadsThePort :
    sys.flags.p = true ∧ portWidth (.drct 0x08) = .word ∧ portWidth (.bIndr (.g 1)) = .byte ∧
      (portAddr (start [(.g 1, 0xF3)] []) (.bIndr (.g 1))).toNat = 0xF3 ∧
      (portAddr (start [(.g 1, 0xF8)] []) (.bIndr (.g 1))).toNat = 0xF8 ∧
      (portAddr (start [(.g 1, 0x08)] []) (.bIndr (.g 1))).toNat = 0x08 ∧
      (portAddr (start [(.g 1, 0x10)] []) (.bIndr (.g 1))).toNat = 0x10 ∧
      (portAddr (start [(.g 1, 0x18)] []) (.bIndr (.g 1))).toNat = 0x18 ∧
      (portAddr (start [(.g 1, 0x26)] []) (.bIndr (.g 1))).toNat = 0x26 ∧
      (portAddr (start [(.g 1, 0xFC)] []) (.bIndr (.g 1))).toNat = 0xFC ∧
      (portAddr (start [(.g 1, 0xFE)] []) (.bIndr (.g 1))).toNat = 0xFE ∧
      (portAddr sys (.drct 0x08)).toNat = 0x08 ∧
      (portAddr sys (.drct 0x10)).toNat = 0x10 ∧
      (portAddr sys (.drct 0x18)).toNat = 0x18 ∧
      (portAddr sys (.drct 0x1E)).toNat = 0x1E ∧
      (portAddr sys (.drct 0x26)).toNat = 0x26 ∧
      (portAddr sys (.drct 0xF4)).toNat = 0xF4 ∧
      (portAddr sys (.drct 0xF6)).toNat = 0xF6 ∧
      (portAddr sys (.drct 0xFC)).toNat = 0xFC ∧
      (portAddr sys (.drct 0xFE)).toNat = 0xFE := by
  and_intros <;> decide

/-- Word ports at the bounds of each clause, and the byte ports beside the limit registers. -/
theorem witness_OutPresentsRd :
    sys.flags.p = true ∧ portWidth (.drct 0x08) = .word ∧ portWidth (.bIndr (.g 1)) = .byte ∧
      (portAddr (start [(.g 1, 0xF3)] []) (.bIndr (.g 1))).toNat = 0xF3 ∧
      (portAddr (start [(.g 1, 0xF8)] []) (.bIndr (.g 1))).toNat = 0xF8 ∧
      (portAddr sys (.drct 0x08)).toNat = 0x08 ∧
      (portAddr sys (.drct 0x10)).toNat = 0x10 ∧
      (portAddr sys (.drct 0x18)).toNat = 0x18 ∧
      (portAddr sys (.drct 0x1C)).toNat = 0x1C ∧
      (portAddr (start [(.g 1, 0x1D)] []) (.bIndr (.g 1))).toNat = 0x1D ∧
      (portAddr (start [(.g 1, 0x17)] []) (.bIndr (.g 1))).toNat = 0x17 ∧
      (portAddr sys (.drct 0xF4)).toNat = 0xF4 ∧
      (portAddr sys (.drct 0xF6)).toNat = 0xF6 ∧
      (portAddr sys (.drct 0xFC)).toNat = 0xFC ∧
      (portAddr sys (.drct 0xFE)).toNat = 0xFE := by
  and_intros <;> decide

theorem witness_PushStoresBelowSp :
    sys.reg .sp - 2 = 0x0FFE ∧ Permitted sys 0x0FFE 2 ∧ Writable 0x0FFE 2 ∧ Keeps 0x0FFE 2 ∧
      sys.flags.p = true := by
  refine ⟨?_, permitted_iff ?_, writable_of ?_, keeps_of ?_, ?_⟩ <;> decide

theorem witness_PushStoresBelowSp_user :
    usr.reg .sp - 2 = 0x2FFE ∧ Permitted usr 0x2FFE 2 ∧ Writable 0x2FFE 2 ∧ Keeps 0x2FFE 2 ∧
      Reg.g 12 ≠ .sp ∧ Reg.g 12 ≠ .usp := by
  refine ⟨?_, permitted_iff ?_, writable_of ?_, keeps_of ?_, ?_, ?_⟩ <;> decide

/-- SP = FFFEh wraps to 0. -/
theorem witness_PopLoadsFromSp :
    readWord popState (popState.reg .sp) = .ok 0xABCD ∧
      popState.flags.p = true := by
  decide

theorem witness_RetPopsThePc :
    readWord retState (retState.reg .sp) = .ok 0x0105 ∧
      readWord oddState (oddState.reg .sp) = .error (.trap .oddAddress) := by
  decide

/-- A trap frame at 0FFCh: FLAG = 0081h under PC = 2000h. -/
def framed : State := start [(.sp, 0x0FFC)] [(0x0100, 0xD400), (0x0FFC, 0x0081), (0x0FFE, 0x2000)]

theorem witness_RetiPopsFlagAndPc :
    framed.flags.p = true ∧ readWord framed framed.ssp = .ok 0x0081 ∧
      readWord framed (framed.ssp + 2) = .ok 0x2000 ∧
      usr.flags.p = false := by
  and_intros <;> decide

theorem witness_EiEnablesInterrupts :
    (requested (start [] []) false 0x200).flags.p = true ∧
      (requested (start [] []) false 0x200).inputs = [⟨0x200, []⟩] ∧
      (0x200 : BitVec 10) = 1#10 <<< (9 : Fin 10).val := by
  decide

theorem witness_DiDisablesInterrupts :
    sys.flags.p = true ∧ usr.flags.p = false := by
  decide

theorem witness_SvcTrapsThroughVector15 :
    TrapReady 15 (user 0 0xFFFF [] [(0xFFFE, 0x0400)]) 0x04 0x00 := by
  refine trapReady_of ?_ ?_ ?_ ?_ ?_ ?_ <;> decide

theorem witness_HaltStopsTheCpu :
    sys.flags.p = true ∧ ({ sys with halted := true } : State).halted = true := by
  decide

theorem witness_FormsWithoutMeaningAreRefused :
    (Reg.g 11).code.toNat % 2 = 1 ∧ Reg.sp.code.toNat % 2 = 1 ∧ sys.flags.p = true ∧
      0xFF < (portAddr sys (.drct 0x0100)).toNat ∧ (portAddr sys (.drct 0x00FF)).toNat ≤ 0xFF ∧
      portWidth (.drct 0x00FF) = .word ∧ (portAddr sys (.drct 0x00FF)).toNat % 2 = 1 ∧
      portWidth (.bIndr (.g 1)) = .byte ∧ (portAddr (start [(.g 1, 0xF4)] []) (.bIndr (.g 1))).toNat = 0xF4 ∧
      (portAddr (start [(.g 1, 0xF7)] []) (.bIndr (.g 1))).toNat = 0xF7 := by
  and_intros <;> decide

theorem witness_FormsWithoutMeaningAreRefused_word :
    badRet.halted = false ∧ acceptedIrq badRet = none ∧
      Permitted badRet.boundary 0x0100 2 ∧
      HoldsWord badRet.boundary 0x0100 0xD0 0x10 ∧
      HoldsWord (start [] [(0x0100, 0x0CF0)]).boundary 0x0100 0x0C 0xF0 ∧
      decode (wordOf 0xD0 0x10) 0 = .error .reserved ∧ decode (wordOf 0x0C 0xF0) 0 = .error .pcOperand := by
  refine ⟨?_, ?_, permitted_iff ?_, holdsWord_of ?_, holdsWord_of ?_, ?_, ?_⟩ <;> decide

theorem witness_OnlyRetiLeavesPrivilegedMode :
    framed.flags.p = true ∧ (after framed fun t => t.flags.p) = some false := by
  decide

theorem witness_OnlyTrapsEnterPrivilegedMode :
    svcState.flags.p = false ∧
      (after svcState fun t => t.flags.p) = some true := by
  decide

/-- PUSH in user mode. -/
def userPush : State := user 0x0100 0x2FFF [(.g 1, 1), (.sp, 0x3000)] [(0x0100, 0xC010)]

theorem witness_UserModeIsConfined :
    userPush.flags.p = false ∧ userPush.sdArmed = false ∧
      (after userPush fun t => (t.flags.p, t.usp)) = some (false, 0x2FFE) := by
  decide

/-- The same with the micro-SD controller at memory. -/
theorem witness_UserModeIsConfined_armed :
    ({ userPush with sdArmed := true } : State).flags.p = false ∧
      (after { userPush with sdArmed := true } fun t => t.flags.p) = some false := by
  decide

theorem witness_UserModeCannotSeeSsp :
    userPush.flags.p = false ∧ userPush.sdArmed = false ∧
      (after userPush fun t => (t.flags.p, t.usp)) = some (false, 0x2FFE) := by
  decide

theorem witness_OnlyEiAndRetiEnableInterrupts :
    (start [] [(0x0100, 0xE000)]).flags.e = false ∧
      (after (start [] [(0x0100, 0xE000)]) fun t => t.flags.e) = some true := by
  decide

theorem witness_IoRecordOnlyGrows :
    inState.ioLog = [] ∧
      (after inState fun t => t.ioLog) = some [.read 0xF4 .word] := by
  decide

end Sys2Proof.Tests
end

/-! # The proofs about the state (10_state.md): registers, FLAG, reset, and the hidden SSP -/

namespace Sys2Proof.Machine

/-! ## Reset (rule R37) -/

/-- Settles O53: each value is the one that `State.reset` writes; the empty memory list is canonical. -/
theorem resetState : Obligations.ResetState :=
  ⟨rfl, rfl, rfl, rfl, Memory.wf_nil, rfl, rfl, fun _ => rfl⟩

/-! ## FLAG as a word (rules R26, R27) -/

/-- A word written to FLAG reads back without the ten bits drawn 0 (rule R27). -/
theorem Flags.toWord_ofWord (w : Word) : (Flags.ofWord w).toWord = w &&& 0x00CF := by
  apply BitVec.eq_of_getLsbD_eq
  intro i hi
  simp only [Flags.toWord, Flags.ofWord, BitVec.getLsbD_append, BitVec.getLsbD_and]
  interval_cases i <;> simp

/-- The ten bits drawn 0 read as 0 (rule R27): the FLAG word is what writing it back leaves of it. -/
theorem Flags.toWord_and_unused (f : Flags) : f.toWord &&& 0xFF30 = 0 := by
  have hkeep : f.toWord = f.toWord &&& 0x00CF := by
    rw [← Flags.toWord_ofWord, Flags.ofWord_toWord]
  rw [hkeep, BitVec.and_assoc]
  exact BitVec.and_zero

/-- Settles O2: the six bits are those that `Flags.ofWord` reads back from the word. -/
theorem flagWordHasSixBits : Obligations.FlagWordHasSixBits := by
  refine ⟨fun f => ?_, Flags.toWord_ofWord⟩
  have hback : Flags.ofWord f.toWord = f := Flags.ofWord_toWord f
  exact ⟨congrArg Flags.e hback, congrArg Flags.p hback, congrArg Flags.v hback, congrArg Flags.c hback,
    congrArg Flags.s hback, congrArg Flags.z hback, f.toWord_and_unused⟩

/-! ## Register operands (rules R20, R22, R23) -/

/-- In user mode SP and USP both name the stack pointer in use. -/
theorem isActiveSp_user {s : State} (hp : s.flags.p = false) (r : Reg) :
    isActiveSp s r = true ↔ r = .sp ∨ r = .usp := by
  cases r <;> simp [isActiveSp, hp]

/-- In privileged mode SP alone does. -/
theorem isActiveSp_privileged {s : State} (hp : s.flags.p = true) (r : Reg) : isActiveSp s r = true ↔ r = .sp := by
  cases r <;> simp [isActiveSp, hp]

/-- Two operands that name the stack pointer in use name one register. -/
theorem State.reg_setReg_active {s : State} {r q : Reg} (v : Word) (hr : isActiveSp s r = true)
    (hq : isActiveSp s q = true) : (s.setReg r v).reg q = v := by
  cases hp : s.flags.p with
  | true =>
    rw [(isActiveSp_privileged hp r).mp hr, (isActiveSp_privileged hp q).mp hq, State.reg_setReg_self]
  | false =>
    rcases (isActiveSp_user hp r).mp hr with rfl | rfl <;> rcases (isActiveSp_user hp q).mp hq with rfl | rfl <;>
      simp [State.reg, State.setReg, hp]

/-- What a register operand reads after a write to any register operand (rule R23). -/
theorem State.reg_setReg (s : State) (r q : Reg) (v : Word) :
    (s.setReg r v).reg q =
      if q = r ∨ (s.flags.p = false ∧ (r = .sp ∨ r = .usp) ∧ (q = .sp ∨ q = .usp)) then v else s.reg q := by
  split
  case isTrue h =>
    rcases h with rfl | ⟨hp, hr, hq⟩
    · exact s.reg_setReg_self q v
    · exact State.reg_setReg_active v ((isActiveSp_user hp r).mpr hr) ((isActiveSp_user hp q).mpr hq)
  case isFalse h =>
    obtain ⟨hne, hsp⟩ := not_or.mp h
    refine s.reg_setReg_of_ne v hne ?_
    cases hp : s.flags.p with
    | true => exact .inl rfl
    | false => exact .inr fun ⟨hr, hq⟩ => hsp ⟨hp, (isActiveSp_user hp r).mp hr, (isActiveSp_user hp q).mp hq⟩

/-- Settles O1: `State.reg_setReg` for the reads, and the frame of `State.setReg` field by field. -/
theorem registerReadsWhatWasWritten : Obligations.RegisterReadsWhatWasWritten := by
  intro s r q v
  refine ⟨s.reg_setReg r q v, fun hp => ?_, fun hp => ?_, rfl⟩
  · simp [State.setReg_ssp, State.setReg_usp, hp]
  · simp [State.setReg_ssp, State.setReg_usp, hp]

/-! ## SSP in user mode (rule R23, 60_exceptions.md rule R225)

Every operation of an instruction in user mode commutes with a change of SSP, and a trap, which does use SSP, never
ends in user mode. -/

/-- The state with another system stack pointer. -/
def State.withSsp (s : State) (x : Word) : State := { s with ssp := x }

section WithSsp

variable (s : State) (x : Word)

/-! ### What does not depend on SSP in either mode -/

@[simp] theorem State.withSsp_draws : (s.withSsp x).draws = s.draws := rfl
@[simp] theorem State.boundary_withSsp : (s.withSsp x).boundary = s.boundary.withSsp x := rfl
@[simp] theorem State.setPc_withSsp (v : Word) : (s.withSsp x).setPc v = (s.setPc v).withSsp x := rfl
@[simp] theorem State.setVcsz_withSsp (r : Vcsz) : (s.withSsp x).setVcsz r = (s.setVcsz r).withSsp x := rfl
@[simp] theorem State.storeByte_withSsp (a : Nat) (b : Byte) :
    (s.withSsp x).storeByte a b = (s.storeByte a b).withSsp x := rfl
@[simp] theorem nextPc_withSsp (n : Nat) : nextPc (s.withSsp x) n = nextPc s n := rfl
@[simp] theorem readByte_withSsp (a : Word) : readByte (s.withSsp x) a = readByte s a := rfl
@[simp] theorem readWord_withSsp (a : Word) : readWord (s.withSsp x) a = readWord s a := rfl
@[simp] theorem isActiveSp_withSsp (r : Reg) : isActiveSp (s.withSsp x) r = isActiveSp s r := by cases r <;> rfl
@[simp] theorem fetchInstr_withSsp : fetchInstr (s.withSsp x) = fetchInstr s := rfl
@[simp] theorem acceptedIrq_withSsp : acceptedIrq (s.withSsp x) = acceptedIrq s := rfl

@[simp] theorem writeByte_withSsp (a : Word) (b : Byte) :
    writeByte (s.withSsp x) a b = (·.withSsp x) <$> writeByte s a b := by
  have hcheck : checkAccess (s.withSsp x) a 1 = checkAccess s a 1 := rfl
  simp [writeByte, hcheck, apply_ite]

@[simp] theorem writeWord_withSsp (a v : Word) :
    writeWord (s.withSsp x) a v = (·.withSsp x) <$> writeWord s a v := by
  have hcheck : checkAccess (s.withSsp x) a 2 = checkAccess s a 2 := rfl
  simp [writeWord, hcheck, apply_ite]

/-! ### What does not depend on SSP in user mode, where no operand names it -/

variable {s} (hp : s.flags.p = false)
include hp

@[simp] theorem State.reg_withSsp (r : Reg) : (s.withSsp x).reg r = s.reg r := by
  cases r with
  | g k => rfl
  | sp => simp [State.reg, State.withSsp, hp]
  | usp => rfl

@[simp] theorem State.setReg_withSsp (r : Reg) (v : Word) :
    (s.withSsp x).setReg r v = (s.setReg r v).withSsp x := by
  simp [State.setReg, State.withSsp, hp]

@[simp] theorem setPair_withSsp (rd rh : Reg) (lo hi : Word) (fl : Vcsz) :
    setPair (s.withSsp x) rd rh lo hi fl = (setPair s rd rh lo hi fl).withSsp x := by
  simp [setPair, hp]

@[simp] theorem pushedValue_withSsp (r : Reg) : pushedValue r (s.withSsp x) = pushedValue r s := by
  simp [pushedValue, hp]

@[simp] theorem poppedValue_withSsp (r : Reg) (t : Word) : poppedValue r (s.withSsp x) t = poppedValue r s t := by
  simp [poppedValue, hp]

@[simp] theorem locAddr_withSsp (l : Loc) : locAddr (s.withSsp x) l = locAddr s l := by
  cases l <;> simp [locAddr, hp]

@[simp] theorem targetAddr_withSsp (t : Target) : targetAddr (s.withSsp x) t = targetAddr s t := by
  cases t <;> simp [targetAddr, hp]

@[simp] theorem operand_withSsp (src : Src) : operand (s.withSsp x) src = operand s src := by
  cases src with
  | mem l => simp [readLoc, hp]
  | imm v => rfl
  | reg r => simp [hp]
  | imm4 i => rfl

@[simp] theorem writeLoc_withSsp (l : Loc) (v : Word) :
    writeLoc (s.withSsp x) l v = (·.withSsp x) <$> writeLoc s l v := by
  cases hw : locWidth l <;> simp [writeLoc, hw, hp]

@[simp] theorem pushWord_withSsp (v : Word) :
    pushWord (s.withSsp x) v = (·.withSsp x) <$> pushWord s v := by
  simp only [pushWord, State.reg_withSsp x hp, writeWord_withSsp]
  cases hw : writeWord s (s.reg .sp - 2) v with
  | error w => rfl
  | ok u =>
    obtain ⟨_, _, _, rfl⟩ := writeWord_eq_ok.mp hw
    refine congrArg Except.ok (State.setReg_withSsp x ?_ _ _)
    exact hp

end WithSsp

/-! ### Outcomes that agree as long as they stay in user mode -/

/-- A trap entry ends in privileged mode (60_exceptions.md rule R220). -/
theorem trapFrame_privileged {n : Fin 16} {pc : Word} {s t : State} (h : trapFrame n pc s = .ok t) :
    t.flags.p = true := by
  obtain ⟨_, _, _, _, _, _, _, _, rfl⟩ := trapFrame_shape h
  rfl

/-- The outcome `r'` repeats `r` with the system stack pointer `x`, wherever `r` ends in user mode. -/
def RepeatsInUserMode (x : Word) (r r' : Result) : Prop :=
  ∀ t, r = .next t → t.flags.p = false → r' = .next (t.withSsp x)

section Repeats

variable (s : State) (x : Word)

theorem RepeatsInUserMode.of_next (t : State) : RepeatsInUserMode x (.next t) (.next (t.withSsp x)) := by
  rintro _ ⟨⟩ _
  rfl

theorem RepeatsInUserMode.of_refused (r : Refusal) (r' : Result) : RepeatsInUserMode x (.refused r) r' := by
  rintro _ ⟨⟩

theorem RepeatsInUserMode.of_trapEntry (n : Fin 16) (pc : Word) (r' : Result) :
    RepeatsInUserMode x (trapEntry n pc s) r' := fun t h hp => by
  simp [trapFrame_privileged (trapEntry_eq_next.mp h)] at hp

theorem RepeatsInUserMode.of_raiseStop (pc : Word) (w : Stop) (r' : Result) :
    RepeatsInUserMode x (raiseStop pc s w) r' := fun t h hp => by
  obtain ⟨e, _, _, ht⟩ := raiseStop_eq_next.mp h
  simp [trapFrame_privileged ht] at hp

variable {s x}

/-- An instruction whose result commutes with the change of SSP: it completes alike, or its stop is no user state. -/
theorem RepeatsInUserMode.of_complete {s' : State} {n : Nat} {m m' : Except Stop State}
    (hm : m' = (·.withSsp x) <$> m) : RepeatsInUserMode x (complete n s m) (complete n s' m') := by
  subst hm
  cases m with
  | ok t => exact .of_next x t
  | error w => exact .of_raiseStop s x _ w _

/-- In user mode an instruction of `PRIV_SET` only traps, and every other runs. -/
theorem RepeatsInUserMode.of_guarded {i : Instr} {s' : State} {run run' : Result} (hp : s.flags.p = false)
    (he : exec i s = guarded i s run) (he' : exec i s' = guarded i s' run')
    (h : privSet i = false → RepeatsInUserMode x run run') : RepeatsInUserMode x (exec i s) (exec i s') := by
  rw [he, he']
  cases hi : privSet i with
  | true =>
    rw [guarded_user run hi hp]
    exact .of_raiseStop s x _ (.trap .privilegeViolation) _
  | false =>
    rw [guarded_unprivileged run hi, guarded_unprivileged run' hi]
    exact h hi

theorem RepeatsInUserMode.of_binary (hp : s.flags.p = false) (rd : Reg) (src : Src)
    (f : Word → Word → Except Stop (Word × Vcsz)) :
    RepeatsInUserMode x (binary rd src s f) (binary rd src (s.withSsp x) f) :=
  .of_complete (by simp [hp])

theorem RepeatsInUserMode.of_jump (hp : s.flags.p = false) (c : Bool) (g : Target) :
    RepeatsInUserMode x (jumpIf c g s) (jumpIf c g (s.withSsp x)) := by
  simp only [jumpIf, targetAddr_withSsp x hp, nextPc_withSsp, State.setPc_withSsp]
  exact .of_next x _

/-- An instruction of user mode does the same whatever SSP holds. -/
theorem exec_repeatsInUserMode (hp : s.flags.p = false) (i : Instr) :
    RepeatsInUserMode x (exec i s) (exec i (s.withSsp x)) := by
  cases i <;> refine .of_guarded hp rfl rfl fun hi => ?_
  case no => exact .of_next x _
  case ldFlag => simpa [hp] using .of_next x _
  case ld | cmp | st | call | push | ret | pop =>
    exact .of_complete (by simp [popWord, hp])
  case mull rd src =>
    cases pairHigh rd with
    | none => exact .of_refused x _ _
    | some rh => exact .of_complete (by simp [hp])
  case divl rd src =>
    cases pairHigh rd with
    | none => exact .of_refused x _ _
    | some rh => exact .of_complete (by simp [apply_ite, hp])
  case reti =>
    rw [if_neg (by simp [hp])]
    exact .of_refused x _ _
  case svc => exact .of_trapEntry s x _ _ _
  case inp | outp | ei | di | halt => cases hi
  -- these two arms still stand under their guard
  case add | sub =>
    rw [guarded_unprivileged _ hi, guarded_unprivileged _ hi]
    exact .of_binary hp _ _ _
  case and | or | xor | adds | mul | div | mod | shla | shll | shra | shrl => exact .of_binary hp _ _ _
  case jz | jc | jm | jo | jgt | jge | jle | jlt | jnz | jnc | jnm | jno | jhi | jls | jmp => exact .of_jump hp _ _

/-- A step of user mode does the same whatever SSP holds. -/
theorem step_repeatsInUserMode (hp : s.flags.p = false) : RepeatsInUserMode x (step s) (step (s.withSsp x)) := by
  intro t h ht
  obtain ⟨hrun, ⟨n, _, hn⟩ | ⟨hq, i, hi, he⟩ | ⟨_, e, pc, _, _, hn⟩⟩ := step_cases h
  · simp [trapFrame_privileged hn] at ht
  · have hq' : acceptedIrq (s.withSsp x) = none := (acceptedIrq_withSsp s x).trans hq
    have hi' : fetchInstr (s.withSsp x).boundary = .instr i := (fetchInstr_withSsp s.boundary x).trans hi
    rw [step_of_fetch (s := s.withSsp x) hrun hq' hi', State.boundary_withSsp]
    exact exec_repeatsInUserMode (s := s.boundary) hp i t he ht
  · simp [trapFrame_privileged hn] at ht

end Repeats

/-- Settles O57, by `step_repeatsInUserMode`: only the execution of an instruction can end in user mode, and it commutes
with the change of SSP. -/
theorem userModeCannotSeeSsp : Obligations.UserModeCannotSeeSsp := fun _ t _ h hp ht =>
  step_repeatsInUserMode hp t h ht

end Sys2Proof.Machine

/-! # The proofs about memory (20_memory.md): access checks, stores, the ROM, the record of I/O, and the fetch -/

namespace Sys2Proof.Machine

/-! ## The bytes that a step may write (rules R46, R47, R62)

Whatever a step does to memory, it does by writes of single bytes outside the ROM. -/

/-- The memory `m'` comes from `m` by writes of bytes of the space outside the ROM. -/
inductive WritesOutsideRom (m : List Host.Cell) : List Host.Cell → Prop where
  | refl : WritesOutsideRom m m
  | write {m' : List Host.Cell} (h : WritesOutsideRom m m') (a : Nat) (b : Byte) (ha : a < 0x10000)
      (hr : region a ≠ .rom) : WritesOutsideRom m (Memory.write m' a b)

namespace WritesOutsideRom

variable {m m' m'' : List Host.Cell}

theorem trans (h : WritesOutsideRom m m') (h' : WritesOutsideRom m' m'') : WritesOutsideRom m m'' := by
  induction h' with
  | refl => exact h
  | write _ a b ha hr ih => exact ih.write a b ha hr

theorem wf (h : WritesOutsideRom m m') (hm : Memory.wf m = true) : Memory.wf m' = true := by
  induction h with
  | refl => exact hm
  | write _ a b ha _ ih => exact Memory.wf_write _ a b ha ih

theorem read_rom (h : WritesOutsideRom m m') {x : Nat} (hx : region x = .rom) :
    Memory.read m' x = Memory.read m x := by
  induction h with
  | refl => rfl
  | write _ a b _ hr ih =>
    have hne : x ≠ a := fun e => hr (e ▸ hx)
    rw [Memory.read_write_ne _ b hne, ih]

end WritesOutsideRom

theorem region_ne_rom_of_isRam {a : Nat} (h : isRam a = true) : region a ≠ .rom := fun hr => by
  simp [isRam, hr] at h

/-- The micro-SD controller's bytes outside RAM are lost (rule R62). -/
theorem Memory.writeRam_writesOutsideRom (m xs : List Host.Cell) : WritesOutsideRom m (Memory.writeRam m xs) := by
  induction xs generalizing m with
  | nil => exact .refl
  | cons x xs ih =>
    rw [Memory.writeRam]
    split
    case isTrue hx =>
      exact (WritesOutsideRom.refl.write x.1 x.2 (isRam_lt hx) (region_ne_rom_of_isRam hx)).trans (ih _)
    case isFalse => exact ih m

section

variable {s t : State}

theorem State.boundary_writesOutsideRom (s : State) : WritesOutsideRom s.mem s.boundary.mem := by
  rw [State.boundary_mem]
  split
  case isTrue => exact Memory.writeRam_writesOutsideRom _ _
  case isFalse => exact .refl

theorem writeByte_writesOutsideRom {a : Word} {b : Byte} (h : writeByte s a b = .ok t) :
    WritesOutsideRom s.mem t.mem := by
  obtain ⟨_, hr, rfl⟩ := writeByte_eq_ok.mp h
  exact .write .refl _ _ a.isLt hr

/-- The second byte of a word is in the space too, since the first is at an even address. -/
theorem writeWord_writesOutsideRom {a v : Word} (h : writeWord s a v = .ok t) : WritesOutsideRom s.mem t.mem := by
  obtain ⟨hc, hr, hr', rfl⟩ := writeWord_eq_ok.mp h
  have heven : a.toNat % 2 = 0 := getLsbD_zero_eq_false.mp ((checkAccess_eq_ok.mp hc).1 rfl)
  have hlt : a.toNat + 1 < 0x10000 := by
    have := a.isLt
    omega
  exact (WritesOutsideRom.refl.write _ _ a.isLt hr).write _ _ hlt hr'

theorem pushWord_writesOutsideRom {v : Word} (h : pushWord s v = .ok t) : WritesOutsideRom s.mem t.mem := by
  obtain ⟨u, hw, rfl⟩ := pushWord_eq_ok.mp h
  rw [State.setReg_mem]
  exact writeWord_writesOutsideRom hw

theorem trapFrame_writesOutsideRom {n : Fin 16} {pc : Word} (h : trapFrame n pc s = .ok t) :
    WritesOutsideRom s.mem t.mem := by
  obtain ⟨s1, s2, v, hpc, hflag, _, rfl⟩ := trapFrame_eq_ok.mp h
  rw [State.setPc_mem]
  exact (pushWord_writesOutsideRom hpc).trans (pushWord_writesOutsideRom hflag)

theorem exec_writesOutsideRom {i : Instr} (h : exec i s = .next t) : WritesOutsideRom s.mem t.mem := by
  cases exec_cases i s t h with
  | trapped n pc h => exact trapFrame_writesOutsideRom h
  | plain _ hm => exact hm ▸ .refl
  | storedByte _ a b u hw hm => exact hm ▸ writeByte_writesOutsideRom hw
  | storedWord _ a v u hw hm => exact hm ▸ writeWord_writesOutsideRom hw
  | system _ _ hm => exact hm ▸ .refl

theorem step_writesOutsideRom (h : step s = .next t) : WritesOutsideRom s.mem t.mem := by
  refine s.boundary_writesOutsideRom.trans ?_
  obtain ⟨_, ⟨n, _, ht⟩ | ⟨_, i, _, hx⟩ | ⟨_, e, pc, _, _, ht⟩⟩ := step_cases h
  · exact trapFrame_writesOutsideRom ht
  · exact exec_writesOutsideRom hx
  · exact trapFrame_writesOutsideRom ht

theorem writesOutsideRom_of_reaches (h : Reaches s t) : WritesOutsideRom s.mem t.mem := by
  induction h with
  | refl => exact .refl
  | step _ hs ih => exact ih.trans (step_writesOutsideRom hs)

end

/-- Settles O7: a step only writes bytes of the space, and each such write keeps the canonical form. -/
theorem everyStepKeepsMemoryForm : Obligations.EveryStepKeepsMemoryForm := fun _ _ hm h =>
  (step_writesOutsideRom h).wf hm

/-- Settles O8: the writes of a whole run fall outside the ROM. -/
theorem noRunChangesRom : Obligations.NoRunChangesRom := fun _ _ h _ ha =>
  (writesOutsideRom_of_reaches h).read_rom ha

/-! ## The record of I/O (rules R41, R50) -/

/-- What an instruction may do to the record: leave it, or, being an IN or OUT in privileged mode, put one event before
it. -/
inductive Records (i : Instr) (s t : State) : Prop where
  | kept (h : t.ioLog = s.ioLog)
  | added (hp : s.flags.p = true) (e : IoEvent) (h : t.ioLog = e :: s.ioLog)
      (hi : ∃ rd p, i = .inp rd p ∨ i = .outp rd p)

section

variable {s t : State}

theorem trapFrame_ioLog {n : Fin 16} {pc : Word} (h : trapFrame n pc s = .ok t) : t.ioLog = s.ioLog := by
  obtain ⟨_, _, _, _, _, _, _, _, rfl⟩ := trapFrame_shape h
  rfl

theorem Records.of_complete {i : Instr} {n : Nat} {x : Except Stop State} (hx : ∀ u, x = .ok u → Records i s u)
    (h : complete n s x = .next t) : Records i s t := by
  rcases complete_eq_next.mp h with hok | ⟨_, _, _, htrap⟩
  · exact hx t hok
  · exact .kept (trapFrame_ioLog htrap)

/-- The six system instructions: EI, DI, HALT and RETI leave the record, IN and OUT add to it. -/
theorem Records.of_system {i : Instr}
    (hi : i = .ei ∨ i = .di ∨ i = .halt ∨ i = .reti ∨ (∃ rd p, i = .inp rd p) ∨ ∃ rd p, i = .outp rd p)
    (hp : s.flags.p = true) (h : exec i s = .next t) : Records i s t := by
  have run {run : Result} (hx : exec i s = guarded i s run) : run = .next t :=
    (guarded_privileged run hp).symm.trans (hx.symm.trans h)
  rcases hi with rfl | rfl | rfl | rfl | ⟨rd, p, rfl⟩ | ⟨rd, p, rfl⟩ <;> replace h := run rfl
  · cases h
    exact .kept rfl
  · cases h
    exact .kept rfl
  · cases h
    exact .kept rfl
  · rw [if_pos hp] at h
    refine .of_complete (fun u hu => ?_) h
    obtain ⟨_, _, _, _, rfl⟩ := returnFromTrap_eq_ok.mp hu
    exact .kept rfl
  · refine .of_complete (fun u hu => ?_) h
    obtain ⟨x, hx, hu⟩ := bind_eq_ok.mp hu
    obtain ⟨_, rfl⟩ := ioRead_eq_ok.mp hx
    cases hu
    exact .added hp _ rfl ⟨rd, p, .inl rfl⟩
  · refine .of_complete (fun u hu => ?_) h
    obtain ⟨w, hw, hu⟩ := bind_eq_ok.mp hu
    obtain ⟨_, rfl⟩ := ioWrite_eq_ok.mp hw
    cases hu
    exact .added hp _ rfl ⟨rd, p, .inr rfl⟩

theorem exec_records {i : Instr} (h : exec i s = .next t) : Records i s t := by
  cases exec_cases i s t h with
  | trapped n pc h => exact .kept (trapFrame_ioLog h)
  | plain hk => exact .kept hk.ioLog
  | storedByte hk => exact .kept hk.ioLog
  | storedWord hk => exact .kept hk.ioLog
  | system hi hp => exact .of_system hi hp h

/-- A step leaves the record, or runs an IN or OUT in privileged mode, which adds one event. -/
theorem step_records (h : step s = .next t) :
    t.ioLog = s.ioLog ∨ ∃ i, fetchInstr s.boundary = .instr i ∧ Records i s.boundary t := by
  obtain ⟨_, ⟨n, _, ht⟩ | ⟨_, i, hi, hx⟩ | ⟨_, e, pc, _, _, ht⟩⟩ := step_cases h
  · exact .inl ((trapFrame_ioLog ht).trans s.boundary_ioLog)
  · exact .inr ⟨i, hi, exec_records hx⟩
  · exact .inl ((trapFrame_ioLog ht).trans s.boundary_ioLog)

/-- A step that changes the record adds one event to it, by an IN or OUT in privileged mode. -/
theorem step_adds_event (h : step s = .next t) (hne : t.ioLog ≠ s.ioLog) :
    s.flags.p = true ∧ (∃ e, t.ioLog = e :: s.ioLog) ∧
      ∃ rd p, fetchInstr s.boundary = .instr (.inp rd p) ∨ fetchInstr s.boundary = .instr (.outp rd p) := by
  obtain hkept | ⟨i, hf, hrec⟩ := step_records h
  · exact absurd hkept hne
  cases hrec with
  | kept hkept => exact absurd hkept hne
  | added hp e he hi =>
    obtain ⟨rd, p, rfl | rfl⟩ := hi
    · exact ⟨hp, ⟨e, he⟩, rd, p, .inl hf⟩
    · exact ⟨hp, ⟨e, he⟩, rd, p, .inr hf⟩

theorem ioLog_grows_of_reaches (h : Reaches s t) : ∃ es, t.ioLog = es ++ s.ioLog := by
  induction h with
  | refl => exact ⟨[], rfl⟩
  | @step t u _ hs ih =>
    obtain ⟨es, hes⟩ := ih
    by_cases hu : u.ioLog = t.ioLog
    · exact ⟨es, hu.trans hes⟩
    · obtain ⟨_, ⟨e, he⟩, _⟩ := step_adds_event hs hu
      exact ⟨e :: es, by rw [he, hes, List.cons_append]⟩

end

/-- Settles O59: `step_adds_event` for one step, and its iteration along a run. -/
theorem ioRecordOnlyGrows : Obligations.IoRecordOnlyGrows :=
  ⟨fun _ _ h => ioLog_grows_of_reaches h, fun _ _ h hne => step_adds_event h hne⟩

/-! ## The checks of an access (rules R44, R52) -/

section

variable {s : State} {a v : Word} {b : Byte} {w : Stop} {n : Nat}

/-! ### An access stops where its checks do -/

theorem readByte_of_stop (h : checkAccess s a 1 = .error w) : readByte s a = .error w := by
  rw [readByte, h, bind_error]

theorem readWord_of_stop (h : checkAccess s a 2 = .error w) : readWord s a = .error w := by
  rw [readWord, h, bind_error]

theorem writeByte_of_stop (h : checkAccess s a 1 = .error w) : writeByte s a b = .error w := by
  rw [writeByte, h, bind_error]

theorem writeWord_of_stop (h : checkAccess s a 2 = .error w) : writeWord s a v = .error w := by
  rw [writeWord, h, bind_error]

/-! ### An access raises only what its checks raise -/

variable {e : Exc}

theorem dataByte_ne_trap (s : State) (x : Nat) : dataByte s x ≠ .error (.trap e) := fun h => by
  rcases dataByte_eq_error h with h | h <;> cases h

theorem readByte_eq_trap (h : readByte s a = .error (.trap e)) : checkAccess s a 1 = .error (.trap e) := by
  obtain h | ⟨_, _, h⟩ := bind_eq_error.mp h
  · exact h
  · exact absurd h (dataByte_ne_trap s _)

theorem readWord_eq_trap (h : readWord s a = .error (.trap e)) : checkAccess s a 2 = .error (.trap e) := by
  obtain h | ⟨_, _, h⟩ := bind_eq_error.mp h
  · exact h
  obtain h | ⟨_, _, h⟩ := bind_eq_error.mp h
  · exact absurd h (dataByte_ne_trap s _)
  obtain h | ⟨_, _, h⟩ := bind_eq_error.mp h
  · exact absurd h (dataByte_ne_trap s _)
  · cases h

theorem writeByte_eq_trap (h : writeByte s a b = .error (.trap e)) : checkAccess s a 1 = .error (.trap e) := by
  obtain h | ⟨_, _, h⟩ := bind_eq_error.mp h
  · exact h
  · split at h <;> cases h

theorem writeWord_eq_trap (h : writeWord s a v = .error (.trap e)) : checkAccess s a 2 = .error (.trap e) := by
  obtain h | h := writeWord_eq_error h
  · exact h
  · cases h

/-! ### The limits -/

/-- In user mode an aligned access that begins below the lower limit or ends above the upper one is LimitViolation. -/
theorem checkAccess_limitViolation (hn : n = 2 → a.toNat % 2 = 0) (hp : s.flags.p = false)
    (h : a.toNat < s.mplow.toNat ∨ s.mphigh.toNat < a.toNat + n - 1) :
    checkAccess s a n = .error (.trap .limitViolation) := by
  refine checkAccess_outside (fun hw => getLsbD_zero_eq_false.mpr (hn hw)) ?_
  rw [← Bool.not_eq_true, admits_iff, hp]
  rintro (hp | ⟨hlow, hhigh⟩)
  · cases hp
  · omega

/-- In privileged mode the limits are not looked at. -/
theorem checkAccess_ne_limitViolation (hp : s.flags.p = true) (a : Word) (n : Nat) :
    checkAccess s a n ≠ .error (.trap .limitViolation) := fun h => by
  obtain ⟨hw, _⟩ | ⟨_, hout⟩ := checkAccess_eq_error h
  · cases hw
  · rw [admits_iff.mpr (.inl hp)] at hout
    cases hout

end

/-- Settles O5: the accesses stop as `checkAccess` does, clause by clause. -/
theorem accessChecksInOrder : Obligations.AccessChecksInOrder := by
  intro s a v b
  refine ⟨fun hodd => ?odd, fun heven hp hout => ?word, fun hp hout => ?byte, fun hp => ?privileged⟩
  case odd =>
    have hc := checkAccess_odd s (getLsbD_zero_eq_true.mpr hodd)
    exact ⟨readWord_of_stop hc, writeWord_of_stop hc⟩
  case word =>
    have hc : checkAccess s a 2 = .error (.trap .limitViolation) := checkAccess_limitViolation (fun _ => heven) hp hout
    exact ⟨readWord_of_stop hc, writeWord_of_stop hc⟩
  case byte =>
    have hc : checkAccess s a 1 = .error (.trap .limitViolation) := checkAccess_limitViolation (by simp) hp hout
    exact ⟨readByte_of_stop hc, writeByte_of_stop hc⟩
  case privileged =>
    have hword := checkAccess_ne_limitViolation hp a 2
    have hbyte := checkAccess_ne_limitViolation hp a 1
    exact ⟨hword ∘ readWord_eq_trap, hword ∘ writeWord_eq_trap, hbyte ∘ readByte_eq_trap,
      hbyte ∘ writeByte_eq_trap⟩

/-! ## Stores (rules R42, R46, R47) -/

/-- The more significant byte is the upper half of a word. -/
theorem highByte_eq_ofNat (v : Word) : highByte v = BitVec.ofNat 8 (v.toNat / 256) := by
  apply BitVec.eq_of_toNat_eq
  simp [highByte, Nat.shiftRight_eq_div_pow]

/-- The less significant byte is the lower half of a word. -/
theorem lowByte_eq_ofNat (v : Word) : lowByte v = BitVec.ofNat 8 (v.toNat % 256) := by
  apply BitVec.eq_of_toNat_eq
  simp [lowByte]

/-- The bytes of rule R47 that keep nothing read as before; every other byte reads as stored (rule R46). -/
theorem byteAt_storeByte (s : State) (a : Nat) (b : Byte) :
    (s.storeByte a b).byteAt a = if region a = .attr then s.byteAt a else some b := by
  split
  case isTrue h => exact congrArg (Memory.read · a) (Memory.write_attribute s.mem b h)
  case isFalse h => exact byteAt_storeByte_self s b h

section

variable {s : State} {a : Word}

/-- A permitted byte store outside the ROM stores the byte. -/
theorem writeByte_of_permitted (hp : Permitted s a 1) (hw : Writable a 1) (b : Byte) :
    writeByte s a b = .ok (s.storeByte a.toNat b) :=
  writeByte_eq_ok.mpr ⟨permitted_iff_checkAccess.mp hp, hw 0 (by decide), rfl⟩

/-- A permitted word store outside the ROM stores the upper half, then the lower half. -/
theorem writeWord_of_permitted (hp : Permitted s a 2) (hw : Writable a 2) (v : Word) :
    writeWord s a v = .ok ((s.storeByte a.toNat (highByte v)).storeByte (a.toNat + 1) (lowByte v)) :=
  writeWord_eq_ok.mpr ⟨permitted_iff_checkAccess.mp hp, hw 0 (by decide), hw 1 (by decide), rfl⟩

theorem writeByte_rom (hp : Permitted s a 1) (hr : region a.toNat = .rom) (b : Byte) :
    writeByte s a b = .error (.refuse .romWrite) := by
  rw [writeByte, permitted_iff_checkAccess.mp hp, bind_ok, if_pos hr]

theorem writeWord_rom (hp : Permitted s a 2) (hr : region a.toNat = .rom) (v : Word) :
    writeWord s a v = .error (.refuse .romWrite) := by
  rw [writeWord, permitted_iff_checkAccess.mp hp, bind_ok, if_pos (.inl hr)]

end

/-- Settles O6: what the stores of one byte and of two bytes leave of each byte. -/
theorem storeChangesItsBytesAlone : Obligations.StoreChangesItsBytesAlone := by
  intro s a v b
  refine ⟨fun hp hw => ?word, fun hp hw => ?byte, fun hp hr => writeWord_rom hp hr v,
    fun hp hr => writeByte_rom hp hr b⟩
  case word =>
    refine ⟨_, writeWord_of_permitted hp hw v, rfl, fun x hx => ?outside, ?even, ?odd⟩
    case outside =>
      rw [byteAt_storeByte_ne _ _ (by omega), byteAt_storeByte_ne _ _ (by omega)]
    case even =>
      rw [byteAt_storeByte_ne _ _ (by omega), byteAt_storeByte, highByte_eq_ofNat]
    case odd =>
      rw [byteAt_storeByte_self _ _ (region_succ_ne_attribute (hp.1 rfl)), lowByte_eq_ofNat]
  case byte =>
    refine ⟨_, writeByte_of_permitted hp hw b, rfl, fun x hx => ?_, byteAt_storeByte s a.toNat b⟩
    exact byteAt_storeByte_ne s b (by omega)

/-! ## Exceptions of the fetch (rules R44, R48, 30_encoding.md rule R82) -/

section

variable {s : State} {w : Stop}

/-- A fetch whose first word stops saves a free PC (60_exceptions.md rule R221). -/
theorem fetchInstr_of_first_stop (h : fetchWord s s.pc = .error w) :
    fetchInstr s = .stop w (Config.fetchSavedPc s.draws s.pc) := by
  simp only [fetchInstr, h]

/-- So does a fetch whose second word stops, of an instruction that has one and violates no privilege. -/
theorem fetchInstr_of_second_stop {w1 : Word} {i : Instr} (hfirst : fetchWord s s.pc = .ok w1)
    (hi : decode w1 0 = .ok i) (hv : violates i s = false) (hwords : instrWords i = 2)
    (h : fetchWord s (s.pc + 2) = .error w) : fetchInstr s = .stop w (Config.fetchSavedPc s.draws s.pc) := by
  have hne : instrWords i ≠ 1 := by omega
  simp only [fetchInstr, hfirst, hi, hv, if_neg hne, h, Bool.false_eq_true, if_false]

/-- A step of a CPU that is not halted and accepts no interrupt raises the exception of the fetch. -/
theorem step_of_fetch_trap {e : Exc} {pc : Word} (hh : s.halted = false) (hq : acceptedIrq s = none)
    (hf : fetchInstr s.boundary = .stop (.trap e) pc) : step s = raise e pc s.boundary := by
  simp [step, hh, hq, hf, raiseStop]

end

/-- Settles O60: the word that the checks stop is the first or the second, and the step raises what they stop with. -/
theorem fetchExceptionsAreRaised : Obligations.FetchExceptionsAreRaised := by
  intro s hh hq
  have first {e : Exc} (hc : checkAccess s.boundary s.pc 2 = .error (.trap e)) :
      ∃ savedPc, step s = raise e savedPc s.boundary :=
    ⟨_, step_of_fetch_trap hh hq (fetchInstr_of_first_stop (fetchWord_of_stop hc))⟩
  refine ⟨fun hodd => ?odd, fun heven hp hout => ?outside,
    fun b0 b1 i hperm hholds hi hwords hpriv hp hout => ?second⟩
  case odd => exact first (checkAccess_odd s.boundary (getLsbD_zero_eq_true.mpr hodd))
  case outside => exact first (checkAccess_limitViolation (s := s.boundary) (fun _ => heven) hp hout)
  case second =>
    have heven : (s.pc + 2).toNat % 2 = 0 := by
      have hpc : s.pc.toNat % 2 = 0 := hperm.1 rfl
      bv_omega
    have hc : checkAccess s.boundary (s.pc + 2) 2 = .error (.trap .limitViolation) :=
      checkAccess_limitViolation (s := s.boundary) (fun _ => heven) hp hout
    have hv : violates i s.boundary = false := by simp [violates_eq, hpriv]
    exact ⟨_, step_of_fetch_trap hh hq (fetchInstr_of_second_stop (fetchWord_of_holds hperm hholds) hi hv hwords
      (fetchWord_of_stop hc))⟩

end Sys2Proof.Machine

/-! # The proofs about the encoding (30_encoding.md): what decodes is what encodes, and the step of a decoded word -/

namespace Sys2Proof

/-! ## Reading an operand (rules R72, R77) -/

theorem reject_bind_eq_ok {α β : Type} {x : Except Reject α} {f : α → Except Reject β} {b : β} :
    (x >>= f) = .ok b ↔ ∃ a, x = .ok a ∧ f a = .ok b := by
  cases x <;> simp [bind, Except.bind]

@[simp] theorem reject_bind_ok {α β : Type} (a : α) (f : α → Except Reject β) :
    ((.ok a : Except Reject α) >>= f) = f a := rfl

@[simp] theorem reject_bind_error {α β : Type} (e : Reject) (f : α → Except Reject β) :
    ((.error e : Except Reject α) >>= f) = .error e := rfl

@[simp] theorem zeroField_zero_literal : zeroField 0#4 = .ok () := rfl

theorem regOfField_eq_ok {f : BitVec 4} {r : Reg} : regOfField f = .ok r ↔ r.code = f :=
  ⟨code_of_regOfField, fun h => h ▸ regOfField_code r⟩

/-- A field fixed at 0h, before an answer that does not depend on it. -/
theorem eq_of_zeroField_bind {α : Type} {f : BitVec 4} {a b : α}
    (h : (do zeroField f; .ok a : Except Reject α) = .ok b) : f = 0 ∧ b = a := by
  obtain ⟨_, hf, h⟩ := reject_bind_eq_ok.mp h
  cases h
  exact ⟨zeroField_eq_ok.mp hf, rfl⟩

/-- A register field, before an answer made of the register. -/
theorem eq_of_regOfField_bind {α : Type} {f : BitVec 4} {mk : Reg → α} {b : α}
    (h : (do let r ← regOfField f; .ok (mk r) : Except Reject α) = .ok b) : ∃ r : Reg, r.code = f ∧ b = mk r := by
  obtain ⟨r, hr, h⟩ := reject_bind_eq_ok.mp h
  cases h
  exact ⟨r, code_of_regOfField hr, rfl⟩

/-- An operand with these fields has mode `m` and this low field, and `w2` is its second word if it has one. -/
structure OperandFields.ReadFrom (f : OperandFields) (m : Nat) (low : BitVec 4) (w2 : Word) : Prop where
  mode : f.mode.toNat = m
  low : f.low = low
  second : f.second <+: [w2]

section

variable {m : Nat} {rd rx : BitVec 4} {w1 w2 : Word}

theorem decodeLoc_eq_ok {l : Loc} : decodeLoc m rx w2 = .ok l ↔ l.fields.ReadFrom m rx w2 := by
  constructor
  · intro h
    unfold decodeLoc at h
    split at h
    case h_1 =>
      obtain ⟨rfl, rfl⟩ := eq_of_zeroField_bind h
      exact ⟨rfl, rfl, List.prefix_rfl⟩
    case h_2 =>
      obtain ⟨r, hr, rfl⟩ := eq_of_regOfField_bind h
      exact ⟨rfl, hr, List.prefix_rfl⟩
    case h_3 =>
      cases h
      exact ⟨rfl, rfl, List.nil_prefix⟩
    case h_4 | h_5 =>
      obtain ⟨r, hr, rfl⟩ := eq_of_regOfField_bind h
      exact ⟨rfl, hr, List.nil_prefix⟩
    case h_6 => cases h
  · rintro ⟨rfl, rfl, hsecond⟩
    cases l <;> simp_all [decodeLoc, Loc.fields]

/-- The modes of a memory operand are those that `decodeSrc` leaves to `decodeLoc`. -/
theorem decodeSrc_mem (l : Loc) :
    decodeSrc l.fields.mode.toNat rx w2 = (do let k ← decodeLoc l.fields.mode.toNat rx w2; .ok (.mem k)) := by
  cases l <;> rfl

theorem decodeSrc_eq_ok {x : Src} : decodeSrc m rx w2 = .ok x ↔ x.fields.ReadFrom m rx w2 := by
  constructor
  · intro h
    unfold decodeSrc at h
    split at h
    · obtain ⟨rfl, rfl⟩ := eq_of_zeroField_bind h
      exact ⟨rfl, rfl, List.prefix_rfl⟩
    · obtain ⟨r, hr, rfl⟩ := eq_of_regOfField_bind h
      exact ⟨rfl, hr, List.nil_prefix⟩
    · cases h
      exact ⟨rfl, rfl, List.nil_prefix⟩
    · obtain ⟨l, hl, h⟩ := reject_bind_eq_ok.mp h
      cases h
      exact decodeLoc_eq_ok.mp hl
  · rintro ⟨rfl, rfl, hsecond⟩
    cases x with
    | mem l =>
      have hl : decodeLoc l.fields.mode.toNat l.fields.low w2 = .ok l := decodeLoc_eq_ok.mpr ⟨rfl, rfl, hsecond⟩
      rw [Src.fields, decodeSrc_mem, hl, reject_bind_ok]
    | imm v => simp_all [decodeSrc, Src.fields]
    | reg r => simp [decodeSrc, Src.fields]
    | imm4 i4 => rfl

theorem decodeTarget_eq_ok {t : Target} : decodeTarget m rx w2 = .ok t ↔ t.fields.ReadFrom m rx w2 := by
  constructor
  · intro h
    unfold decodeTarget at h
    split at h
    · obtain ⟨rfl, rfl⟩ := eq_of_zeroField_bind h
      exact ⟨rfl, rfl, List.prefix_rfl⟩
    · obtain ⟨r, hr, rfl⟩ := eq_of_regOfField_bind h
      exact ⟨rfl, hr, List.prefix_rfl⟩
    · obtain ⟨r, hr, rfl⟩ := eq_of_regOfField_bind h
      exact ⟨rfl, hr, List.nil_prefix⟩
    · cases h
  · rintro ⟨rfl, rfl, hsecond⟩
    cases t <;> simp_all [decodeTarget, Target.fields]

theorem decodePort_eq_ok {p : Port} : decodePort m rx w2 = .ok p ↔ p.fields.ReadFrom m rx w2 := by
  constructor
  · intro h
    unfold decodePort at h
    split at h
    case h_1 =>
      obtain ⟨rfl, rfl⟩ := eq_of_zeroField_bind h
      exact ⟨rfl, rfl, List.prefix_rfl⟩
    case h_2 | h_3 =>
      obtain ⟨r, hr, rfl⟩ := eq_of_regOfField_bind h
      exact ⟨rfl, hr, List.nil_prefix⟩
    case h_4 => cases h
  · rintro ⟨rfl, rfl, hsecond⟩
    cases p <;> simp_all [decodePort, Port.fields]

/-! ### The modes of an operand (rule R73) -/

theorem Loc.fields_mode_lt (l : Loc) : l.fields.mode.toNat < 8 := by cases l <;> simp [fields]

/-- LD Rd,FLAG stands in the row of ST at the register mode, which is no mode of ST (rule R74). -/
theorem Loc.fields_mode_ne_four (l : Loc) : l.fields.mode.toNat ≠ 4 := by cases l <;> simp [fields]

theorem Src.fields_mode_lt (x : Src) : x.fields.mode.toNat < 8 := by
  cases x with
  | mem l => exact l.fields_mode_lt
  | _ => simp [fields]

theorem Target.fields_mode_lt (t : Target) : t.fields.mode.toNat < 8 := by cases t <;> simp [fields]

theorem Port.fields_mode_lt (p : Port) : p.fields.mode.toNat < 8 := by cases p <;> simp [fields]

/-! ## Words of an instruction (rules R70, R73) -/

theorem firstWord_eq_iff {op : Byte} :
    firstWord op rd rx = w1 ↔ opField w1 = op ∧ rdField w1 = rd ∧ rxField w1 = rx := by
  constructor
  · rintro rfl
    simp
  · rintro ⟨rfl, rfl, rfl⟩
    exact firstWord_fields w1

/-- The words `w1`, `w2` begin with those of an instruction with an operand exactly when the OP of `w1` stands in the
row `base` of the OP map, its Rd field is `rd`, and the operand is read from the rest. -/
theorem encodeWith_prefix_iff {base : Byte} {f : OperandFields} (hbase : base.toNat % 8 = 0)
    (hmode : f.mode.toNat < 8) :
    encodeWith base rd f <+: [w1, w2] ↔
      (opField w1).toNat / 8 = base.toNat / 8 ∧ rdField w1 = rd ∧
        f.ReadFrom ((opField w1).toNat % 8) (rxField w1) w2 := by
  have hop : opField w1 = base + f.mode ↔
      (opField w1).toNat / 8 = base.toNat / 8 ∧ f.mode.toNat = (opField w1).toNat % 8 := by
    rw [← BitVec.toNat_inj, BitVec.toNat_add]
    have := base.isLt
    omega
  rw [encodeWith, List.cons_prefix_cons, firstWord_eq_iff, hop]
  constructor
  · rintro ⟨⟨⟨hrow, hm⟩, hrd, hrx⟩, hsecond⟩
    exact ⟨hrow, hrd, hm, hrx.symm, hsecond⟩
  · rintro ⟨hrow, hrd, hm, hrx, hsecond⟩
    exact ⟨⟨⟨hrow, hm⟩, hrd, hrx.symm⟩, hsecond⟩

/-! ## Reading an instruction of each form (rules R72, R78, R79) -/

variable {i j : Instr}

theorem decodeEa_eq_ok {mk : Reg → Src → Instr} :
    decodeEa mk m rd rx w2 = .ok i ↔ ∃ x, x.fields.ReadFrom m rx w2 ∧ ∃ r, r.code = rd ∧ mk r x = i := by
  simp only [decodeEa, reject_bind_eq_ok, decodeSrc_eq_ok, regOfField_eq_ok, Except.ok.injEq]

theorem decodeSt_eq_ok :
    decodeSt m rd rx w2 = .ok i ↔ ∃ l, l.fields.ReadFrom m rx w2 ∧ ∃ r, r.code = rd ∧ .st r l = i := by
  simp only [decodeSt, reject_bind_eq_ok, decodeLoc_eq_ok, regOfField_eq_ok, Except.ok.injEq]

theorem decodeJump_eq_ok :
    decodeJump m rd rx w2 = .ok i ↔ ∃ mk, jumpOf rd = .ok mk ∧ ∃ t, t.fields.ReadFrom m rx w2 ∧ mk t = i := by
  simp only [decodeJump, reject_bind_eq_ok, decodeTarget_eq_ok, Except.ok.injEq]

theorem decodeCall_eq_ok :
    decodeCall m rd rx w2 = .ok i ↔ ∃ t, t.fields.ReadFrom m rx w2 ∧ rd = 0 ∧ .call t = i := by
  simp only [decodeCall, reject_bind_eq_ok, decodeTarget_eq_ok, zeroField_eq_ok, Except.ok.injEq, exists_const]

theorem decodeIo_eq_ok {mk : Reg → Port → Instr} :
    decodeIo mk m rd rx w2 = .ok i ↔ ∃ p, p.fields.ReadFrom m rx w2 ∧ ∃ r, r.code = rd ∧ mk r p = i := by
  simp only [decodeIo, reject_bind_eq_ok, decodePort_eq_ok, regOfField_eq_ok, Except.ok.injEq]

theorem decodeOneReg_eq_ok {mk : Reg → Instr} :
    decodeOneReg mk rd rx = .ok i ↔ rx = 0 ∧ ∃ r, r.code = rd ∧ mk r = i := by
  simp only [decodeOneReg, reject_bind_eq_ok, zeroField_eq_ok, regOfField_eq_ok, Except.ok.injEq, exists_const]

theorem decodeBare_eq_ok : decodeBare j rd rx = .ok i ↔ rd = 0 ∧ rx = 0 ∧ j = i := by
  simp only [decodeBare, reject_bind_eq_ok, zeroField_eq_ok, Except.ok.injEq, exists_const]

/-- The jump of a condition number is encoded with that number (rule R78). -/
theorem encode_of_jumpOf {mk : Target → Instr} (h : jumpOf rd = .ok mk) (t : Target) :
    encode (mk t) = encodeWith 0xA0 rd t.fields := by
  have hrd : rd = BitVec.ofNat 4 rd.toNat := by simp
  unfold jumpOf at h
  split at h <;> cases h
  all_goals
    rename_i hc
    rw [hrd, hc]
    rfl

/-! ## Decoding and encoding are inverse on words (rules R72 to R79) -/

theorem singleton_prefix_iff {op : Byte} :
    [firstWord op rd rx] <+: [w1, w2] ↔ opField w1 = op ∧ rdField w1 = rd ∧ rxField w1 = rx := by
  simp [firstWord_eq_iff]

/-- What is encoded is decoded: one form of instruction after the other, its row of the OP map found by
`encodeWith_prefix_iff`. -/
theorem decode_of_encode_prefix (h : encode i <+: [w1, w2]) : decode w1 w2 = .ok i := by
  cases i with
  | ld r x | add r x | sub r x | cmp r x | and r x | or r x | xor r x | adds r x | mul r x | div r x | mod r x
  | mull r x | divl r x | shla r x | shll r x | shra r x | shrl r x =>
    obtain ⟨hrow, hr, hx⟩ := (encodeWith_prefix_iff rfl x.fields_mode_lt).mp h
    simp [decode, hrow, decodeEa_eq_ok, hr, hx]
  | st r l =>
    obtain ⟨hrow, hr, hl⟩ := (encodeWith_prefix_iff rfl l.fields_mode_lt).mp h
    have hm : (opField w1).toNat % 8 ≠ 4 := hl.mode ▸ l.fields_mode_ne_four
    simp [decode, hrow, hm, decodeSt_eq_ok, hr, hl]
  | jz t | jc t | jm t | jo t | jgt t | jge t | jle t | jlt t | jnz t | jnc t | jnm t | jno t | jhi t | jls t | jmp t =>
    obtain ⟨hrow, hr, ht⟩ := (encodeWith_prefix_iff rfl t.fields_mode_lt).mp h
    simp [decode, hrow, decodeJump_eq_ok, jumpOf, hr, ht]
  | call t =>
    obtain ⟨hrow, hr, ht⟩ := (encodeWith_prefix_iff rfl t.fields_mode_lt).mp h
    simp [decode, hrow, decodeCall_eq_ok, hr, ht]
  | inp r p | outp r p =>
    obtain ⟨hrow, hr, hp⟩ := (encodeWith_prefix_iff rfl p.fields_mode_lt).mp h
    simp [decode, hrow, decodeIo_eq_ok, hr, hp]
  | ldFlag r | push r | pop r =>
    obtain ⟨hop, hr, hx⟩ := singleton_prefix_iff.mp h
    simp [decode, hop, decodeOneReg_eq_ok, hr, hx]
  | no | ret | reti | ei | di | svc | halt =>
    obtain ⟨hop, hr, hx⟩ := singleton_prefix_iff.mp h
    simp [decode, hop, decodeBare_eq_ok, hr, hx]

/-! ### From the decoder's answer to the encoding

`row` is the row of the OP map in which the OP of `w1` stands (rule R74). -/

section

variable {row : Nat} (hrow : (opField w1).toNat / 8 = row)
include hrow

theorem encodeWith_row_prefix {f : OperandFields} (hmode : f.mode.toNat < 8) (hrd : rdField w1 = rd)
    (hf : f.ReadFrom ((opField w1).toNat % 8) (rxField w1) w2) :
    encodeWith (BitVec.ofNat 8 (8 * row)) rd f <+: [w1, w2] := by
  have hlt := (opField w1).isLt
  refine (encodeWith_prefix_iff ?_ hmode).mpr ⟨?_, hrd, hf⟩ <;> rw [BitVec.toNat_ofNat] <;> omega

theorem encode_prefix_of_decodeEa {mk : Reg → Src → Instr}
    (h : decodeEa mk ((opField w1).toNat % 8) (rdField w1) (rxField w1) w2 = .ok i)
    (hmk : ∀ r x, encode (mk r x) = encodeWith (BitVec.ofNat 8 (8 * row)) r.code x.fields) :
    encode i <+: [w1, w2] := by
  obtain ⟨x, hx, r, hr, rfl⟩ := decodeEa_eq_ok.mp h
  exact hmk r x ▸ encodeWith_row_prefix hrow x.fields_mode_lt hr.symm hx

theorem encode_prefix_of_decodeIo {mk : Reg → Port → Instr}
    (h : decodeIo mk ((opField w1).toNat % 8) (rdField w1) (rxField w1) w2 = .ok i)
    (hmk : ∀ r p, encode (mk r p) = encodeWith (BitVec.ofNat 8 (8 * row)) r.code p.fields) :
    encode i <+: [w1, w2] := by
  obtain ⟨p, hp, r, hr, rfl⟩ := decodeIo_eq_ok.mp h
  exact hmk r p ▸ encodeWith_row_prefix hrow p.fields_mode_lt hr.symm hp

variable (hm : (opField w1).toNat % 8 = m)
include hm

theorem firstWord_row_prefix (hrd : rdField w1 = rd) (hrx : rxField w1 = 0) :
    [firstWord (BitVec.ofNat 8 (8 * row + m)) rd 0] <+: [w1, w2] := by
  refine singleton_prefix_iff.mpr ⟨?_, hrd, hrx⟩
  rw [← hrow, ← hm, Nat.div_add_mod, BitVec.ofNat_toNat, BitVec.setWidth_eq]

theorem encode_prefix_of_decodeOneReg {mk : Reg → Instr} (h : decodeOneReg mk (rdField w1) (rxField w1) = .ok i)
    (hmk : ∀ r, encode (mk r) = [firstWord (BitVec.ofNat 8 (8 * row + m)) r.code 0]) : encode i <+: [w1, w2] := by
  obtain ⟨hrx, r, hr, rfl⟩ := decodeOneReg_eq_ok.mp h
  exact hmk r ▸ firstWord_row_prefix hrow hm hr.symm hrx

theorem encode_prefix_of_decodeBare (h : decodeBare j (rdField w1) (rxField w1) = .ok i)
    (hj : encode j = [firstWord (BitVec.ofNat 8 (8 * row + m)) 0 0]) : encode i <+: [w1, w2] := by
  obtain ⟨hrd, hrx, rfl⟩ := decodeBare_eq_ok.mp h
  exact hj ▸ firstWord_row_prefix hrow hm hrd hrx

end

/-- What is decoded is encoded: one row of the OP map after the other. -/
theorem encode_prefix_of_decode (h : decode w1 w2 = .ok i) : encode i <+: [w1, w2] := by
  unfold decode at h
  dsimp only at h
  split at h
  case h_2 hrow | h_4 hrow | h_5 hrow | h_6 hrow | h_7 hrow | h_8 hrow | h_9 hrow | h_10 hrow | h_11 hrow | h_12 hrow
    | h_13 hrow | h_14 hrow | h_15 hrow | h_16 hrow | h_17 hrow | h_18 hrow | h_19 hrow =>
    exact encode_prefix_of_decodeEa hrow h fun _ _ => rfl
  case h_3 hrow =>
    split at h
    case isTrue hm => exact encode_prefix_of_decodeOneReg hrow hm h fun _ => rfl
    case isFalse =>
      obtain ⟨l, hl, r, hr, rfl⟩ := decodeSt_eq_ok.mp h
      exact encodeWith_row_prefix hrow l.fields_mode_lt hr.symm hl
  case h_20 hrow =>
    obtain ⟨mk, hmk, t, ht, rfl⟩ := decodeJump_eq_ok.mp h
    exact encode_of_jumpOf hmk t ▸ encodeWith_row_prefix hrow t.fields_mode_lt rfl ht
  case h_21 hrow =>
    obtain ⟨t, ht, hrd, rfl⟩ := decodeCall_eq_ok.mp h
    exact encodeWith_row_prefix hrow t.fields_mode_lt hrd ht
  case h_22 hrow | h_23 hrow => exact encode_prefix_of_decodeIo hrow h fun _ _ => rfl
  case h_24 hrow =>
    split_ifs at h with hm hm
    · exact encode_prefix_of_decodeOneReg hrow hm h fun _ => rfl
    · exact encode_prefix_of_decodeOneReg hrow hm h fun _ => rfl
  case h_1 hrow | h_27 hrow | h_28 hrow =>
    split_ifs at h with hm
    exact encode_prefix_of_decodeBare hrow hm h rfl
  case h_25 hrow | h_26 hrow =>
    split_ifs at h with hm hm
    · exact encode_prefix_of_decodeBare hrow hm h rfl
    · exact encode_prefix_of_decodeBare hrow hm h rfl
  case h_29 => cases h

/-- The decoder reads an instruction from two words exactly when they begin with its encoding. -/
theorem decode_eq_ok : decode w1 w2 = .ok i ↔ encode i <+: [w1, w2] :=
  ⟨encode_prefix_of_decode, decode_of_encode_prefix⟩

end

/-! ## The length of an instruction (rule R75) -/

theorem length_encode (i : Instr) : (encode i).length = instrWords i := by
  cases i with
  | ld _ x | add _ x | sub _ x | cmp _ x | and _ x | or _ x | xor _ x | adds _ x | mul _ x | div _ x | mod _ x
  | mull _ x | divl _ x | shla _ x | shll _ x | shra _ x | shrl _ x => exact Laws.srcFields_length x
  | st _ l => exact Laws.locFields_length l
  | jz t | jc t | jm t | jo t | jgt t | jge t | jle t | jlt t | jnz t | jnc t | jnm t | jno t | jhi t | jls t | jmp t
  | call t => exact Laws.targetFields_length t
  | inp _ p | outp _ p => exact Laws.portFields_length p
  | no | ldFlag _ | push _ | pop _ | ret | reti | ei | di | svc | halt => rfl

theorem Loc.words_eq (l : Loc) : l.words = 1 ∨ l.words = 2 := by cases l <;> simp [words]

theorem Src.words_eq (x : Src) : x.words = 1 ∨ x.words = 2 := by
  cases x with
  | mem l => exact l.words_eq
  | _ => simp [words]

theorem Target.words_eq (t : Target) : t.words = 1 ∨ t.words = 2 := by cases t <;> simp [words]

theorem Port.words_eq (p : Port) : p.words = 1 ∨ p.words = 2 := by cases p <;> simp [words]

theorem instrWords_eq (i : Instr) : instrWords i = 1 ∨ instrWords i = 2 := by
  cases i with
  | ld _ x | add _ x | sub _ x | cmp _ x | and _ x | or _ x | xor _ x | adds _ x | mul _ x | div _ x | mod _ x
  | mull _ x | divl _ x | shla _ x | shll _ x | shra _ x | shrl _ x => exact x.words_eq
  | st _ l => exact l.words_eq
  | jz t | jc t | jm t | jo t | jgt t | jge t | jle t | jlt t | jnz t | jnc t | jnm t | jno t | jhi t | jls t | jmp t
  | call t => exact t.words_eq
  | inp _ p | outp _ p => exact p.words_eq
  | no | ldFlag _ | push _ | pop _ | ret | reti | ei | di | svc | halt => exact .inl rfl

section

variable {w1 w2 : Word} {i : Instr}

theorem encode_of_decode (h : decode w1 w2 = .ok i) : encode i = [w1, w2].take (instrWords i) := by
  rw [← length_encode]
  exact List.prefix_iff_eq_take.mp (decode_eq_ok.mp h)

theorem encode_of_decode_one (h : decode w1 w2 = .ok i) (hi : instrWords i = 1) : encode i = [w1] := by
  rw [encode_of_decode h, hi]
  rfl

theorem encode_of_decode_two (h : decode w1 w2 = .ok i) (hi : instrWords i = 2) : encode i = [w1, w2] := by
  rw [encode_of_decode h, hi]
  rfl

end

/-! ### What the first word settles (rules R75, R206)

The fetch looks at the length and the privilege of what the first word decodes to before it has the second word. -/

/-- The length of an instruction, and whether it is privileged. -/
def lengthAndPrivilege (i : Instr) : Nat × Bool := (instrWords i, privSet i)

section

variable (m : Nat) (rd rx : BitVec 4) (w1 w2 w2' : Word)

theorem decodeLoc_words : (decodeLoc m rx w2).map Loc.words = (decodeLoc m rx w2').map Loc.words := by
  unfold decodeLoc
  split
  · cases zeroField rx <;> rfl
  · cases regOfField rx <;> rfl
  all_goals rfl

/-- What `f` makes of a read operand depends on `g` of it alone. -/
theorem map_bind_congr {α β γ δ : Type} {x x' : Except Reject α} {g : α → β} {f : α → Except Reject γ} {k : γ → δ}
    (hx : x.map g = x'.map g) (hf : ∀ a a', g a = g a' → (f a).map k = (f a').map k) :
    (x >>= f).map k = (x' >>= f).map k := by
  cases x <;> cases x'
  case error.error => exact congrArg Except.error (Except.error.inj hx)
  case ok.ok a a' => exact hf a a' (Except.ok.inj hx)
  all_goals cases hx

theorem decodeSrc_words : (decodeSrc m rx w2).map Src.words = (decodeSrc m rx w2').map Src.words := by
  unfold decodeSrc
  split
  · cases zeroField rx <;> rfl
  · rfl
  · rfl
  · exact map_bind_congr (decodeLoc_words m rx w2 w2') fun l l' h => congrArg Except.ok h

theorem decodeTarget_words : (decodeTarget m rx w2).map Target.words = (decodeTarget m rx w2').map Target.words := by
  unfold decodeTarget
  split
  · cases zeroField rx <;> rfl
  · cases regOfField rx <;> rfl
  all_goals rfl

theorem decodePort_words : (decodePort m rx w2).map Port.words = (decodePort m rx w2').map Port.words := by
  unfold decodePort
  split
  · cases zeroField rx <;> rfl
  all_goals rfl

theorem map_bind_ok_congr {α γ δ : Type} (x : Except Reject α) {f f' : α → γ} {k : γ → δ}
    (hf : ∀ a, k (f a) = k (f' a)) :
    (do let a ← x; .ok (f a) : Except Reject γ).map k = (do let a ← x; .ok (f' a) : Except Reject γ).map k := by
  cases x with
  | error => rfl
  | ok a => exact congrArg Except.ok (hf a)

theorem decodeEa_lengthAndPrivilege {mk : Reg → Src → Instr} {p : Bool}
    (hmk : ∀ r x, lengthAndPrivilege (mk r x) = (x.words, p)) :
    (decodeEa mk m rd rx w2).map lengthAndPrivilege = (decodeEa mk m rd rx w2').map lengthAndPrivilege :=
  map_bind_congr (decodeSrc_words m rx w2 w2') fun x x' h =>
    map_bind_ok_congr (regOfField rd) fun r => by rw [hmk, hmk, h]

theorem decodeIo_lengthAndPrivilege {mk : Reg → Port → Instr} {p : Bool}
    (hmk : ∀ r x, lengthAndPrivilege (mk r x) = (x.words, p)) :
    (decodeIo mk m rd rx w2).map lengthAndPrivilege = (decodeIo mk m rd rx w2').map lengthAndPrivilege :=
  map_bind_congr (decodePort_words m rx w2 w2') fun x x' h =>
    map_bind_ok_congr (regOfField rd) fun r => by rw [hmk, hmk, h]

theorem decodeSt_lengthAndPrivilege :
    (decodeSt m rd rx w2).map lengthAndPrivilege = (decodeSt m rd rx w2').map lengthAndPrivilege :=
  map_bind_congr (decodeLoc_words m rx w2 w2') fun _ _ h =>
    map_bind_ok_congr (regOfField rd) fun _ => congrArg (·, false) h

theorem decodeCall_lengthAndPrivilege :
    (decodeCall m rd rx w2).map lengthAndPrivilege = (decodeCall m rd rx w2').map lengthAndPrivilege :=
  map_bind_congr (decodeTarget_words m rx w2 w2') fun _ _ h =>
    map_bind_ok_congr (zeroField rd) fun _ => congrArg (·, false) h

theorem jumpOf_lengthAndPrivilege {mk : Target → Instr} (h : jumpOf rd = .ok mk) (t : Target) :
    lengthAndPrivilege (mk t) = (t.words, false) := by
  unfold jumpOf at h
  split at h <;> cases h <;> rfl

theorem decodeJump_lengthAndPrivilege :
    (decodeJump m rd rx w2).map lengthAndPrivilege = (decodeJump m rd rx w2').map lengthAndPrivilege := by
  unfold decodeJump
  cases hmk : jumpOf rd with
  | error => rfl
  | ok mk =>
    refine map_bind_congr (decodeTarget_words m rx w2 w2') fun t t' h => ?_
    simp [Except.map, jumpOf_lengthAndPrivilege rd hmk, h]

theorem decode_lengthAndPrivilege :
    (decode w1 w2).map lengthAndPrivilege = (decode w1 w2').map lengthAndPrivilege := by
  unfold decode
  dsimp only
  split
  case h_2 | h_4 | h_5 | h_6 | h_7 | h_8 | h_9 | h_10 | h_11 | h_12 | h_13 | h_14 | h_15 | h_16 | h_17 | h_18 | h_19 =>
    exact decodeEa_lengthAndPrivilege _ _ _ _ _ fun _ _ => rfl
  case h_3 =>
    split
    · rfl
    · exact decodeSt_lengthAndPrivilege ..
  case h_20 => exact decodeJump_lengthAndPrivilege ..
  case h_21 => exact decodeCall_lengthAndPrivilege ..
  case h_22 | h_23 => exact decodeIo_lengthAndPrivilege _ _ _ _ _ fun _ _ => rfl
  all_goals rfl

end

/-- Whatever the second word, the first one decodes to an instruction of the same length and privilege. -/
theorem exists_decode_second {w1 w2 : Word} {i : Instr} (h : decode w1 w2 = .ok i) (w2' : Word) :
    ∃ j, decode w1 w2' = .ok j ∧ instrWords j = instrWords i ∧ privSet j = privSet i := by
  have hlp := decode_lengthAndPrivilege w1 w2' w2
  rw [h] at hlp
  cases hj : decode w1 w2' with
  | error e =>
    rw [hj] at hlp
    cases hlp
  | ok j =>
    rw [hj] at hlp
    have heq : lengthAndPrivilege j = lengthAndPrivilege i := Except.ok.inj hlp
    exact ⟨j, rfl, congrArg Prod.fst heq, congrArg Prod.snd heq⟩

/-! ## Bytes of an instruction (rules R72 to R79) -/

section

variable {b0 b1 b2 b3 : Byte} {bs rest : List Byte} {i : Instr}

theorem wordBytes_wordOf (b0 b1 : Byte) : wordBytes (wordOf b0 b1) = [b0, b1] := by simp [wordBytes]

theorem decodeBytes_of_one (h : decode (wordOf b0 b1) 0 = .ok i) (hi : instrWords i = 1) :
    decodeBytes (b0 :: b1 :: rest) = .ok (i, rest) := by
  simp only [decodeBytes, h, hi, if_true]

theorem decodeBytes_of_two (h : decode (wordOf b0 b1) (wordOf b2 b3) = .ok i) (hi : instrWords i = 2) :
    decodeBytes (b0 :: b1 :: b2 :: b3 :: rest) = .ok (i, rest) := by
  obtain ⟨j, hj, hwords, _⟩ := exists_decode_second h 0
  have htwo : instrWords j ≠ 1 := by omega
  simp only [decodeBytes, hj, if_neg htwo, h]

/-- An instruction is read from one word or from two, by its length. -/
theorem decodeBytes_cases (h : decodeBytes bs = .ok (i, rest)) :
    (∃ b0 b1, bs = b0 :: b1 :: rest ∧ decode (wordOf b0 b1) 0 = .ok i ∧ instrWords i = 1) ∨
      ∃ b0 b1 b2 b3, bs = b0 :: b1 :: b2 :: b3 :: rest ∧ decode (wordOf b0 b1) (wordOf b2 b3) = .ok i ∧
        instrWords i = 2 := by
  unfold decodeBytes at h
  split at h
  case h_2 => cases h
  case h_1 b0 b1 tail =>
    split at h
    case h_1 => cases h
    case h_2 i0 hi0 =>
      split at h
      case isTrue hone =>
        cases h
        exact .inl ⟨b0, b1, rfl, hi0, hone⟩
      case isFalse htwo =>
        split at h
        case h_2 => cases h
        case h_1 b2 b3 _ =>
          split at h
          case h_1 => cases h
          case h_2 j hj =>
            cases h
            obtain ⟨k, hk, hwords, _⟩ := exists_decode_second hj 0
            cases hi0.symm.trans hk
            exact .inr ⟨b0, b1, b2, b3, rfl, hj, (instrWords_eq i).resolve_left (hwords ▸ htwo)⟩

end

/-- Settles O9: the words of the encoding, one or two by its length, decode to the instruction. -/
theorem decodeOfEncode : Obligations.DecodeOfEncode := by
  intro i rest
  have hlength := length_encode i
  obtain hi | hi := instrWords_eq i
  · obtain ⟨w, hw⟩ := List.length_eq_one_iff.mp (hlength.trans hi)
    have hdecode : decode w 0 = .ok i := decode_eq_ok.mpr (by simp [hw])
    rw [encodeBytes, hw]
    exact decodeBytes_of_one ((wordOf_bytes w).symm ▸ hdecode) hi
  · obtain ⟨w1, w2, hw⟩ := List.length_eq_two.mp (hlength.trans hi)
    have hdecode : decode w1 w2 = .ok i := decode_eq_ok.mpr (by simp [hw])
    rw [encodeBytes, hw]
    refine decodeBytes_of_two ?_ hi
    simpa using hdecode

/-- Settles O10: the words that decode to the instruction are those of its encoding. -/
theorem encodeOfDecode : Obligations.EncodeOfDecode := by
  intro bs rest i h
  obtain ⟨b0, b1, rfl, hdecode, hi⟩ | ⟨b0, b1, b2, b3, rfl, hdecode, hi⟩ := decodeBytes_cases h
  · simp [encodeBytes, encode_of_decode_one hdecode hi, wordBytes_wordOf]
  · simp [encodeBytes, encode_of_decode_two hdecode hi, wordBytes_wordOf]

/-! ## Undefined first words (rules R74, R80) -/

theorem reject_bind_eq_error {α β : Type} {x : Except Reject α} {f : α → Except Reject β} {e : Reject} :
    (x >>= f) = .error e ↔ x = .error e ∨ ∃ a, x = .ok a ∧ f a = .error e := by
  cases x <;> simp

section

variable (f : BitVec 4) {m : Nat} {rd rx : BitVec 4} {w : Word}

theorem regOfField_ne_undefined : regOfField f ≠ .error .undefined := by
  unfold regOfField
  split_ifs <;> simp

theorem zeroField_ne_undefined : zeroField f ≠ .error .undefined := by
  unfold zeroField
  split_ifs <;> simp

theorem decodeLoc_undefined : decodeLoc m rx w = .error .undefined ↔ m ∉ [0, 1, 3, 6, 7] := by
  unfold decodeLoc
  split <;> simp_all [reject_bind_eq_error, zeroField_ne_undefined, regOfField_ne_undefined]

theorem decodeSrc_undefined : decodeSrc m rx w = .error .undefined ↔ m ∉ [0, 1, 2, 3, 4, 5, 6, 7] := by
  unfold decodeSrc
  split <;> simp_all [reject_bind_eq_error, zeroField_ne_undefined, regOfField_ne_undefined, decodeLoc_undefined]

theorem decodeTarget_undefined : decodeTarget m rx w = .error .undefined ↔ m ∉ [0, 1, 6] := by
  unfold decodeTarget
  split <;> simp_all [reject_bind_eq_error, zeroField_ne_undefined, regOfField_ne_undefined]

theorem decodePort_undefined : decodePort m rx w = .error .undefined ↔ m ∉ [0, 6, 7] := by
  unfold decodePort
  split <;> simp_all [reject_bind_eq_error, zeroField_ne_undefined, regOfField_ne_undefined]

/-- Of the sixteen conditions Dh alone is no jump. -/
theorem jumpOf_eq_error {e : Reject} : jumpOf rd = .error e ↔ e = .undefined ∧ rd = 0xD := by
  have table : ∀ c : BitVec 4,
      (match jumpOf c with | .ok _ => true | .error r => decide (r = .undefined ∧ c = 0xD)) = true := by
    decide
  constructor
  · intro h
    have hrd := table rd
    rw [h] at hrd
    exact of_decide_eq_true hrd
  · rintro ⟨rfl, rfl⟩
    rfl

theorem decodeEa_undefined {mk : Reg → Src → Instr} :
    decodeEa mk m rd rx w = .error .undefined ↔ m ∉ [0, 1, 2, 3, 4, 5, 6, 7] := by
  simp [decodeEa, reject_bind_eq_error, decodeSrc_undefined, regOfField_ne_undefined]

theorem decodeSt_undefined : decodeSt m rd rx w = .error .undefined ↔ m ∉ [0, 1, 3, 6, 7] := by
  simp [decodeSt, reject_bind_eq_error, decodeLoc_undefined, regOfField_ne_undefined]

theorem decodeJump_undefined : decodeJump m rd rx w = .error .undefined ↔ m ∉ [0, 1, 6] ∨ rd = 0xD := by
  unfold decodeJump
  cases hmk : jumpOf rd with
  | error e =>
    obtain ⟨rfl, hrd⟩ := jumpOf_eq_error.mp hmk
    simp [hrd]
  | ok mk =>
    have hrd : rd ≠ 0xD := by
      rintro rfl
      cases hmk
    rw [or_iff_left hrd]
    simp [reject_bind_eq_error, decodeTarget_undefined]

theorem decodeCall_undefined : decodeCall m rd rx w = .error .undefined ↔ m ∉ [0, 1, 6] := by
  simp [decodeCall, reject_bind_eq_error, decodeTarget_undefined, zeroField_ne_undefined]

theorem decodeIo_undefined {mk : Reg → Port → Instr} :
    decodeIo mk m rd rx w = .error .undefined ↔ m ∉ [0, 6, 7] := by
  simp [decodeIo, reject_bind_eq_error, decodePort_undefined, regOfField_ne_undefined]

theorem decodeOneReg_ne_undefined (mk : Reg → Instr) : decodeOneReg mk rd rx ≠ .error .undefined := by
  simp [decodeOneReg, reject_bind_eq_error, zeroField_ne_undefined, regOfField_ne_undefined]

theorem decodeBare_ne_undefined (i : Instr) : decodeBare i rd rx ≠ .error .undefined := by
  simp [decodeBare, reject_bind_eq_error, zeroField_ne_undefined]

end

/-- The modes that the OP map fills in a row (rule R74). -/
def modesOfRow : Nat → List Nat
  | 1 | 3 | 4 | 5 | 6 | 7 | 8 | 9 | 10 | 11 | 12 | 13 | 14 | 16 | 17 | 18 | 19 => [0, 1, 2, 3, 4, 5, 6, 7]
  | 2 => [0, 1, 3, 4, 6, 7]
  | 20 | 21 => [0, 1, 6]
  | 22 | 23 => [0, 6, 7]
  | 24 | 26 | 28 => [0, 4]
  | 0 | 30 => [0]
  | 31 => [7]
  | _ => []

/-- A first word is undefined at a blank cell of the OP map, and in the row of the jumps at the condition Dh. -/
theorem decode_undefined {w1 w2 : Word} :
    decode w1 w2 = .error .undefined ↔
      (opField w1).toNat % 8 ∉ modesOfRow ((opField w1).toNat / 8) ∨
        (opField w1).toNat / 8 = 20 ∧ rdField w1 = 0xD := by
  unfold decode
  dsimp only
  split
  case h_2 hrow | h_4 hrow | h_5 hrow | h_6 hrow | h_7 hrow | h_8 hrow | h_9 hrow | h_10 hrow | h_11 hrow | h_12 hrow
    | h_13 hrow | h_14 hrow | h_15 hrow | h_16 hrow | h_17 hrow | h_18 hrow | h_19 hrow =>
    simp [hrow, modesOfRow, decodeEa_undefined]
  case h_3 hrow =>
    rw [hrow]
    split_ifs with hm <;> simp [hm, modesOfRow, decodeSt_undefined, decodeOneReg_ne_undefined]
  case h_20 hrow => simp [hrow, modesOfRow, decodeJump_undefined]
  case h_21 hrow => simp [hrow, modesOfRow, decodeCall_undefined]
  case h_22 hrow | h_23 hrow => simp [hrow, modesOfRow, decodeIo_undefined]
  case h_24 hrow =>
    rw [hrow]
    split_ifs <;> simp [*, modesOfRow, decodeOneReg_ne_undefined]
  case h_1 hrow | h_25 hrow | h_26 hrow | h_27 hrow | h_28 hrow =>
    rw [hrow]
    split_ifs <;> simp [*, modesOfRow, decodeBare_ne_undefined]
  case h_29 => simp [modesOfRow]

/-- Settles O13: `decode_undefined`, and the OP values of the blank cells, checked one by one. -/
theorem undefinedWords : Obligations.UndefinedWords := by
  intro op rd rx w
  rw [decode_undefined, opField_firstWord, rdField_firstWord]
  by_cases hrd : rd = 0xD
  · simp only [hrd, and_true]
    revert op
    decide
  · simp only [hrd, and_false, or_false]
    revert op
    decide

/-! ## The jumps and CALL (rule R78) -/

theorem jumpOf_mem {c : BitVec 4} {mk : Target → Instr} (h : jumpOf c = .ok mk) :
    mk ∈ [Instr.jz, .jc, .jm, .jo, .jgt, .jge, .jle, .jlt, .jnz, .jnc, .jnm, .jno, .jhi, .jls, .jmp] := by
  unfold jumpOf at h
  split at h <;> cases h <;> simp

section

variable {op : Byte} {c rd rx : BitVec 4} {w : Word}

theorem hasCondition_of_jumpOf {mk : Target → Instr} (h : jumpOf c = .ok mk) (g : Target) : HasCondition mk g c := by
  rw [HasCondition, encode_of_jumpOf h]
  rfl

theorem decode_of_jump_row (h : op.toNat / 8 = 20) :
    decode (firstWord op rd rx) w = decodeJump (op.toNat % 8) rd rx w := by
  simp [decode, h]

theorem decode_of_call_row (h : op.toNat / 8 = 21) :
    decode (firstWord op rd rx) w = decodeCall (op.toNat % 8) rd rx w := by
  simp [decode, h]

end

/-- Settles O12: the words of the row of the jumps and of the row of CALL, by what the decoder reads from them. -/
theorem jumpConditionTable : Obligations.JumpConditionTable := by
  have jumpRow : ∀ op ∈ ([0xA0, 0xA1, 0xA6] : List Byte), op.toNat / 8 = 20 := by decide
  have callRow : ∀ op ∈ ([0xA8, 0xA9, 0xAE] : List Byte), op.toNat / 8 = 21 := by decide
  refine ⟨fun g => ?table, fun op rd rx w i hop h => ?jump, fun op rx w hop => ?undefined,
    fun op rd rx w i hop h => ?call⟩
  case table => and_intros <;> exact hasCondition_of_jumpOf rfl g
  case jump =>
    rw [decode_of_jump_row (jumpRow op hop)] at h
    obtain ⟨mk, hmk, g, _, rfl⟩ := decodeJump_eq_ok.mp h
    exact ⟨mk, g, rfl, hasCondition_of_jumpOf hmk g, jumpOf_mem hmk⟩
  case undefined =>
    rw [decode_of_jump_row (jumpRow op hop), decodeJump_undefined]
    exact .inr rfl
  case call =>
    rw [decode_of_call_row (callRow op hop)] at h
    obtain ⟨g, _, hrd, rfl⟩ := decodeCall_eq_ok.mp h
    exact ⟨hrd, g, rfl⟩

/-! ## Operand fields (rules R71, R77) -/

/-- A displacement of words from the sign-extended field (rule R94). -/
theorem two_mul_sext4 (f : BitVec 4) : 2 * sext4 f = BitVec.ofInt 16 (2 * f.toInt) := by
  rw [BitVec.ofInt_mul]
  rfl

/-- Settles O3: each word of LD is the encoding of its instruction, and `decode_eq_ok` reads it. -/
theorem operandFieldsAreAssembled : Obligations.OperandFieldsAreAssembled := by
  have twoWords {i : Instr} {w1 w2 : Word} (h : encode i = [w1, w2]) : decode w1 w2 = .ok i :=
    decode_eq_ok.mpr (h ▸ List.prefix_rfl)
  have oneWord {i : Instr} {w1 w2 : Word} (h : encode i = [w1]) : decode w1 w2 = .ok i :=
    decode_eq_ok.mpr (by simp [h])
  refine ⟨fun _ _ => twoWords rfl, fun _ _ _ => twoWords rfl, fun _ _ => twoWords rfl, fun _ _ _ => oneWord rfl,
    fun _ _ _ => oneWord rfl, fun _ _ _ => oneWord rfl, fun _ _ => rfl, fun _ _ _ => rfl, fun _ _ => rfl,
    fun s d4 => ?_, fun _ _ => rfl, fun k => ?_, rfl, rfl, fun _ _ => regOfField_eq_ok⟩
  · rw [Machine.locAddr, two_mul_sext4]
  · simp [Reg.code]
    omega

end Sys2Proof

namespace Sys2Proof.Machine

/-! ## The step of a decoded word (rule R82) -/

section

variable {s : State} {w1 w2 : Word} {i j : Instr}

/-- A first word that is no instruction stops the fetch with the address after it (60_exceptions.md rule R221). -/
theorem fetchInstr_of_reject {r : Reject} (hfirst : fetchWord s s.pc = .ok w1) (h : decode w1 0 = .error r) :
    fetchInstr s = .stop (rejectStop r) (nextPc s 1) := by
  simp only [fetchInstr, hfirst, h, excSavedPc_eq]

/-- The fetch is over with the first word of an instruction of one word, or of one whose privilege is violated
(60_exceptions.md rule R206). -/
theorem fetchInstr_of_first (hfirst : fetchWord s s.pc = .ok w1) (h : decode w1 0 = .ok i)
    (hi : violates i s = true ∨ instrWords i = 1) : fetchInstr s = .instr i := by
  simp only [fetchInstr, hfirst, h]
  split_ifs with hv hone
  · rfl
  · rfl
  · exact absurd hi (by simp [hv, hone])

/-- Otherwise it goes on with the second word. -/
theorem fetchInstr_of_second (hfirst : fetchWord s s.pc = .ok w1) (hsecond : fetchWord s (s.pc + 2) = .ok w2)
    (hj : decode w1 0 = .ok j) (hv : violates j s = false) (hwords : instrWords j = 2) (h : decode w1 w2 = .ok i) :
    fetchInstr s = .instr i := by
  have hne : instrWords j ≠ 1 := by omega
  simp only [fetchInstr, hfirst, hj, hv, if_neg hne, hsecond, h, Bool.false_eq_true, if_false]

/-- Instructions of one length and privilege that violate the privilege raise the same (60_exceptions.md rule R206). -/
theorem exec_eq_of_violates (hwords : instrWords j = instrWords i) (hpriv : privSet j = privSet i)
    (hv : violates i s = true) : exec j s = exec i s := by
  have hvj : violates j s = true := by rwa [violates_eq, hpriv, ← violates_eq]
  rw [exec_of_violates hv, exec_of_violates hvj, hwords]

end

theorem boundary_of_not_armed {s : State} (hh : s.halted = false) (hsd : s.sdArmed = false) :
    s.boundary = { s with inputs := s.inputs.tail, draws := s.draws + 1 } := by
  simp [State.boundary, hh, hsd]

/-- The step of an instruction of two words, the second of which need not be there when its privilege is violated. -/
theorem step_of_decode_two {s : State} {w1 w2 : Word} {i : Instr} (hh : s.halted = false) (hq : acceptedIrq s = none)
    (hfirst : fetchWord s.boundary s.pc = .ok w1) (h : decode w1 w2 = .ok i) (hwords : instrWords i = 2)
    (hsecond : violates i s.boundary = true ∨ fetchWord s.boundary (s.pc + 2) = .ok w2) :
    step s = exec i s.boundary := by
  obtain ⟨j, hj, hjwords, hjpriv⟩ := exists_decode_second h 0
  have hjv : violates j s.boundary = violates i s.boundary := by rw [violates_eq, hjpriv, ← violates_eq]
  cases hv : violates i s.boundary with
  | true =>
    rw [step_of_fetch hh hq (fetchInstr_of_first hfirst hj (.inl (hjv.trans hv)))]
    exact exec_eq_of_violates hjwords hjpriv hv
  | false =>
    have hsecond := hsecond.resolve_left (by simp [hv])
    exact step_of_fetch hh hq
      (fetchInstr_of_second hfirst hsecond hj (hjv.trans hv) (hjwords.trans hwords) h)

/-- Settles O14: the fetch reads the words that `decodeBytes` reads, by the length of the instruction. -/
theorem stepRunsTheDecodedInstruction : Obligations.StepRunsTheDecodedInstruction := by
  intro s b0 b1 b2 b3 i rest hh hq hperm hholds hdecode hsecond
  refine ⟨?_, boundary_of_not_armed hh⟩
  have hfirst : fetchWord s.boundary s.boundary.pc = .ok (wordOf b0 b1) := fetchWord_of_holds hperm hholds
  obtain ⟨_, _, hbs, hi, hone⟩ | ⟨_, _, _, _, hbs, hi, htwo⟩ := decodeBytes_cases hdecode
  · cases hbs
    exact step_of_fetch hh hq (fetchInstr_of_first hfirst hi (.inr hone))
  · cases hbs
    refine step_of_decode_two hh hq hfirst hi htwo ?_
    obtain hone | ⟨hpriv, hp⟩ | ⟨hperm2, hholds2⟩ := hsecond
    · omega
    · exact .inl (by simp [violates_eq, hpriv, hp])
    · exact .inr (fetchWord_of_holds hperm2 hholds2)

/-- Settles O15: the fetch stops at the first word. -/
theorem undefinedWordTraps : Obligations.UndefinedWordTraps := by
  intro s b0 b1 hh hq hperm hholds hdecode
  have hfirst : fetchWord s.boundary s.boundary.pc = .ok (wordOf b0 b1) := fetchWord_of_holds hperm hholds
  exact step_of_fetch_trap hh hq (fetchInstr_of_reject hfirst hdecode)

end Sys2Proof.Machine

/-! # The proofs about the addressing modes (40_addressing.md): the address of an operand, and what it yields -/

namespace Sys2Proof.Machine

/-! ## Words and bytes as numbers (rules R42, R98) -/

/-- The byte at the even address is the upper half of the word (decision D1). -/
theorem toNat_wordOf (hi lo : Byte) : (wordOf hi lo).toNat = hi.toNat * 256 + lo.toNat := by
  have hlo : lo.toNat < 2 ^ 8 := lo.isLt
  rw [wordOf_eq, BitVec.toNat_append, ← Nat.shiftLeft_add_eq_or_of_lt hlo, Nat.shiftLeft_eq]

/-- Whatever the upper half is, the byte at the odd address is the lower half. -/
theorem toNat_wordOf_mod (hi lo : Byte) : (wordOf hi lo).toNat % 256 = lo.toNat := by
  have hlo : lo.toNat < 256 := lo.isLt
  rw [toNat_wordOf]
  omega

theorem toNat_zext8 (b : Byte) : (zext8 b).toNat = b.toNat :=
  BitVec.toNat_setWidth_of_le (by decide)

/-! ## The address and the width of a memory operand (rules R91 to R98) -/

/-- The displacement of mode 3 counts words (rule R94). -/
theorem locAddr_fpRel (s : State) (d4 : BitVec 4) :
    locAddr s (.fpRel d4) = s.reg (.g 12) + BitVec.ofInt 16 (2 * d4.toInt) := by
  rw [locAddr, two_mul_sext4]

/-- Mode 7 alone accesses a byte (20_memory.md rule R43). -/
theorem locWidth_eq_byte {l : Loc} : locWidth l = .byte ↔ ∃ rx, l = .bIndr rx := by
  cases l <;> simp [locWidth]

/-! ## What a permitted read of a memory operand yields (20_memory.md rules R42, R45)

The bytes are those of `dataByte`: what memory holds, or a free value where it keeps nothing. -/

section

variable {s : State} {l : Loc} {hi lo b : Byte}

theorem operand_of_word (hl : locWidth l = .word) (hp : Permitted s (locAddr s l) 2)
    (hhi : dataByte s (locAddr s l).toNat = .ok hi) (hlo : dataByte s ((locAddr s l).toNat + 1) = .ok lo) :
    operand s (.mem l) = .ok (wordOf hi lo) :=
  readLoc_eq_ok.mpr (.inl ⟨hl, readWord_eq_ok.mpr ⟨permitted_iff_checkAccess.mp hp, hi, lo, hhi, hlo, rfl⟩⟩)

theorem operand_of_byte (hl : locWidth l = .byte) (hp : Permitted s (locAddr s l) 1)
    (hb : dataByte s (locAddr s l).toNat = .ok b) : operand s (.mem l) = .ok (zext8 b) :=
  readLoc_eq_ok.mpr (.inr ⟨hl, b, readByte_eq_ok.mpr ⟨permitted_iff_checkAccess.mp hp, hb⟩, rfl⟩)

end

/-- Settles O4: the addresses by their definitions, and the read of a memory operand by the region of its bytes. -/
theorem operandOfEachMode : Obligations.OperandOfEachMode := by
  intro s
  refine ⟨fun _ => rfl, fun _ _ => rfl, locAddr_fpRel s, fun _ => ⟨rfl, rfl⟩, fun _ => locWidth_eq_byte,
    fun l hi lo hl hp hholds => ?word, fun l lo hl hp hattr hlo => ?attributeWord,
    fun rx b hp hr hb => ?byte, fun rx hp hattr => ?attributeByte, fun _ => rfl, fun _ => rfl, fun _ => rfl,
    fun _ => ⟨rfl, rfl⟩, fun _ _ => rfl, fun _ => ⟨rfl, rfl, rfl⟩⟩
  case word =>
    obtain ⟨hrhi, hrlo, hhi, hlo⟩ := hholds
    exact ⟨_, operand_of_word hl hp (dataByte_of_byteAt hrhi hhi) (dataByte_of_byteAt hrlo hlo), toNat_wordOf hi lo⟩
  case attributeWord =>
    have hrlo : region ((locAddr s l).toNat + 1) ≠ .attr := region_succ_ne_attribute (hp.1 rfl)
    exact ⟨_, operand_of_word hl hp (dataByte_attribute s hattr) (dataByte_of_byteAt hrlo hlo), toNat_wordOf_mod _ lo⟩
  case byte => exact ⟨_, operand_of_byte rfl hp (dataByte_of_byteAt hr hb), toNat_zext8 b⟩
  case attributeByte =>
    refine ⟨_, operand_of_byte rfl hp (dataByte_attribute s hattr), ?_⟩
    rw [toNat_zext8]
    exact BitVec.isLt _

end Sys2Proof.Machine

/-! # The proofs about transfer (41_transfer.md), and the exceptions of a store or stack access -/

namespace Sys2Proof.Machine

section

variable {s t : State} {rd : Reg} {src : Src} {l : Loc} {v : Word} {w : Stop} {e : Exc}

/-! ## The stores and stack accesses stop where their checks do (rules R44, R180 to R183) -/

theorem writeLoc_word (hl : locWidth l = .word) : writeLoc s l v = writeWord s (locAddr s l) v := by
  rw [writeLoc, hl]

theorem writeLoc_byte (hl : locWidth l = .byte) : writeLoc s l v = writeByte s (locAddr s l) (lowByte v) := by
  rw [writeLoc, hl]

theorem writeLoc_of_stop (h : checkAccess s (locAddr s l) (if locWidth l = .word then 2 else 1) = .error w) :
    writeLoc s l v = .error w := by
  cases hl : locWidth l with
  | word =>
    rw [if_pos hl] at h
    rw [writeLoc_word hl, writeWord_of_stop h]
  | byte =>
    rw [if_neg (by simp [hl])] at h
    rw [writeLoc_byte hl, writeByte_of_stop h]

theorem pushWord_of_stop (h : checkAccess s (s.reg .sp - 2) 2 = .error w) : pushWord s v = .error w := by
  rw [pushWord, writeWord_of_stop h, bind_error]

theorem popWord_of_stop (h : checkAccess s (s.reg .sp) 2 = .error w) : popWord s = .error w := by
  rw [popWord, readWord_of_stop h, bind_error]

theorem returnFromTrap_of_stop (h : checkAccess s s.ssp 2 = .error w) : returnFromTrap s = .error w := by
  rw [returnFromTrap, readWord_of_stop h, bind_error]

/-! ## How an instruction ends (60_exceptions.md rules R221, R228) -/

/-- An exception of an instruction's first access ends it, with `pc_next` to save. -/
theorem complete_bind_of_trap {α : Type} {x : Except Stop α} (h : x = .error (.trap e)) (n : Nat)
    (f : α → Except Stop State) : complete n s (x >>= f) = raise e (nextPc s n) s := by
  rw [h, bind_error, complete_trap, excSavedPc_eq]

theorem nextPc_one (s : State) : nextPc s 1 = s.pc + 2 := rfl

/-- An instruction outside `PRIV_SET` is what stands under its guard, in either mode. -/
theorem exec_of_guarded {i : Instr} {run : Result} (he : exec i s = guarded i s run) (hi : privSet i = false) :
    exec i s = run :=
  he.trans (guarded_unprivileged run hi)

/-! ## The instructions of transfer (rules R110 to R113) -/

theorem exec_no (s : State) : exec .no s = .next { s with pc := s.pc + 2 } :=
  exec_of_guarded rfl rfl

theorem exec_ld (s : State) (rd : Reg) (src : Src) : exec (.ld rd src) s =
    complete src.words s (do
      let v ← operand s src
      .ok ((s.setReg rd v).setPc (nextPc s src.words))) :=
  exec_of_guarded rfl rfl

theorem exec_ldFlag (s : State) (rd : Reg) :
    exec (.ldFlag rd) s = .next { s.setReg rd s.flags.toWord with pc := s.pc + 2 } :=
  exec_of_guarded rfl rfl

theorem exec_st (s : State) (rd : Reg) (l : Loc) : exec (.st rd l) s =
    complete l.words s (do
      let t ← writeLoc s l (s.reg rd)
      .ok (t.setPc (nextPc s l.words))) :=
  exec_of_guarded rfl rfl

theorem exec_ld_of_ok (h : operand s src = .ok v) :
    exec (.ld rd src) s = .next { s.setReg rd v with pc := s.pc + BitVec.ofNat 16 (2 * src.words) } := by
  rw [exec_ld, h, bind_ok, complete_ok, State.setPc, nextPc]

theorem exec_ld_of_trap (h : operand s src = .error (.trap e)) :
    exec (.ld rd src) s = raise e (s.pc + BitVec.ofNat 16 (2 * src.words)) s := by
  rw [exec_ld, complete_bind_of_trap h, nextPc]

theorem exec_st_of_ok (h : writeLoc s l (s.reg rd) = .ok t) :
    exec (.st rd l) s = .next { t with pc := s.pc + BitVec.ofNat 16 (2 * l.words) } := by
  rw [exec_st, h, bind_ok, complete_ok, State.setPc, nextPc]

/-! ## The instructions that access the stack (45_jump_call.md rule R165, 47_stack_return.md rules R180 to R183) -/

theorem exec_push (s : State) (rd : Reg) : exec (.push rd) s =
    complete 1 s (do
      let t ← pushWord s (pushedValue rd s)
      .ok (t.setPc (nextPc s 1))) :=
  exec_of_guarded rfl rfl

theorem exec_call (s : State) (g : Target) : exec (.call g) s =
    complete g.words s (do
      let u ← pushWord s (nextPc s g.words)
      .ok (u.setPc (targetAddr s g))) :=
  exec_of_guarded rfl rfl

theorem exec_pop (s : State) (rd : Reg) : exec (.pop rd) s =
    complete 1 s (do
      let x ← popWord s
      .ok ((x.2.setReg rd (poppedValue rd s x.1)).setPc (nextPc s 1))) :=
  exec_of_guarded rfl rfl

theorem exec_ret (s : State) : exec .ret s =
    complete 1 s (do
      let x ← popWord s
      .ok (x.2.setPc x.1)) :=
  exec_of_guarded rfl rfl

theorem exec_reti_privileged (hp : s.flags.p = true) : exec .reti s = complete 1 s (returnFromTrap s) :=
  (exec_of_guarded rfl rfl).trans (if_pos hp)

end

/-! ## The statements -/

/-- Settles O26: what the stores of a word and of a byte leave of memory (O6), at the operand's address. -/
theorem stStoresRd : Obligations.StStoresRd := by
  intro s rd l
  obtain ⟨storeWord, storeByte, _⟩ :=
    storeChangesItsBytesAlone s (locAddr s l) (s.reg rd) (lowByte (s.reg rd))
  refine ⟨fun hl hp hw => ?word, fun hl hp hw => ?byte⟩
  case word =>
    obtain ⟨t, hok, hframe, houtside, heven, hodd⟩ := storeWord hp hw
    rw [← highByte_eq_ofNat] at heven
    rw [← lowByte_eq_ofNat] at hodd
    exact ⟨_, exec_st_of_ok ((writeLoc_word hl).trans hok), congrArg (State.setPc · _) hframe, houtside,
      fun hr => heven.trans (if_neg hr), fun hr => heven.trans (if_pos hr), hodd⟩
  case byte =>
    obtain ⟨t, hok, hframe, houtside, hself⟩ := storeByte hp hw
    exact ⟨_, exec_st_of_ok ((writeLoc_byte hl).trans hok), congrArg (State.setPc · _) hframe, houtside,
      fun hr => hself.trans (if_neg hr), fun hr => hself.trans (if_pos hr)⟩

/-- Settles O20: each instruction begins with the access whose checks stop, and has written nothing before it. -/
theorem storeAndStackExceptionsAreRaised : Obligations.StoreAndStackExceptionsAreRaised := by
  intro s rd l g e
  refine ⟨fun h => ?store, fun h => ⟨?push, ?call⟩, fun h => ⟨?pop, ?ret⟩, fun hp hodd => ?reti⟩
  case store => rw [exec_st, complete_bind_of_trap (writeLoc_of_stop h), nextPc]
  case push => rw [exec_push, complete_bind_of_trap (pushWord_of_stop h), nextPc_one]
  case call => rw [exec_call, complete_bind_of_trap (pushWord_of_stop h), nextPc]
  case pop => rw [exec_pop, complete_bind_of_trap (popWord_of_stop h), nextPc_one]
  case ret => rw [exec_ret, complete_bind_of_trap (popWord_of_stop h), nextPc_one]
  case reti =>
    have hc : checkAccess s s.ssp 2 = .error (.trap .oddAddress) := checkAccess_odd s (getLsbD_zero_eq_true.mpr hodd)
    rw [exec_reti_privileged hp, returnFromTrap_of_stop hc, complete_trap, excSavedPc_eq, nextPc_one]

/-- Settles O23: 0000h is the encoding of NO, which `decodeOfEncode` reads back. -/
theorem noAdvancesThePcAlone : Obligations.NoAdvancesThePcAlone :=
  ⟨decodeOfEncode .no [], rfl, exec_no⟩

/-- Settles O24: LD writes what its operand reads as, or raises the exception of the read. -/
theorem ldLoadsTheOperand : Obligations.LdLoadsTheOperand := fun _ _ _ =>
  ⟨fun _ h => exec_ld_of_ok h, fun _ h => exec_ld_of_trap h, rfl⟩

/-- Settles O25: the word is `Flags.toWord`; 15h stands in row 2 of the OP map, whose mode 5 is blank. -/
theorem ldFlagReadsTheFlagWord : Obligations.LdFlagReadsTheFlagWord := by
  intro s rd
  refine ⟨⟨s.flags.toWord, exec_ldFlag s rd, rfl⟩, rfl, rfl, fun x w => ?blank⟩
  case blank =>
    rw [decode_undefined, opField_firstWord]
    exact .inl (by decide)

end Sys2Proof.Machine

/-! # The proofs about arithmetic and logic (42_arith_logic.md), and about MUL (43_mul_div.md rule R130) -/

namespace Sys2Proof.Machine

/-! ## The flags as facts about numbers (10_state.md rules R31 to R33) -/

section

variable {a b r : Word} {k : Nat} {op : OpenOp}

theorem resultFlags_z_iff : (resultFlags k op a b r).z = true ↔ r.toNat = 0 := beq_zero_iff r

theorem resultFlags_s_iff : (resultFlags k op a b r).s = true ↔ r.toInt < 0 := msb_iff r

theorem addFlags_z_iff : (addFlags a b).z = true ↔ (a + b).toNat = 0 := beq_zero_iff _

theorem addFlags_s_iff : (addFlags a b).s = true ↔ (a + b).toInt < 0 := msb_iff _

theorem addFlags_c_iff : (addFlags a b).c = true ↔ 65536 ≤ a.toNat + b.toNat := decide_eq_true_iff

/-- V is the overflow of the signed sum: the operands have one sign and the result the other. -/
theorem addFlags_v_iff :
    (addFlags a b).v = true ↔ a.toInt + b.toInt < -32768 ∨ 32767 < a.toInt + b.toInt := by
  have hv : (addFlags a b).v = a.saddOverflow b := (BitVec.saddOverflow_eq a b).symm
  rw [hv, BitVec.saddOverflow, Bool.or_eq_true, decide_eq_true_iff, decide_eq_true_iff]
  omega

/-- A difference modulo 2^16 is 0 only between equal words. -/
theorem subFlags_z_iff : (subFlags a b).z = true ↔ a = b :=
  beq_iff_eq.trans (BitVec.sub_eq_iff_eq_add.trans (by simp))

theorem subFlags_s_iff : (subFlags a b).s = true ↔ (a - b).toInt < 0 := msb_iff _

theorem subFlags_c_iff : (subFlags a b).c = true ↔ a.toNat < b.toNat := decide_eq_true_iff

/-- V is the overflow of the signed difference: the operands differ in sign, and the result has the sign of `b`. -/
theorem subFlags_v_iff :
    (subFlags a b).v = true ↔ a.toInt - b.toInt < -32768 ∨ 32767 < a.toInt - b.toInt := by
  have hv : (subFlags a b).v = a.ssubOverflow b := by
    rw [BitVec.ssubOverflow_eq, subFlags]
    cases a.msb <;> cases b.msb <;> simp
  rw [hv, BitVec.ssubOverflow, Bool.or_eq_true, decide_eq_true_iff, decide_eq_true_iff]
  omega

/-! ## Results as exact numbers modulo 2^16 (rules R121, R126) -/

/-- What SUB writes. -/
theorem toNat_sub_eq_emod : ((a - b).toNat : Int) = (a.toNat - b.toNat : Int) % 65536 := by
  have ha := a.isLt
  have hb := b.isLt
  rw [BitVec.toNat_sub]
  omega

/-- What ADDS writes. -/
theorem toNat_add_two_mul : (a + 2 * b).toNat = (a.toNat + 2 * b.toNat) % 65536 := by
  rw [BitVec.toNat_add, BitVec.toNat_mul, Nat.add_mod_mod]
  rfl

end

/-! ## The instructions that write a result and flags (rule R127) -/

section

variable {s : State} {rd : Reg} {src : Src} {b : Word}

/-- What an instruction of flag class RESULT leaves, when its operand can be read: the flags come from the result that it
writes (10_state.md rule R33). -/
theorem exec_of_plain {i : Instr} {op : OpenOp} {g : Word → Word → Word}
    (he : exec i s = binary rd src s (plain s op g)) (h : operand s src = .ok b) :
    exec i s = .next { (s.setReg rd (g (s.reg rd) b)).setVcsz
        (resultFlags s.draws op (s.reg rd) b (g (s.reg rd) b)) with
      pc := s.pc + BitVec.ofNat 16 (2 * src.words) } :=
  he.trans (binary_of_ok (r := (_, _)) h rfl)

variable (s rd src)

theorem exec_add : exec (.add rd src) s = binary rd src s fun a b => .ok (a + b, addFlags a b) :=
  exec_of_guarded rfl rfl

theorem exec_sub : exec (.sub rd src) s = binary rd src s fun a b => .ok (a - b, subFlags a b) :=
  exec_of_guarded rfl rfl

theorem exec_cmp : exec (.cmp rd src) s =
    complete src.words s (do
      let b ← operand s src
      .ok ((s.setVcsz (subFlags (s.reg rd) b)).setPc (nextPc s src.words))) :=
  exec_of_guarded rfl rfl

theorem exec_and : exec (.and rd src) s = binary rd src s (plain s .and fun a b => a &&& b) :=
  exec_of_guarded rfl rfl

theorem exec_or : exec (.or rd src) s = binary rd src s (plain s .or fun a b => a ||| b) :=
  exec_of_guarded rfl rfl

theorem exec_xor : exec (.xor rd src) s = binary rd src s (plain s .xor fun a b => a ^^^ b) :=
  exec_of_guarded rfl rfl

theorem exec_adds : exec (.adds rd src) s = binary rd src s (plain s .adds fun a b => a + 2 * b) :=
  exec_of_guarded rfl rfl

theorem exec_mul : exec (.mul rd src) s = binary rd src s (plain s .mul mulDiv.mul) :=
  exec_of_guarded rfl rfl

variable {s rd src}

theorem exec_add_of_ok (h : operand s src = .ok b) :
    exec (.add rd src) s = .next { (s.setReg rd (s.reg rd + b)).setVcsz (addFlags (s.reg rd) b) with
      pc := s.pc + BitVec.ofNat 16 (2 * src.words) } :=
  (exec_add s rd src).trans (binary_of_ok (r := (_, _)) h rfl)

theorem exec_sub_of_ok (h : operand s src = .ok b) :
    exec (.sub rd src) s = .next { (s.setReg rd (s.reg rd - b)).setVcsz (subFlags (s.reg rd) b) with
      pc := s.pc + BitVec.ofNat 16 (2 * src.words) } :=
  (exec_sub s rd src).trans (binary_of_ok (r := (_, _)) h rfl)

theorem exec_cmp_of_ok (h : operand s src = .ok b) :
    exec (.cmp rd src) s = .next { s.setVcsz (subFlags (s.reg rd) b) with
      pc := s.pc + BitVec.ofNat 16 (2 * src.words) } := by
  rw [exec_cmp, h, bind_ok, complete_ok, State.setPc, nextPc]

end

/-! ## The statements -/

/-- Settles O27: the sum modulo 2^16, and each flag of class ADD as the fact about the exact sum that it stands for. -/
theorem addWritesSumAndFlags : Obligations.AddWritesSumAndFlags := fun _ _ _ _ h =>
  ⟨_, _, exec_add_of_ok h, BitVec.toNat_add _ _, addFlags_z_iff, addFlags_s_iff, addFlags_c_iff, addFlags_v_iff⟩

/-- Settles O28: SUB and CMP write the same flags, each of them a fact about the exact difference. -/
theorem subAndCmpWriteFlags : Obligations.SubAndCmpWriteFlags := fun _ _ _ _ h =>
  ⟨_, _, exec_sub_of_ok h, exec_cmp_of_ok h, toNat_sub_eq_emod, subFlags_z_iff, subFlags_s_iff, subFlags_c_iff,
    subFlags_v_iff⟩

/-- Settles O29: the three instructions are of one form, each with the bits of its own operation. -/
theorem logicWritesBitwiseResult : Obligations.LogicWritesBitwiseResult := by
  intro s rd src b h
  refine List.forall_mem_cons.mpr ⟨?and, List.forall_mem_cons.mpr ⟨?or, List.forall_mem_singleton.mpr ?xor⟩⟩
  case and =>
    exact ⟨_, _, exec_of_plain (exec_and s rd src) h, fun _ _ => BitVec.getLsbD_and, resultFlags_z_iff,
      resultFlags_s_iff⟩
  case or =>
    exact ⟨_, _, exec_of_plain (exec_or s rd src) h, fun _ _ => BitVec.getLsbD_or, resultFlags_z_iff,
      resultFlags_s_iff⟩
  case xor =>
    exact ⟨_, _, exec_of_plain (exec_xor s rd src) h, fun _ _ => BitVec.getLsbD_xor, resultFlags_z_iff,
      resultFlags_s_iff⟩

/-- Settles O30: both are of the form of O29; the product is the one of the unsigned unit. -/
theorem addsAndMulWriteResult : Obligations.AddsAndMulWriteResult := by
  intro s rd src b h
  refine List.forall_mem_cons.mpr ⟨?adds, List.forall_mem_singleton.mpr ?mul⟩
  case adds =>
    exact ⟨_, _, exec_of_plain (exec_adds s rd src) h, toNat_add_two_mul, resultFlags_z_iff, resultFlags_s_iff⟩
  case mul =>
    exact ⟨_, _, exec_of_plain (exec_mul s rd src) h, mulDiv_isUnsigned.mul _ _, resultFlags_z_iff, resultFlags_s_iff⟩

end Sys2Proof.Machine

/-! # The proofs about division and the register pair (43_mul_div.md), and about the forms without meaning -/

namespace Sys2Proof.Machine

/-! ## The register pair (43_mul_div.md rules R133, R134) -/

theorem reg_eq_of_code_toNat_eq {r q : Reg} (h : r.code.toNat = q.code.toNat) : r = q :=
  Except.ok.inj <| calc
    Except.ok r = regOfField r.code := (regOfField_code r).symm
    _ = regOfField q.code := by rw [BitVec.eq_of_toNat_eq h]
    _ = .ok q := regOfField_code q

section

variable {s : State} {rd rh : Reg} {lo hi : Word} {fl : Vcsz}

/-- The second half of a pair is the register whose number is one higher: for G12 that is SP. -/
theorem pairHigh_code_of_beginsPair (h : beginsPair rd = true) :
    ∃ rh, pairHigh rd = some rh ∧ rh.code.toNat = rd.code.toNat + 1 := by
  cases rd with
  | g k => revert h; revert k; decide
  | sp => cases h
  | usp => cases h

/-- An odd register number, SP among them, and USP begin no pair. -/
theorem pairHigh_eq_none_of_odd_or_usp (h : rd.code.toNat % 2 = 1 ∨ rd = .usp) : pairHigh rd = none := by
  cases rd with
  | g k => revert h; revert k; decide
  | sp => rfl
  | usp => rfl

/-- A register that begins a pair is a general register. -/
theorem isActiveSp_of_beginsPair (h : beginsPair rd = true) : isActiveSp s rd = false := by
  cases rd with
  | g k => rfl
  | sp => cases h
  | usp => cases h

theorem reg_setPair_high : (setPair s rd rh lo hi fl).reg rh = hi := by
  rw [setPair, State.reg_setVcsz, State.reg_setReg_self]

/-- The second write leaves the first: the two halves of a pair are never one register, in either mode. -/
theorem reg_setPair_low (hrd : beginsPair rd = true) (hcode : rh.code.toNat = rd.code.toNat + 1) :
    (setPair s rd rh lo hi fl).reg rd = lo := by
  have hne : rd ≠ rh := by
    rintro rfl
    omega
  have hsp : ¬(isActiveSp (s.setReg rd lo) rh = true ∧ isActiveSp (s.setReg rd lo) rd = true) := by
    simp [isActiveSp_of_beginsPair hrd]
  rw [setPair, State.reg_setVcsz, State.reg_setReg_of_ne _ _ hne (.inr hsp), State.reg_setReg_self]

end

/-! ## The unit (rules R131 to R135) -/

/-- The long quotient fits exactly when the upper half is below the divisor; it is then written with its remainder. -/
theorem longDivide_of_lt {hi b : Word} (h : hi.toNat < b.toNat) (k : Nat) (lo : Word) :
    hi.toNat * 65536 + lo.toNat = b.toNat * (longDivide k hi lo b).1.toNat + (longDivide k hi lo b).2.toNat ∧
      (longDivide k hi lo b).2.toNat < b.toNat := by
  have hb : 0 < b.toNat := Nat.zero_lt_of_lt h
  have hfits : (hi.toNat * 65536 + lo.toNat) / b.toNat < 65536 := by
    rw [Nat.div_lt_iff_lt_mul hb]
    have hlo := lo.isLt
    omega
  have hrem := Nat.mod_lt (hi.toNat * 65536 + lo.toNat) hb
  have hrem' : (hi.toNat * 65536 + lo.toNat) % b.toNat < 65536 := hrem.trans b.isLt
  rw [longDivide, mulDiv_isUnsigned.divl, if_pos hfits, Option.getD_some, BitVec.toNat_ofNat, BitVec.toNat_ofNat,
    Nat.mod_eq_of_lt hfits, Nat.mod_eq_of_lt hrem', Nat.div_add_mod]
  exact ⟨rfl, hrem⟩

/-! ## The instructions -/

section

variable {s : State} {rd rh : Reg} {src : Src} {b : Word}

/-- An exception of the computation ends an arithmetic instruction. -/
theorem binary_of_result_trap {e : Exc} {f : Word → Word → Except Stop (Word × Vcsz)} (h : operand s src = .ok b)
    (hf : f (s.reg rd) b = .error (.trap e)) :
    binary rd src s f = raise e (s.pc + BitVec.ofNat 16 (2 * src.words)) s := by
  rw [binary, h, bind_ok, complete_bind_of_trap hf, nextPc]

theorem divided_of_ne_zero (hb : b ≠ 0) (op : OpenOp) (g : Word → Word → Word) (a : Word) :
    divided s op g a b = plain s op g a b :=
  if_neg hb

theorem divided_zero (op : OpenOp) (g : Word → Word → Word) (a : Word) :
    divided s op g a 0 = .error (.trap .zeroDivide) :=
  if_pos rfl

theorem exec_div (s : State) (rd : Reg) (src : Src) : exec (.div rd src) s =
    binary rd src s (divided s .div fun a b => (mulDiv.div a b).getD (Config.divQuotient s.draws a b)) :=
  exec_of_guarded rfl rfl

theorem exec_mod (s : State) (rd : Reg) (src : Src) :
    exec (.mod rd src) s = binary rd src s (divided s .mod mulDiv.mod) :=
  exec_of_guarded rfl rfl

/-- What DIV and MOD leave, when the divisor is not zero. -/
theorem exec_of_divided {i : Instr} {op : OpenOp} {g : Word → Word → Word}
    (he : exec i s = binary rd src s (divided s op g)) (h : operand s src = .ok b) (hb : b ≠ 0) :
    exec i s = .next { (s.setReg rd (g (s.reg rd) b)).setVcsz
        (resultFlags s.draws op (s.reg rd) b (g (s.reg rd) b)) with
      pc := s.pc + BitVec.ofNat 16 (2 * src.words) } :=
  he.trans (binary_of_ok (r := (_, _)) h (divided_of_ne_zero hb op g _))

/-- The quotient of the unsigned unit always fits, so that DIV writes no free value. -/
theorem exec_div_of_ok (h : operand s src = .ok b) (hb : b ≠ 0) :
    ∃ q : Word, q.toNat = (s.reg rd).toNat / b.toNat ∧
      exec (.div rd src) s = .next { (s.setReg rd q).setVcsz (resultFlags s.draws .div (s.reg rd) b q) with
        pc := s.pc + BitVec.ofNat 16 (2 * src.words) } := by
  obtain ⟨q, hunit, hq⟩ := mulDiv_isUnsigned.div (s.reg rd) b
  have hdiv := exec_of_divided (exec_div s rd src) h hb
  rw [hunit, Option.getD_some] at hdiv
  exact ⟨q, hq, hdiv⟩

theorem exec_mull (s : State) (rd : Reg) (src : Src) : exec (.mull rd src) s =
    (pairHigh rd).elim (.refused .registerPair) fun rh => complete src.words s (do
      let b ← operand s src
      let p := mulDiv.mull (s.reg rd) b
      .ok ((setPair s rd rh (p.extractLsb' 0 16) (p.extractLsb' 16 16)
        (openFlags s.draws .mull 0 (s.reg rd) b)).setPc (nextPc s src.words))) :=
  exec_of_guarded (by rw [exec, execMull]; cases pairHigh rd <;> rfl) rfl

theorem exec_divl (s : State) (rd : Reg) (src : Src) : exec (.divl rd src) s =
    (pairHigh rd).elim (.refused .registerPair) fun rh => complete src.words s (do
      let b ← operand s src
      let q := longDivide s.draws (s.reg rh) (s.reg rd) b
      if b = 0 then .error (.trap .zeroDivide)
      else
        .ok ((setPair s rd rh q.1 q.2 (openFlags s.draws .divl (s.reg rh) (s.reg rd) b)).setPc
          (nextPc s src.words))) :=
  exec_of_guarded (by rw [exec, execDivl]; cases pairHigh rd <;> rfl) rfl

theorem exec_mull_of_ok (hrh : pairHigh rd = some rh) (h : operand s src = .ok b) :
    exec (.mull rd src) s = .next ((setPair s rd rh ((mulDiv.mull (s.reg rd) b).extractLsb' 0 16)
      ((mulDiv.mull (s.reg rd) b).extractLsb' 16 16) (openFlags s.draws .mull 0 (s.reg rd) b)).setPc
        (nextPc s src.words)) := by
  rw [exec_mull, hrh, Option.elim_some, h, bind_ok, complete_ok]

theorem exec_divl_of_ok (hrh : pairHigh rd = some rh) (h : operand s src = .ok b) (hb : b ≠ 0) :
    exec (.divl rd src) s = .next ((setPair s rd rh (longDivide s.draws (s.reg rh) (s.reg rd) b).1
      (longDivide s.draws (s.reg rh) (s.reg rd) b).2 (openFlags s.draws .divl (s.reg rh) (s.reg rd) b)).setPc
        (nextPc s src.words)) := by
  rw [exec_divl, hrh, Option.elim_some, h, bind_ok, if_neg hb, complete_ok]

theorem exec_divl_of_zero (hrh : pairHigh rd = some rh) (h : operand s src = .ok 0) :
    exec (.divl rd src) s = raise .zeroDivide (s.pc + BitVec.ofNat 16 (2 * src.words)) s := by
  rw [exec_divl, hrh, Option.elim_some, h, bind_ok, if_pos rfl, complete_trap, excSavedPc_eq, nextPc]

theorem exec_mull_of_no_pair (hrd : pairHigh rd = none) : exec (.mull rd src) s = .refused .registerPair := by
  rw [exec_mull, hrd, Option.elim_none]

theorem exec_divl_of_no_pair (hrd : pairHigh rd = none) : exec (.divl rd src) s = .refused .registerPair := by
  rw [exec_divl, hrd, Option.elim_none]

end

/-! ## IN and OUT of a port without meaning (20_memory.md rules R51, R54) -/

section

variable {s : State} {rd : Reg} {p : Port} {r : Refusal} {a : Word}

theorem checkPort_above (h : 0xFF < a.toNat) (w : Width) : checkPort a w = .error (.refuse .portAboveFF) :=
  if_pos h

theorem checkPort_odd_word (hle : a.toNat ≤ 0xFF) (hodd : a.toNat % 2 = 1) :
    checkPort a .word = .error (.refuse .oddWordPort) :=
  (if_neg (by omega)).trans (if_pos (getLsbD_zero_eq_true.mpr hodd))

theorem checkPort_limit_byte (hlow : 0xF4 ≤ a.toNat) (hhigh : a.toNat ≤ 0xF7) :
    checkPort a .byte = .error (.refuse .limitPortByte) := by
  have hport : isLimitPort (lowByte a) = true := by
    rw [isLimitPort, Bool.and_eq_true, decide_eq_true_iff, decide_eq_true_iff, lowByte_eq_ofNat, BitVec.toNat_ofNat]
    omega
  exact (if_neg (by omega)).trans (if_pos hport)

theorem ioRead_of_stop {w : Width} {e : Stop} (h : checkPort a w = .error e) : ioRead s a w = .error e := by
  rw [ioRead, h, bind_error]

theorem ioWrite_of_stop {w : Width} {v : Word} {e : Stop} (h : checkPort a w = .error e) :
    ioWrite s a w v = .error e := by
  simp only [ioWrite, h, bind_error]

theorem complete_refuse (n : Nat) : complete n s (.error (.refuse r)) = .refused r := rfl

theorem exec_inp_privileged (hp : s.flags.p = true) : exec (.inp rd p) s =
    complete p.words s (do
      let x ← ioRead s (portAddr s p) (portWidth p)
      .ok ((x.2.setReg rd x.1).setPc (nextPc s p.words))) :=
  guarded_privileged _ hp

theorem exec_outp_privileged (hp : s.flags.p = true) : exec (.outp rd p) s =
    complete p.words s (do
      let t ← ioWrite s (portAddr s p) (portWidth p) (s.reg rd)
      .ok (t.setPc (nextPc s p.words))) :=
  guarded_privileged _ hp

/-- In privileged mode IN and OUT are refused as the check of the port is: neither has done anything before it. -/
theorem exec_io_of_refuse (hp : s.flags.p = true) (h : checkPort (portAddr s p) (portWidth p) = .error (.refuse r)) :
    exec (.inp rd p) s = .refused r ∧ exec (.outp rd p) s = .refused r := by
  constructor
  · rw [exec_inp_privileged hp, ioRead_of_stop h, bind_error, complete_refuse]
  · rw [exec_outp_privileged hp, ioWrite_of_stop h, bind_error, complete_refuse]

end

/-! ## The fetch of a word without meaning (30_encoding.md rule R79, 10_state.md rule R23) -/

/-- A step of a CPU that is not halted and accepts no interrupt is refused as the fetch is. -/
theorem step_of_fetch_refuse {s : State} {r : Refusal} {pc : Word} (hh : s.halted = false) (hq : acceptedIrq s = none)
    (hf : fetchInstr s.boundary = .stop (.refuse r) pc) : step s = .refused r := by
  simp [step, hh, hq, hf, raiseStop]

/-! ## The statements -/

/-- Settles O31: the quotient and the remainder are those of the natural numbers. -/
theorem divAndModDivide : Obligations.DivAndModDivide := by
  refine ⟨mulDiv_isUnsigned, fun s rd src b h hb => ?_⟩
  obtain ⟨q, hq, hdiv⟩ := exec_div_of_ok (rd := rd) h hb
  have hm := mulDiv_isUnsigned.mod (s.reg rd) b
  have hpos : 0 < b.toNat := BitVec.toNat_pos_of_ne_zero hb
  refine ⟨q, _, _, _, hdiv, exec_of_divided (exec_mod s rd src) h hb, ?sum, ?below, resultFlags_z_iff,
    resultFlags_s_iff, resultFlags_z_iff, resultFlags_s_iff⟩
  case sum => rw [hq, hm, Nat.div_add_mod]
  case below => exact hm ▸ Nat.mod_lt _ hpos

/-- Settles O32: the two halves of the product are written to two registers. -/
theorem mullWritesThePair : Obligations.MullWritesThePair := by
  intro s rd src b h hrd
  obtain ⟨rh, hrh, hcode⟩ := pairHigh_code_of_beginsPair hrd
  refine ⟨rh, _, _, _, _, exec_mull_of_ok hrh h, rfl, hcode, ?low, ?high, ?product⟩
  case low => rw [State.reg_setPc, reg_setPair_low hrd hcode]
  case high => rw [State.reg_setPc, reg_setPair_high]
  case product => rw [halves_toNat, mulDiv_isUnsigned.mull]

/-- Settles O33: DIVL completes in any case, and `longDivide_of_lt` says what it writes where the quotient fits. -/
theorem divlDividesThePair : Obligations.DivlDividesThePair := by
  intro s rd src b h hb hrd
  obtain ⟨rh, hrh, hcode⟩ := pairHigh_code_of_beginsPair hrd
  refine ⟨rh, _, _, _, _, exec_divl_of_ok hrh h hb, rfl, hcode, ?low, ?high, fun hlt => longDivide_of_lt hlt _ _⟩
  case low => rw [State.reg_setPc, reg_setPair_low hrd hcode]
  case high => rw [State.reg_setPc, reg_setPair_high]

/-- Settles O34: the upper half of the product is below the divisor, so that O33 divides what O32 wrote; quotient and
remainder of a multiple of the divisor are the other factor and 0. -/
theorem divlUndoesMull : Obligations.DivlUndoesMull := by
  intro s t rd rh src b hrd hcode h hb hmull ht
  obtain ⟨rm, _, _, _, t', hmull', _, hcode', rfl, rfl, hproduct⟩ := mullWritesThePair s rd src b h hrd
  obtain ⟨rv, _, _, _, u, hdivl, _, hcode'', rfl, rfl, hdivides⟩ := divlDividesThePair t rd src b ht hb hrd
  obtain rfl : rm = rh := reg_eq_of_code_toNat_eq (hcode'.trans hcode.symm)
  obtain rfl : rv = rm := reg_eq_of_code_toNat_eq (hcode''.trans hcode.symm)
  obtain rfl : t = t' := Host.Outcome.next.inj (hmull.symm.trans hmull')
  have hpos : 0 < b.toNat := BitVec.toNat_pos_of_ne_zero hb
  have hlt : (t.reg rv).toNat < b.toNat := by
    have hbound := Nat.mul_lt_mul_of_pos_right (s.reg rd).isLt hpos
    omega
  obtain ⟨hsum, hm⟩ := hdivides hlt
  obtain ⟨hq, hr⟩ : (s.reg rd).toNat * b.toNat / b.toNat = (u.reg rd).toNat ∧
      (s.reg rd).toNat * b.toNat % b.toNat = (u.reg rv).toNat :=
    (Nat.div_mod_unique hpos).mpr ⟨by omega, hm⟩
  rw [Nat.mul_div_cancel _ hpos] at hq
  rw [Nat.mul_mod_left] at hr
  exact ⟨u, hdivl, BitVec.eq_of_toNat_eq hq.symm, BitVec.eq_of_toNat_eq hr.symm⟩

/-- Settles O21: each of the three looks at the divisor before it writes. -/
theorem divisionByZeroTraps : Obligations.DivisionByZeroTraps := by
  intro s rd src h
  refine List.forall_mem_cons.mpr ⟨fun _ => ?div, List.forall_mem_cons.mpr ⟨fun _ => ?mod,
    List.forall_mem_singleton.mpr fun hrd => ?divl⟩⟩
  case div => rw [exec_div, binary_of_result_trap h (divided_zero _ _ _)]
  case mod => rw [exec_mod, binary_of_result_trap h (divided_zero _ _ _)]
  case divl =>
    obtain ⟨rh, hrh, _⟩ := pairHigh_code_of_beginsPair hrd
    exact exec_divl_of_zero hrh h

/-- Settles O52: MULL and DIVL look for the pair first, IN and OUT check the port first, and the fetch stops at a
first word that is no instruction. -/
theorem formsWithoutMeaningAreRefused : Obligations.FormsWithoutMeaningAreRefused := by
  refine ⟨fun s rd src hrd => ?pair, fun s rd p hp => ?port, fun s b0 b1 hh hq hperm hholds => ?word⟩
  case pair =>
    have hnone := pairHigh_eq_none_of_odd_or_usp hrd
    exact ⟨exec_mull_of_no_pair hnone, exec_divl_of_no_pair hnone⟩
  case port =>
    refine ⟨fun habove => exec_io_of_refuse hp (checkPort_above habove _), fun hle hw hodd => exec_io_of_refuse hp ?_,
      fun hlow hhigh hw => exec_io_of_refuse hp ?_⟩
    · rw [hw, checkPort_odd_word hle hodd]
    · rw [hw, checkPort_limit_byte hlow hhigh]
  case word =>
    have hfirst : fetchWord s.boundary s.boundary.pc = .ok (wordOf b0 b1) := fetchWord_of_holds hperm hholds
    exact ⟨fun h => step_of_fetch_refuse hh hq (fetchInstr_of_reject hfirst h),
      fun h => step_of_fetch_refuse hh hq (fetchInstr_of_reject hfirst h)⟩

end Sys2Proof.Machine

/-! # The proofs about the shifts (44_shift.md) -/

namespace Sys2Proof.Machine

/-! ## Shifts as arithmetic (rules R140 to R143) -/

section

variable (a : Word) (k : Nat)

theorem toNat_shiftLeft_eq_mul_pow : (a <<< k).toNat = a.toNat * 2 ^ k % 65536 := by
  rw [BitVec.toNat_shiftLeft, Nat.shiftLeft_eq]

/-- Integer division rounds toward minus infinity here, since the divisor is positive. -/
theorem toInt_sshiftRight_eq_div_pow : (a.sshiftRight k).toInt = a.toInt / 2 ^ k := by
  rw [BitVec.toInt_sshiftRight, Int.shiftRight_eq_div_pow, Nat.cast_pow, Nat.cast_ofNat]

theorem toNat_ushiftRight_eq_div_pow : (a >>> k).toNat = a.toNat / 2 ^ k := by
  rw [BitVec.toNat_ushiftRight, Nat.shiftRight_eq_div_pow]

end

/-! ## The instructions (rule R144) -/

section

variable {s : State} {rd : Reg} {src : Src} {n : Word}

theorem shifted_of_le {k : Nat} {op : OpenOp} {g : Word → Nat → Word} (hn : n.toNat ≤ 15) (a : Word) :
    shifted k op g a n = g a n.toNat :=
  if_pos hn

/-- What a shift leaves, when its count can be read. A property `Q` of the plain shift `g` holds of the result for counts
of at most 15 only, since a greater count writes a free value; Z and S come from the result in either case. -/
theorem exec_of_shifted {i : Instr} {op : OpenOp} {g : Word → Nat → Word} {Q : Word → Prop}
    (he : exec i s = binary rd src s (plain s op (shifted s.draws op g))) (h : operand s src = .ok n)
    (hQ : Q (g (s.reg rd) n.toNat)) :
    ∃ (r : Word) (fl : Vcsz),
      exec i s = .next { (s.setReg rd r).setVcsz fl with pc := s.pc + BitVec.ofNat 16 (2 * src.words) } ∧
        (n.toNat ≤ 15 → Q r) ∧ (fl.z = true ↔ r.toNat = 0) ∧ (fl.s = true ↔ r.toInt < 0) := by
  refine ⟨_, _, exec_of_plain he h, fun hn => ?_, resultFlags_z_iff, resultFlags_s_iff⟩
  rwa [shifted_of_le hn]

variable (s rd src)

theorem exec_shla : exec (.shla rd src) s =
    binary rd src s (plain s .shla (shifted s.draws .shla fun a k => a <<< k)) :=
  exec_of_guarded rfl rfl

theorem exec_shll : exec (.shll rd src) s =
    binary rd src s (plain s .shll (shifted s.draws .shll fun a k => a <<< k)) :=
  exec_of_guarded rfl rfl

theorem exec_shra : exec (.shra rd src) s =
    binary rd src s (plain s .shra (shifted s.draws .shra fun a k => a.sshiftRight k)) :=
  exec_of_guarded rfl rfl

theorem exec_shrl : exec (.shrl rd src) s =
    binary rd src s (plain s .shrl (shifted s.draws .shrl fun a k => a >>> k)) :=
  exec_of_guarded rfl rfl

end

/-! ## The statements -/

/-- Settles O35: the two left shifts compute one result, and differ in the free values only. -/
theorem leftShiftsMultiply : Obligations.LeftShiftsMultiply := by
  intro s rd src n h
  refine List.forall_mem_cons.mpr ⟨?shla, List.forall_mem_singleton.mpr ?shll⟩
  case shla => exact exec_of_shifted (exec_shla s rd src) h (toNat_shiftLeft_eq_mul_pow _ _)
  case shll => exact exec_of_shifted (exec_shll s rd src) h (toNat_shiftLeft_eq_mul_pow _ _)

/-- Settles O36: the arithmetic shift divides the signed value, the logical one the unsigned value. -/
theorem rightShiftsDivide : Obligations.RightShiftsDivide := by
  intro s rd src n h
  refine ⟨?shra, ?shrl⟩
  case shra => exact exec_of_shifted (exec_shra s rd src) h (toInt_sshiftRight_eq_div_pow _ _)
  case shrl => exact exec_of_shifted (exec_shrl s rd src) h (toNat_ushiftRight_eq_div_pow _ _)

end Sys2Proof.Machine

/-! # The proofs about the jumps and CALL (45_jump_call.md) -/

namespace Sys2Proof

open Machine

/-! ## Where each jump goes (rules R150 to R164, R167) -/

section

variable {mk : Target → Instr} {s : State} {g : Target} {c c' : Prop}

theorem JumpDecides.congr (h : JumpDecides mk s g c) (hc : c ↔ c') : JumpDecides mk s g c' :=
  ⟨fun hc' => h.1 (hc.mpr hc'), fun hc' => h.2 (mt hc.mp hc')⟩

/-- An instruction of the form of the jumps decides by its condition. -/
theorem JumpDecides.of_jumpIf {b : Bool} (he : exec (mk g) s = jumpIf b g s) (hb : b = true ↔ c) :
    JumpDecides mk s g c := by
  refine ⟨fun hc => ?taken, fun hc => ?notTaken⟩
  case taken => rw [he, hb.mpr hc, jumpIf_true]
  case notTaken => rw [he, Bool.eq_false_iff.mpr (mt hb.mp hc), jumpIf_false]

variable (s g)

theorem jz_decides : JumpDecides .jz s g (s.flags.z = true) := .of_jumpIf (exec_of_guarded rfl rfl) Iff.rfl

theorem jc_decides : JumpDecides .jc s g (s.flags.c = true) := .of_jumpIf (exec_of_guarded rfl rfl) Iff.rfl

theorem jm_decides : JumpDecides .jm s g (s.flags.s = true) := .of_jumpIf (exec_of_guarded rfl rfl) Iff.rfl

theorem jo_decides : JumpDecides .jo s g (s.flags.v = true) := .of_jumpIf (exec_of_guarded rfl rfl) Iff.rfl

theorem jgt_decides : JumpDecides .jgt s g (s.flags.z = false ∧ s.flags.s = s.flags.v) :=
  .of_jumpIf (exec_of_guarded rfl rfl) (by simp)

theorem jge_decides : JumpDecides .jge s g (s.flags.s = s.flags.v) :=
  .of_jumpIf (exec_of_guarded rfl rfl) beq_iff_eq

theorem jle_decides : JumpDecides .jle s g (s.flags.z = true ∨ s.flags.s ≠ s.flags.v) :=
  .of_jumpIf (exec_of_guarded rfl rfl) (by simp)

theorem jlt_decides : JumpDecides .jlt s g (s.flags.s ≠ s.flags.v) :=
  .of_jumpIf (exec_of_guarded rfl rfl) bne_iff_ne

theorem jnz_decides : JumpDecides .jnz s g (s.flags.z = false) :=
  .of_jumpIf (exec_of_guarded rfl rfl) (by simp)

theorem jnc_decides : JumpDecides .jnc s g (s.flags.c = false) :=
  .of_jumpIf (exec_of_guarded rfl rfl) (by simp)

theorem jnm_decides : JumpDecides .jnm s g (s.flags.s = false) :=
  .of_jumpIf (exec_of_guarded rfl rfl) (by simp)

theorem jno_decides : JumpDecides .jno s g (s.flags.v = false) :=
  .of_jumpIf (exec_of_guarded rfl rfl) (by simp)

theorem jhi_decides : JumpDecides .jhi s g (s.flags.z = false ∧ s.flags.c = false) :=
  .of_jumpIf (exec_of_guarded rfl rfl) (by simp)

theorem jls_decides : JumpDecides .jls s g (s.flags.z = true ∨ s.flags.c = true) :=
  .of_jumpIf (exec_of_guarded rfl rfl) (by simp)

theorem jmp_decides : JumpDecides .jmp s g True := .of_jumpIf (exec_of_guarded rfl rfl) (by simp)

end

theorem Keeps.writable {a : Word} {n : Nat} (h : Keeps a n) : Writable a n := fun k hk => (h k hk).1

end Sys2Proof

namespace Sys2Proof.Machine

/-! ## The flags of a comparison (rule R166) -/

/-- S and V differ exactly where the exact signed difference is negative: V says that its sign is not the sign of the
word. -/
theorem subFlags_s_ne_v_iff {a b : Word} : (subFlags a b).s ≠ (subFlags a b).v ↔ a.toInt < b.toInt := by
  have hdiff : (a - b).toInt = (a.toInt - b.toInt).bmod 65536 := BitVec.toInt_sub
  have ha := a.toInt_lt
  have ha' := a.le_toInt
  have hb := b.toInt_lt
  have hb' := b.le_toInt
  rw [ne_eq, Bool.eq_iff_iff, subFlags_s_iff, subFlags_v_iff, hdiff, Int.bmod]
  omega

/-- The flags of `t` tell how `a` compares to `b`: what CMP and SUB leave. -/
structure Compared (a b : Word) (t : State) : Prop where
  z : t.flags.z = true ↔ a = b
  c : t.flags.c = true ↔ a.toNat < b.toNat
  sv : t.flags.s ≠ t.flags.v ↔ a.toInt < b.toInt

theorem compared_of_flags {a b : Word} {f : Flags} {t : State} (h : t.flags = f.setVcsz (subFlags a b)) :
    Compared a b t := by
  constructor <;> rw [h]
  · exact subFlags_z_iff
  · exact subFlags_c_iff
  · exact subFlags_s_ne_v_iff

/-- CMP and SUB leave the flags of class SUB. -/
theorem exec_compares {s : State} {rd : Reg} {src : Src} {b : Word} (h : operand s src = .ok b) :
    ∀ i ∈ [Instr.cmp rd src, .sub rd src], ∃ t, exec i s = .next t ∧ Compared (s.reg rd) b t := by
  refine List.forall_mem_cons.mpr ⟨?cmp, List.forall_mem_singleton.mpr ?sub⟩
  case cmp => exact ⟨_, exec_cmp_of_ok h, compared_of_flags rfl⟩
  case sub => exact ⟨_, exec_sub_of_ok h, compared_of_flags rfl⟩

namespace Compared

variable {a b : Word} {t : State}

theorem z_false (h : Compared a b t) : t.flags.z = false ↔ a ≠ b :=
  Bool.eq_false_iff.trans (not_congr h.z)

theorem c_false (h : Compared a b t) : t.flags.c = false ↔ b.toNat ≤ a.toNat :=
  Bool.eq_false_iff.trans ((not_congr h.c).trans not_lt)

theorem s_eq_v (h : Compared a b t) : t.flags.s = t.flags.v ↔ b.toInt ≤ a.toInt :=
  not_ne_iff.symm.trans ((not_congr h.sv).trans not_lt)

theorem signed_gt (h : Compared a b t) : t.flags.z = false ∧ t.flags.s = t.flags.v ↔ b.toInt < a.toInt := by
  rw [h.z_false, h.s_eq_v, ne_eq, ← BitVec.toInt_inj]
  omega

theorem signed_le (h : Compared a b t) : t.flags.z = true ∨ t.flags.s ≠ t.flags.v ↔ a.toInt ≤ b.toInt := by
  rw [h.z, h.sv, ← BitVec.toInt_inj]
  omega

theorem unsigned_gt (h : Compared a b t) : t.flags.z = false ∧ t.flags.c = false ↔ b.toNat < a.toNat := by
  rw [h.z_false, h.c_false, ne_eq, ← BitVec.toNat_inj]
  omega

theorem unsigned_le (h : Compared a b t) : t.flags.z = true ∨ t.flags.c = true ↔ a.toNat ≤ b.toNat := by
  rw [h.z, h.c, ← BitVec.toNat_inj]
  omega

end Compared

/-! ## The stack of a CALL and its RET (rule R165, 47_stack_return.md rule R182) -/

/-- A register operand that gets its old value back leaves the state as it was. -/
theorem State.setReg_undo (s : State) (r : Reg) (v : Word) : (s.setReg r v).setReg r (s.reg r) = s := by
  cases r with
  | g k => simp [State.setReg, State.reg]
  | sp => cases hp : s.flags.p <;> simp [State.setReg, State.reg, hp]
  | usp => simp [State.setReg, State.reg]

section

variable {s : State} {v : Word}

/-- What the push of a word leaves, where the word below the stack pointer in use can be written. -/
theorem pushWord_of_permitted (hp : Permitted s (s.reg .sp - 2) 2) (hw : Writable (s.reg .sp - 2) 2) (v : Word) :
    ∃ t, pushWord s v = .ok t ∧ t = { s.setReg .sp (s.reg .sp - 2) with mem := t.mem } ∧
      SameMemoryOutside s t (s.reg .sp - 2).toNat 2 ∧
      (Keeps (s.reg .sp - 2) 2 → HoldsWord t (s.reg .sp - 2) (highByte v) (lowByte v)) := by
  obtain ⟨u, hu, hframe, houtside, heven, hodd⟩ := (storeChangesItsBytesAlone s (s.reg .sp - 2) v 0).1 hp hw
  rw [← highByte_eq_ofNat] at heven
  rw [← lowByte_eq_ofNat] at hodd
  refine ⟨_, pushWord_eq_ok.mpr ⟨u, hu, rfl⟩, congrArg (State.setReg · .sp _) hframe, houtside, fun hk => ?holds⟩
  case holds =>
    have hattr : region (s.reg .sp - 2).toNat ≠ .attr := (hk 0 (by decide)).2
    exact ⟨hattr, (hk 1 (by decide)).2, heven.trans (if_neg hattr), hodd⟩

theorem exec_ret_of_ok (h : readWord s (s.reg .sp) = .ok v) :
    exec .ret s = .next { s.setReg .sp (s.reg .sp + 2) with pc := v } := by
  rw [exec_ret, popWord_eq_ok.mpr ⟨v, h, rfl⟩, bind_ok, complete_ok, State.setPc]

end

/-! ## The statements -/

/-- Settles O39: both instructions leave the flags of a comparison, and each jump's condition on them is its relation. -/
theorem comparisonTable : Obligations.ComparisonTable := by
  intro s rd src b g h i hi
  obtain ⟨t, ht, hc⟩ := exec_compares h i hi
  exact ⟨t, ht, (jgt_decides t g).congr hc.signed_gt, (jge_decides t g).congr hc.s_eq_v, (jz_decides t g).congr hc.z,
    (jnz_decides t g).congr hc.z_false, (jle_decides t g).congr hc.signed_le, (jlt_decides t g).congr hc.sv,
    (jhi_decides t g).congr hc.unsigned_gt, (jnc_decides t g).congr hc.c_false,
    (jls_decides t g).congr hc.unsigned_le, (jc_decides t g).congr hc.c⟩

/-- Settles O37: the conditions one by one, and the rows of the comparison table (O39) that test one flag. -/
theorem jumpsOnOneFlag : Obligations.JumpsOnOneFlag := by
  refine ⟨fun s g => ?conditions, fun s rd src a b g ha h => ?relations⟩
  case conditions =>
    exact ⟨⟨jz_decides s g, hasCondition_of_jumpOf rfl g⟩, ⟨jc_decides s g, hasCondition_of_jumpOf rfl g⟩,
      ⟨jm_decides s g, hasCondition_of_jumpOf rfl g⟩, ⟨jo_decides s g, hasCondition_of_jumpOf rfl g⟩,
      ⟨jnz_decides s g, hasCondition_of_jumpOf rfl g⟩, ⟨jnc_decides s g, hasCondition_of_jumpOf rfl g⟩,
      ⟨jnm_decides s g, hasCondition_of_jumpOf rfl g⟩, ⟨jno_decides s g, hasCondition_of_jumpOf rfl g⟩⟩
  case relations =>
    subst ha
    obtain ⟨t, ht, _, _, hz, hnz, _, _, _, hnc, _, hc⟩ := comparisonTable s rd src b g h _ List.mem_cons_self
    exact ⟨t, ht, hz, hc, hnz, hnc⟩

/-- Settles O38: the conditions one by one, and the rows of the comparison table (O39) that test several flags. -/
theorem jumpsOnComparison : Obligations.JumpsOnComparison := by
  refine ⟨fun s g => ?conditions, fun s rd src a b g ha h => ?relations⟩
  case conditions =>
    exact ⟨⟨jgt_decides s g, hasCondition_of_jumpOf rfl g⟩, ⟨jge_decides s g, hasCondition_of_jumpOf rfl g⟩,
      ⟨jle_decides s g, hasCondition_of_jumpOf rfl g⟩, ⟨jlt_decides s g, hasCondition_of_jumpOf rfl g⟩,
      ⟨jhi_decides s g, hasCondition_of_jumpOf rfl g⟩, ⟨jls_decides s g, hasCondition_of_jumpOf rfl g⟩,
      jmp_decides s g, hasCondition_of_jumpOf rfl g, rfl⟩
  case relations =>
    subst ha
    obtain ⟨t, ht, hgt, hge, _, _, hle, hlt, hhi, _, hls, _⟩ := comparisonTable s rd src b g h _ List.mem_cons_self
    exact ⟨t, ht, hgt, hge, hle, hlt, hhi, hls⟩

/-- Settles O40: CALL is the push of the next instruction's address and a jump. -/
theorem callPushesTheReturnAddress : Obligations.CallPushesTheReturnAddress := by
  intro s g hp hw
  obtain ⟨u, hu, hframe, houtside, hholds⟩ := pushWord_of_permitted hp hw (nextPc s g.words)
  refine ⟨u.setPc (targetAddr s g), ?completes, congrArg (State.setPc · _) hframe, houtside, hholds⟩
  case completes => rw [exec_call, hu, bind_ok, complete_ok]

/-- Settles O41: RET reads back the word that CALL pushed (O40), and undoes its change of the stack pointer. -/
theorem retReturnsAfterTheCall : Obligations.RetReturnsAfterTheCall := by
  intro s t g hcall hp hk
  obtain ⟨t', hcall', hframe, _, hholds⟩ := callPushesTheReturnAddress s g hp hk.writable
  obtain rfl : t = t' := Host.Outcome.next.inj (hcall.symm.trans hcall')
  have hread : readWord t (s.reg .sp - 2) = .ok (s.pc + BitVec.ofNat 16 (2 * g.words)) := by
    have hpt : Permitted t (s.reg .sp - 2) 2 := by
      rw [hframe]
      exact hp
    rw [readWord_of_holds hpt (hholds hk), wordOf_bytes]
  have hsp : t.reg .sp = s.reg .sp - 2 := by
    rw [hframe]
    exact s.reg_setReg_self .sp _
  have hback : ∀ p, { t.setReg .sp (s.reg .sp) with pc := p } = { s with mem := t.mem, pc := p } := fun p => calc
    _ = { (s.setReg .sp (s.reg .sp - 2)).setReg .sp (s.reg .sp) with mem := t.mem, pc := p } :=
      congrArg (fun u : State => (u.setReg .sp (s.reg .sp)).setPc p) hframe
    _ = _ := by rw [State.setReg_undo]
  rw [exec_ret_of_ok (hsp ▸ hread), hsp, BitVec.sub_add_cancel, hback]

end Sys2Proof.Machine

/-! # The proofs about IN and OUT (46_io.md) -/

namespace Sys2Proof.Machine

/-! ## Ports as numbers (20_memory.md rules R51, R54) -/

section

variable {s : State} {port v : Word} {w : Width}

/-- The check admits the ports that none of the three refusals names. -/
theorem checkPort_eq_ok (hle : port.toNat ≤ 0xFF) (hword : w = .word → port.toNat % 2 = 0)
    (hbyte : w = .byte → port.toNat < 0xF4 ∨ 0xF7 < port.toNat) : checkPort port w = .ok () := by
  refine (if_neg (by omega)).trans ?_
  cases w with
  | word =>
    have heven := hword rfl
    refine if_neg ?_
    rw [getLsbD_zero_eq_true]
    omega
  | byte =>
    have hlimit := hbyte rfl
    refine if_neg ?_
    rw [isLimitPort, Bool.and_eq_true, decide_eq_true_iff, decide_eq_true_iff, lowByte_eq_ofNat, BitVec.toNat_ofNat]
    omega

theorem lowByte_of_le (hle : port.toNat ≤ 0xFF) : lowByte port = BitVec.ofNat 8 port.toNat := by
  rw [lowByte_eq_ofNat, Nat.mod_eq_of_lt (by omega)]

theorem toNat_lowByte (v : Word) : (lowByte v).toNat = v.toNat % 256 := by
  rw [lowByte_eq_ofNat, BitVec.toNat_ofNat, Nat.mod_mod]

theorem toNat_lowByte_of_le (hle : port.toNat ≤ 0xFF) : (lowByte port).toNat = port.toNat := by
  rw [toNat_lowByte, Nat.mod_eq_of_lt (by omega)]

theorem lowByte_zext8 (b : Byte) : lowByte (zext8 b) = b := by
  rw [← BitVec.toNat_inj, toNat_lowByte, toNat_zext8]
  exact Nat.mod_eq_of_lt b.isLt

/-- IN of a port that has a meaning gets a word of two bytes, or one byte extended with zeros (rule R55). -/
theorem ioRead_of_check (h : checkPort port w = .ok ()) :
    ∃ v, ioRead s port w = .ok (v, s.logIo (.read (lowByte port) w)) ∧
      (w = .word → v = wordOf (portByte s (lowByte port)) (portByte s (lowByte port + 1))) ∧
      (w = .byte → v = zext8 (portByte s (lowByte port))) := by
  refine ⟨_, ioRead_eq_ok.mpr ⟨h, rfl⟩, ?word, ?byte⟩
  case word => rintro rfl; rfl
  case byte => rintro rfl; rfl

/-- OUT to a port that has a meaning presents the word, or its low byte (rule R56). -/
theorem ioWrite_of_check (h : checkPort port w = .ok ()) :
    ∃ x, ioWrite s port w v = .ok ((ioEffect s (lowByte port) w x).logIo (.write (lowByte port) w x)) ∧
      (w = .word → x = v) ∧ (w = .byte → x = zext8 (lowByte v)) := by
  refine ⟨_, ioWrite_eq_ok.mpr ⟨h, rfl⟩, ?word, ?byte⟩
  case word => rintro rfl; rfl
  case byte => rintro rfl; rfl

end

/-! ## The bytes that IN gets (rules R51, R55) -/

section

variable {s : State} {b : Byte}

theorem wordOf_portByte_mplow (h : b.toNat = 0xF4) : wordOf (portByte s b) (portByte s (b + 1)) = s.mplow := by
  obtain rfl : b = 0xF4 := BitVec.eq_of_toNat_eq h
  exact wordOf_bytes s.mplow

theorem wordOf_portByte_mphigh (h : b.toNat = 0xF6) : wordOf (portByte s b) (portByte s (b + 1)) = s.mphigh := by
  obtain rfl : b = 0xF6 := BitVec.eq_of_toNat_eq h
  exact wordOf_bytes s.mphigh

/-- The column +0 of the rows drawn 00H (46_io.md rule R170) lies beside the limit registers. -/
theorem portByte_eq_zero (heven : b.toNat % 2 = 0)
    (hrow : (0x08 ≤ b.toNat ∧ b.toNat ≤ 0x10) ∨ (0x18 ≤ b.toNat ∧ b.toNat ≤ 0x26) ∨ b.toNat = 0xFC ∨ b.toNat = 0xFE) :
    portByte s b = 0 := by
  have hzero : readsZero b = true := by
    simp only [readsZero, Bool.and_eq_true, Bool.or_eq_true, decide_eq_true_eq]
    omega
  have hnot : ∀ l : Byte, 0xF4 ≤ l.toNat → l.toNat ≤ 0xF7 → b ≠ l := by
    rintro l hlow hhigh rfl
    omega
  rw [portByte, if_neg (hnot 0xF4 (by decide) (by decide)), if_neg (hnot 0xF5 (by decide) (by decide)),
    if_neg (hnot 0xF6 (by decide) (by decide)), if_neg (hnot 0xF7 (by decide) (by decide)), if_pos hzero]

theorem toNat_wordOf_zero_lt (lo : Byte) : (wordOf 0 lo).toNat < 256 := by
  simpa [toNat_wordOf] using lo.isLt

end

/-! ## What OUT changes (rules R51, R56, R62, 60_exceptions.md rule R232) -/

section

variable {s : State} {b : Byte} {w : Width} {v x : Word}

theorem extPortByte_eq : extPortByte b w x =
    if (w = .word ∧ b.toNat = 0x1C) ∨ (w = .byte ∧ b.toNat = 0x1D) then some (lowByte x) else none := by
  cases w with
  | word => simp [extPortByte, ← BitVec.toNat_inj]
  | byte => simp [extPortByte, ← BitVec.toNat_inj]

theorem extPortHi_presented (old : ExtPortHi) : ((extPortByte b w x).map ExtPortHi.ofByte).getD old =
    if (w = .word ∧ b.toNat = 0x1C) ∨ (w = .byte ∧ b.toNat = 0x1D) then ExtPortHi.ofByte (lowByte x) else old := by
  rw [extPortByte_eq]
  split <;> rfl

/-- M and VVVV lie in the low byte. -/
theorem extPortHi_ofByte_lowByte (v : Word) :
    ExtPortHi.ofByte (lowByte v) = { m := v.getLsbD 7, v := v.extractLsb' 0 4 } := by
  simp only [ExtPortHi.ofByte, lowByte, ExtPortHi.mk.injEq]
  constructor
  · simp
  · ext i hi
    simp

/-- What an access presents has the low byte of the operand in either width. -/
theorem lowByte_presented (hword : w = .word → x = v) (hbyte : w = .byte → x = zext8 (lowByte v)) :
    lowByte x = lowByte v := by
  cases w with
  | word => rw [hword rfl]
  | byte => rw [hbyte rfl, lowByte_zext8]

/-- A limit register takes a whole word only, since no byte access has its port `l`. -/
theorem limit_presented (hlimit : w = .byte → b.toNat < 0xF4 ∨ 0xF7 < b.toNat) (hword : w = .word → x = v) {l : Byte}
    (hlow : 0xF4 ≤ l.toNat) (hhigh : l.toNat ≤ 0xF7) (old : Word) :
    (if b = l then x else old) = if b.toNat = l.toNat then v else old := by
  refine if_ctx_congr BitVec.toNat_inj.symm (fun heq => ?_) fun _ => rfl
  cases w with
  | word => exact hword rfl
  | byte =>
    have hout := hlimit rfl
    omega

/-- The effect of OUT in terms of the operand `v`, of which `x` is what the access presents. -/
theorem ioEffect_eq (hlimit : w = .byte → b.toNat < 0xF4 ∨ 0xF7 < b.toNat) (hword : w = .word → x = v)
    (hbyte : w = .byte → x = zext8 (lowByte v)) :
    ioEffect s b w x =
      { s with
        mplow := if b.toNat = 0xF4 then v else s.mplow
        mphigh := if b.toNat = 0xF6 then v else s.mphigh
        extPortHi :=
          if (w = .word ∧ b.toNat = 0x1C) ∨ (w = .byte ∧ b.toNat = 0x1D) then
            { m := v.getLsbD 7, v := v.extractLsb' 0 4 }
          else s.extPortHi
        sdArmed := s.sdArmed || (decide (0x10 ≤ b.toNat) && decide (b.toNat ≤ 0x17)) } := by
  have hmplow := limit_presented hlimit hword (l := 0xF4) (by decide) (by decide) s.mplow
  have hmphigh := limit_presented hlimit hword (l := 0xF6) (by decide) (by decide) s.mphigh
  rw [ioEffect, hmplow, hmphigh, extPortHi_presented, lowByte_presented hword hbyte, extPortHi_ofByte_lowByte]
  rfl

end

/-! ## The statements -/

/-- Settles O42: the check admits the port, and the value is made of the bytes that `portByte` gives. -/
theorem inReadsThePort : Obligations.InReadsThePort := by
  rintro s rd p a hp rfl hle hw hb
  obtain ⟨v, hread, hword, hbyte⟩ := ioRead_of_check (s := s) (checkPort_eq_ok hle hw hb)
  rw [← lowByte_of_le hle, ← toNat_lowByte_of_le hle]
  rw [← toNat_lowByte_of_le hle] at hw
  refine ⟨v, ?completes, fun h ha => ?mplow, fun h ha => ?mphigh, fun h hrow => ?wordRow, fun h => ?byte,
    fun h heven hrow => ?byteRow⟩
  case completes =>
    rw [exec_inp_privileged hp, hread, bind_ok, complete_ok]
    rfl
  case mplow => rw [hword h, wordOf_portByte_mplow ha]
  case mphigh => rw [hword h, wordOf_portByte_mphigh ha]
  case wordRow =>
    rw [hword h, portByte_eq_zero (hw h) hrow]
    exact toNat_wordOf_zero_lt _
  case byte =>
    rw [hbyte h, toNat_zext8]
    exact BitVec.isLt _
  case byteRow =>
    rw [hbyte h, portByte_eq_zero heven hrow]
    rfl

/-- Settles O43: the check admits the port, and `ioEffect_eq` says what the access changes. -/
theorem outPresentsRd : Obligations.OutPresentsRd := by
  rintro s rd p a hp rfl hle hw hb
  obtain ⟨x, hwrite, hword, hbyte⟩ := ioWrite_of_check (s := s) (v := s.reg rd) (checkPort_eq_ok hle hw hb)
  rw [← lowByte_of_le hle, ← toNat_lowByte_of_le hle]
  rw [← toNat_lowByte_of_le hle] at hb
  refine ⟨x, ?completes, hword, fun h => ?byte⟩
  case completes =>
    rw [exec_outp_privileged hp, hwrite, bind_ok, complete_ok, ioEffect_eq hb hword hbyte]
    rfl
  case byte => rw [hbyte h, toNat_zext8, toNat_lowByte]

end Sys2Proof.Machine

/-! # The proofs about the stack and the returns (47_stack_return.md) -/

namespace Sys2Proof

open Machine

/-! ## The words that memory holds (20_memory.md rules R45, R46) -/

section

variable {s : State} {a v : Word} {hi lo : Byte}

/-- A word stored where memory keeps it is held. -/
theorem holdsWord_stored (hk : Keeps a 2) :
    HoldsWord ((s.storeByte a.toNat (highByte v)).storeByte (a.toNat + 1) (lowByte v)) a (highByte v) (lowByte v) := by
  have heven : region a.toNat ≠ .attr := (hk 0 (by decide)).2
  have hodd : region (a.toNat + 1) ≠ .attr := (hk 1 (by decide)).2
  refine ⟨heven, hodd, ?_, byteAt_storeByte_self _ _ hodd⟩
  rw [byteAt_storeByte_ne _ _ (by omega), byteAt_storeByte_self _ _ heven]

/-- A store to other bytes leaves a held word. -/
theorem HoldsWord.storeByte {x : Nat} (h : HoldsWord s a hi lo) (heven : a.toNat ≠ x) (hodd : a.toNat + 1 ≠ x)
    (b : Byte) : HoldsWord (s.storeByte x b) a hi lo := by
  obtain ⟨hre, hro, hhi, hlo⟩ := h
  exact ⟨hre, hro, (byteAt_storeByte_ne s b heven).trans hhi, (byteAt_storeByte_ne s b hodd).trans hlo⟩

/-- In privileged mode the word that memory holds at an even address reads. -/
theorem readWord_of_holds_privileged (hp : s.flags.p = true) (heven : a.toNat % 2 = 0)
    (h : HoldsWord s a (highByte v) (lowByte v)) : readWord s a = .ok v := by
  rw [readWord_of_holds ⟨fun _ => heven, .inl hp⟩ h, wordOf_bytes]

end

end Sys2Proof

namespace Sys2Proof.Machine

section

variable {n : Fin 16} {s t : State} {rd : Reg} {f w savedPc : Word}

/-! ## The frame of a trap entry (60_exceptions.md rule R220) -/

/-- A trap entry begins with an even SSP, and leaves it even. -/
theorem trapFrame_even (h : trapFrame n savedPc s = .ok t) :
    (s.ssp - 2).toNat % 2 = 0 ∧ (s.ssp - 4).toNat % 2 = 0 := by
  obtain ⟨_, _, _, _, _, _, _, heven, _⟩ := trapFrame_shape h
  rw [getLsbD_zero_eq_false] at heven
  exact ⟨heven, by bv_omega⟩

/-- Both words of the frame, where memory keeps them, are in the state that a trap entry leaves: the addresses are even
and differ, so the push of FLAG leaves the saved PC. -/
theorem trapFrame_holds (h : trapFrame n savedPc s = .ok t) (hkPc : Keeps (s.ssp - 2) 2)
    (hkFlag : Keeps (s.ssp - 4) 2) :
    HoldsWord t (s.ssp - 2) (highByte savedPc) (lowByte savedPc) ∧
      HoldsWord t (s.ssp - 4) (highByte s.flags.toWord) (lowByte s.flags.toWord) := by
  obtain ⟨hevenPc, hevenFlag⟩ := trapFrame_even h
  have hne : (s.ssp - 2).toNat ≠ (s.ssp - 4).toNat := by bv_omega
  obtain ⟨_, _, rfl, _, _, _, _, _, rfl⟩ := trapFrame_shape h
  exact ⟨((holdsWord_stored hkPc).storeByte hne (by omega) _).storeByte (by omega) (by omega) _,
    holdsWord_stored hkFlag⟩

/-! ## Registers that are not the stack pointer in use (decision D34) -/

theorem isActiveSp_eq_false (hsp : rd ≠ .sp) (husp : rd ≠ .usp ∨ s.flags.p = true) : isActiveSp s rd = false := by
  cases rd with
  | g k => rfl
  | sp => exact absurd rfl hsp
  | usp =>
    have hp : s.flags.p = true := husp.resolve_left (not_not_intro rfl)
    simp [isActiveSp, hp]

theorem pushedValue_of_inactive (h : isActiveSp s rd = false) : pushedValue rd s = s.reg rd := by
  simp [pushedValue, h]

theorem poppedValue_of_inactive (h : isActiveSp s rd = false) : poppedValue rd s w = w := by
  simp [poppedValue, h]

/-! ## What the instructions answer (rules R181 to R183) -/

theorem exec_pop_of_ok (h : readWord s (s.reg .sp) = .ok w) :
    exec (.pop rd) s =
      .next { (s.setReg .sp (s.reg .sp + 2)).setReg rd (poppedValue rd s w) with pc := s.pc + 2 } := by
  rw [exec_pop, popWord_eq_ok.mpr ⟨w, h, rfl⟩, bind_ok, complete_ok, State.setPc, nextPc_one]

theorem exec_ret_of_trap {e : Exc} (h : readWord s (s.reg .sp) = .error (.trap e)) :
    exec .ret s = raise e (s.pc + 2) s := by
  rw [exec_ret, complete_bind_of_trap (popWord_of_stop (readWord_eq_trap h)), nextPc_one]

theorem exec_reti_of_ok (hp : s.flags.p = true) (hf : readWord s s.ssp = .ok f) (hw : readWord s (s.ssp + 2) = .ok w) :
    exec .reti s = .next { s with ssp := s.ssp + 4, flags := Flags.ofWord f, pc := w } := by
  rw [exec_reti_privileged hp, returnFromTrap_eq_ok.mpr ⟨f, w, hf, hw, rfl⟩, complete_ok]

theorem exec_reti_user (hp : s.flags.p = false) : exec .reti s = .refused .retiInUserMode :=
  (exec_of_guarded rfl rfl).trans (if_neg (by simp [hp]))

end

/-! ## The statements -/

/-- Settles O18: RETI reads back the frame that the entry pushed, and FLAG survives the word it is pushed as. -/
theorem retiUndoesTheTrapEntry : Obligations.RetiUndoesTheTrapEntry := by
  intro n savedPc s t h hkPc hkFlag
  have hframe : trapFrame n savedPc s = .ok t := trapEntry_eq_next.mp h
  obtain ⟨hholdsPc, hholdsFlag⟩ := trapFrame_holds hframe hkPc hkFlag
  obtain ⟨hevenPc, hevenFlag⟩ := trapFrame_even hframe
  have hp : t.flags.p = true := trapFrame_privileged hframe
  have hflag : readWord t (s.ssp - 4) = .ok s.flags.toWord := readWord_of_holds_privileged hp hevenFlag hholdsFlag
  have hpc : readWord t (s.ssp - 4 + 2) = .ok savedPc := by
    have hup : s.ssp - 4 + 2 = s.ssp - 2 := by bv_omega
    rw [hup]
    exact readWord_of_holds_privileged hp hevenPc hholdsPc
  obtain ⟨_, _, _, _, _, _, _, _, rfl⟩ := trapFrame_shape hframe
  rw [exec_reti_of_ok hp hflag hpc, BitVec.sub_add_cancel, Flags.ofWord_toWord]

/-- Settles O44: PUSH is the push of its value, which is free for the stack pointer in use alone. -/
theorem pushStoresBelowSp : Obligations.PushStoresBelowSp := by
  intro s rd hp hw
  obtain ⟨u, hu, hframe, houtside, hholds⟩ := pushWord_of_permitted hp hw (pushedValue rd s)
  refine ⟨u.setPc (s.pc + 2), pushedValue rd s, ?completes, congrArg (State.setPc · _) hframe, houtside, hholds,
    fun hsp husp => pushedValue_of_inactive (isActiveSp_eq_false hsp husp)⟩
  case completes => rw [exec_push, hu, bind_ok, complete_ok, nextPc_one]

/-- Settles O47: FLAG is what `Flags.ofWord` keeps of the word popped (O2). -/
theorem retiPopsFlagAndPc : Obligations.RetiPopsFlagAndPc := fun _ =>
  ⟨fun f _ hp hf hw => ⟨Flags.ofWord f, exec_reti_of_ok hp hf hw, Flags.toWord_ofWord f⟩, exec_reti_user⟩

/-- Settles O45: POP writes its value last, so that it is free for the stack pointer in use alone. -/
theorem popLoadsFromSp : Obligations.PopLoadsFromSp := fun s rd w h =>
  ⟨poppedValue rd s w, exec_pop_of_ok h, fun hsp husp => poppedValue_of_inactive (isActiveSp_eq_false hsp husp)⟩

/-- Settles O46: RET answers as its one read does. -/
theorem retPopsThePc : Obligations.RetPopsThePc :=
  ⟨rfl, rfl, fun _ => ⟨fun _ h => exec_ret_of_ok h, fun _ h => exec_ret_of_trap h⟩⟩

end Sys2Proof.Machine

/-! # The proofs about interrupts and traps (60_exceptions.md), the system instructions (48_system.md), and the modes -/

namespace Sys2Proof.Machine

/-! ## Interrupts at a boundary (60_exceptions.md rules R210 to R216) -/

section

variable {s : State} {x : BoundaryInput} {rest : List BoundaryInput} {n : Fin 10} {w : BitVec 10} {k : Nat}

theorem irqLines_of_inputs (h : s.inputs = x :: rest) : irqLines s = x.irq := by
  simp only [irqLines, h]

theorem requesters_eq_nil_iff : requesters w = [] ↔ w = 0 := by
  rw [List.eq_nil_iff_forall_not_mem]
  constructor
  · intro hnone
    refine BitVec.eq_of_getLsbD_eq fun j hj => ?_
    simpa [mem_requesters] using hnone ⟨j, hj⟩
  · rintro rfl n
    simp [mem_requesters]

/-- Some source is chosen exactly when some line requests. -/
theorem pickIrq_eq_none_iff : pickIrq k w = none ↔ w = 0 := by
  rw [← requesters_eq_nil_iff]
  unfold pickIrq
  split <;> simp_all

theorem requesters_single (n : Fin 10) : requesters (1#10 <<< n.val) = [n] := by
  revert n
  decide

/-- The only source that requests is chosen: the free choice is between several (rule R213). -/
theorem pickIrq_single (k : Nat) (n : Fin 10) : pickIrq k (1#10 <<< n.val) = some n := by
  simp only [pickIrq, requesters_single]

/-- With E = 0 no interrupt is accepted (rule R215). -/
theorem acceptedIrq_masked (he : s.flags.e = false) : acceptedIrq s = none := by
  simp [acceptedIrq, he]

/-- With E = 1 the chosen source is accepted (rule R216). -/
theorem acceptedIrq_enabled (he : s.flags.e = true) (hin : s.inputs = x :: rest) :
    acceptedIrq s = pickIrq s.draws x.irq := by
  rw [acceptedIrq, if_pos he, irqLines_of_inputs hin]

theorem acceptedIrq_single (he : s.flags.e = true) (hin : s.inputs = x :: rest) (hx : x.irq = 1#10 <<< n.val) :
    acceptedIrq s = some n := by
  rw [acceptedIrq_enabled he hin, hx, pickIrq_single]

/-- A step of a CPU that is not halted enters the accepted interrupt, with the PC saved. -/
theorem step_of_acceptedIrq (hh : s.halted = false) (hq : acceptedIrq s = some n) :
    step s = trapEntry (irqEntry n) s.pc s.boundary := by
  simp [step, hh, hq]

end

/-! ## The trap entry (60_exceptions.md rules R201, R220 to R223) -/

section

variable {n : Fin 16} {s t : State} {savedPc : Word} {hi lo : Byte}

theorem State.byteAt_congr (h : t.mem = s.mem) (x : Nat) : t.byteAt x = s.byteAt x :=
  congrArg (Memory.read · x) h

theorem holdsWord_congr {a : Word} (hm : t.mem = s.mem) (h : HoldsWord s a hi lo) : HoldsWord t a hi lo := by
  obtain ⟨hre, hro, hhi, hlo⟩ := h
  exact ⟨hre, hro, (State.byteAt_congr hm _).trans hhi, (State.byteAt_congr hm _).trans hlo⟩

theorem vectorAddr_toNat (n : Fin 16) : (vectorAddr n).toNat = 0xFFE0 + 2 * n.val := by
  revert n
  decide

/-- An entry whose accesses raise an exception is stuck (rule R222, decision D31). -/
theorem trapEntry_of_trap {e : Exc} (h : trapFrame n savedPc s = .error (.trap e)) :
    trapEntry n savedPc s = .fault .trapEntryOddSsp := by
  simp only [trapEntry, h]

/-- With an odd SSP the first push stops. -/
theorem trapFrame_of_odd (hodd : s.ssp.toNat % 2 = 1) : trapFrame n savedPc s = .error (.trap .oddAddress) := by
  have hbit : (s.enterPrivileged.reg .sp - 2).getLsbD 0 = true := by
    have hsp : s.enterPrivileged.reg .sp = s.ssp := rfl
    rw [getLsbD_zero_eq_true, hsp]
    bv_omega
  rw [trapFrame, pushWord_of_stop (checkAccess_odd _ hbit), bind_error]

/-- What a push in privileged mode leaves (rule R220): the limits do not bind it. -/
theorem pushWord_privileged (hp : s.flags.p = true) (heven : s.ssp.toNat % 2 = 0) (hw : Writable (s.ssp - 2) 2)
    (v : Word) :
    ∃ t, pushWord s v = .ok t ∧ t.ssp = s.ssp - 2 ∧ t.flags = s.flags ∧
      SameMemoryOutside s t (s.ssp - 2).toNat 2 := by
  have hsp : s.reg .sp = s.ssp := if_pos hp
  have heven' : (s.ssp - 2).toNat % 2 = 0 := by bv_omega
  have hperm : Permitted s (s.ssp - 2) 2 := ⟨fun _ => heven', .inl hp⟩
  obtain ⟨t, hpush, hframe, houtside, _⟩ := pushWord_of_permitted (hsp ▸ hperm) (hsp ▸ hw) v
  rw [hsp] at hframe houtside
  refine ⟨t, hpush, ?_, by rw [hframe]; rfl, houtside⟩
  rw [hframe]
  exact if_pos ⟨rfl, hp⟩

/-- A held word stays, when only another word changes. -/
theorem holdsWord_of_sameMemoryOutside {a b : Word} (h : HoldsWord s a hi lo)
    (hout : SameMemoryOutside s t b.toNat 2) (ha : a.toNat % 2 = 0) (hb : b.toNat % 2 = 0) (hne : b ≠ a) :
    HoldsWord t a hi lo := by
  obtain ⟨hre, hro, hhi, hlo⟩ := h
  have hne' : b.toNat ≠ a.toNat := fun e => hne (BitVec.eq_of_toNat_eq e)
  exact ⟨hre, hro, (hout _ (by omega)).trans hhi, (hout _ (by omega)).trans hlo⟩

/-- A trap that can be entered completes its three accesses, the last of which reads the vector. -/
theorem trapFrame_of_ready (h : TrapReady n s hi lo) (savedPc : Word) :
    ∃ t, trapFrame n savedPc s = .ok t ∧ t.pc = wordOf hi lo := by
  obtain ⟨heven, hwPc, hwFlag, hvector, hnePc, hneFlag⟩ := h
  obtain ⟨s1, hpush1, hssp1, hflags1, hout1⟩ := pushWord_privileged (s := s.enterPrivileged) rfl heven hwPc savedPc
  have hp1 : s1.flags.p = true := by rw [hflags1]; rfl
  have heven1 : s1.ssp.toNat % 2 = 0 := by rw [hssp1, State.enterPrivileged_ssp]; bv_omega
  have hnext : s1.ssp - 2 = s.ssp - 4 := by rw [hssp1, State.enterPrivileged_ssp]; bv_omega
  obtain ⟨s2, hpush2, _, hflags2, hout2⟩ := pushWord_privileged hp1 heven1 (hnext ▸ hwFlag) s.flags.toWord
  rw [hnext] at hout2
  have hvectorEven : (vectorAddr n).toNat % 2 = 0 := by rw [vectorAddr_toNat]; omega
  have hholds1 : HoldsWord s1 (vectorAddr n) hi lo :=
    holdsWord_of_sameMemoryOutside (s := s.enterPrivileged) hvector hout1 hvectorEven
      (by rw [State.enterPrivileged_ssp]; bv_omega) hnePc
  have hholds2 : HoldsWord s2 (vectorAddr n) hi lo :=
    holdsWord_of_sameMemoryOutside hholds1 hout2 hvectorEven (by bv_omega) hneFlag
  have hread : readWord s2 (vectorAddr n) = .ok (wordOf hi lo) :=
    readWord_of_holds ⟨fun _ => hvectorEven, .inl (hflags2 ▸ hp1)⟩ hholds2
  exact ⟨_, trapFrame_eq_ok.mpr ⟨s1, s2, _, hpush1, hpush2, hread, rfl⟩, rfl⟩

/-- All that a completed entry changes (rule R220). The addresses of the frame are even and differ, so that the push of
FLAG leaves the saved PC. -/
theorem trapTaken_of_trapFrame (h : trapFrame n savedPc s = .ok t) (hpc : t.pc = wordOf hi lo) :
    TrapTaken savedPc hi lo s t := by
  obtain ⟨hevenPc, hevenFlag⟩ := trapFrame_even h
  have hne : (s.ssp - 2).toNat ≠ (s.ssp - 4).toNat := by bv_omega
  obtain ⟨u, v, hu, _, _, _, _, _, ht⟩ := trapFrame_shape h
  have hmem : t.mem = u.mem := by rw [ht]
  refine ⟨by rw [← hpc, ht], fun x hx1 hx2 hx3 hx4 => ?outside, fun hk => ?savedPc, fun hk => ?flag⟩
  case outside =>
    rw [State.byteAt_congr hmem, hu, byteAt_storeByte_ne _ _ hx4, byteAt_storeByte_ne _ _ hx3,
      byteAt_storeByte_ne _ _ hx2, byteAt_storeByte_ne _ _ hx1]
  case savedPc =>
    refine holdsWord_congr hmem (hu ▸ ?_)
    exact ((holdsWord_stored hk).storeByte hne (by omega) _).storeByte (by omega) (by omega) _
  case flag => exact holdsWord_congr hmem (hu ▸ holdsWord_stored hk)

/-- What the entry of a trap that can be entered answers. -/
theorem trapEntry_of_ready (h : TrapReady n s hi lo) (savedPc : Word) :
    ∃ t, trapEntry n savedPc s = .next t ∧ TrapTaken savedPc hi lo s t := by
  obtain ⟨t, hframe, hpc⟩ := trapFrame_of_ready h savedPc
  exact ⟨t, trapEntry_eq_next.mpr hframe, trapTaken_of_trapFrame hframe hpc⟩

/-- A trap entry masks the interrupts (rule R220). -/
theorem trapFrame_masked (h : trapFrame n savedPc s = .ok t) : t.flags.e = false := by
  obtain ⟨_, _, _, _, _, _, _, _, rfl⟩ := trapFrame_shape h
  rfl

end

/-! ## How a step ends -/

section

variable {s t : State} {i : Instr}

/-- A step takes a trap, of an interrupt or of the fetch, or it executes the instruction fetched. -/
theorem step_traps_or_executes (h : step s = .next t) :
    (∃ n savedPc, trapFrame n savedPc s.boundary = .ok t) ∨
      (acceptedIrq s = none ∧ ∃ i, fetchInstr s.boundary = .instr i ∧ exec i s.boundary = .next t) := by
  obtain ⟨_, ⟨n, _, htrap⟩ | hexec | ⟨_, e, savedPc, _, _, htrap⟩⟩ := step_cases h
  · exact .inl ⟨_, _, htrap⟩
  · exact .inr hexec
  · exact .inl ⟨_, _, htrap⟩

theorem exec_runEndsAt (h : exec i s = .next t) : t.runEndsAt = s.runEndsAt := by
  cases exec_cases i s t h with
  | trapped n savedPc htrap => exact trapFrame_runEndsAt htrap
  | plain hk => exact hk.runEndsAt
  | storedByte hk => exact hk.runEndsAt
  | storedWord hk => exact hk.runEndsAt
  | system _ _ _ _ _ hr => exact hr

theorem step_runEndsAt (h : step s = .next t) : t.runEndsAt = s.runEndsAt := by
  obtain ⟨n, savedPc, htrap⟩ | ⟨_, i, _, hexec⟩ := step_traps_or_executes h
  · exact (trapFrame_runEndsAt htrap).trans s.boundary_runEndsAt
  · exact (exec_runEndsAt hexec).trans s.boundary_runEndsAt

/-- No run changes which exceptions end it (log 13). -/
theorem runEndsAt_of_reaches (h : Reaches s t) : t.runEndsAt = s.runEndsAt := by
  induction h with
  | refl => rfl
  | step _ hs ih => exact (step_runEndsAt hs).trans ih

end

/-! ## The privilege check and the system instructions (rules R206, R226, 48_system.md rules R190 to R193) -/

section

variable {s : State} {i : Instr}

theorem exec_privileged_in_user_mode (hp : s.flags.p = false) (hi : privSet i = true) :
    exec i s = raise .privilegeViolation (s.pc + BitVec.ofNat 16 (2 * instrWords i)) s := by
  rw [exec_of_violates (by simp [violates_eq, hi, hp]), excSavedPc_eq, nextPc]

theorem exec_ei_privileged (hp : s.flags.p = true) :
    exec .ei s = .next { s with flags := { s.flags with e := true }, pc := s.pc + 2 } :=
  guarded_privileged _ hp

theorem exec_di_privileged (hp : s.flags.p = true) :
    exec .di s = .next { s with flags := { s.flags with e := false }, pc := s.pc + 2 } :=
  guarded_privileged _ hp

theorem exec_halt_privileged (hp : s.flags.p = true) : exec .halt s = .next { s with pc := s.pc + 2, halted := true } :=
  guarded_privileged _ hp

theorem exec_svc (s : State) : exec .svc s = trapEntry 15 (s.pc + 2) s :=
  exec_of_guarded rfl rfl

/-- Nothing but reset ends the halted state (decision D26). -/
theorem step_of_halted (h : s.halted = true) : step s = .fault .halted := by
  simp [step, h]

end

/-! ## The bits E and P (rules R215, R220, R225) -/

/-- What an instruction may do to E and P. -/
inductive ModeEffect (i : Instr) (s t : State) : Prop where
  /-- It took a trap: P = 1 and E = 0. -/
  | trapped (n : Fin 16) (savedPc : Word) (h : trapFrame n savedPc s = .ok t)
  | kept (he : t.flags.e = s.flags.e) (hp : t.flags.p = s.flags.p)
  | enabled (hi : i = .ei) (hp : s.flags.p = true) (hf : t.flags = { s.flags with e := true })
  | disabled (hi : i = .di) (hp : s.flags.p = true) (hf : t.flags = { s.flags with e := false })
  /-- RETI popped the word `f` into FLAG. -/
  | returned (hi : i = .reti) (hp : s.flags.p = true) (f : Word) (hr : readWord s s.ssp = .ok f)
      (hf : t.flags = Flags.ofWord f)

section

variable {s t : State} {i : Instr}

theorem ModeEffect.of_complete {n : Nat} {x : Except Stop State} (hx : ∀ u, x = .ok u → ModeEffect i s u)
    (h : complete n s x = .next t) : ModeEffect i s t := by
  obtain hok | ⟨_, _, _, htrap⟩ := complete_eq_next.mp h
  · exact hx t hok
  · exact .trapped _ _ htrap

/-- Of the six system instructions, HALT, IN and OUT leave E and P. -/
theorem ModeEffect.of_system
    (hi : i = .ei ∨ i = .di ∨ i = .halt ∨ i = .reti ∨ (∃ rd p, i = .inp rd p) ∨ ∃ rd p, i = .outp rd p)
    (hp : s.flags.p = true) (h : exec i s = .next t) : ModeEffect i s t := by
  obtain rfl | rfl | rfl | rfl | ⟨rd, p, rfl⟩ | ⟨rd, p, rfl⟩ := hi
  · rw [exec_ei_privileged hp] at h
    cases h
    exact .enabled rfl hp rfl
  · rw [exec_di_privileged hp] at h
    cases h
    exact .disabled rfl hp rfl
  · rw [exec_halt_privileged hp] at h
    cases h
    exact .kept rfl rfl
  · rw [exec_reti_privileged hp] at h
    refine .of_complete (fun u hu => ?_) h
    obtain ⟨f, _, hread, _, rfl⟩ := returnFromTrap_eq_ok.mp hu
    exact .returned rfl hp f hread rfl
  · rw [exec_inp_privileged hp] at h
    refine .of_complete (fun u hu => ?_) h
    obtain ⟨x, hx, hu⟩ := bind_eq_ok.mp hu
    obtain ⟨_, rfl⟩ := ioRead_eq_ok.mp hx
    cases hu
    exact .kept rfl rfl
  · rw [exec_outp_privileged hp] at h
    refine .of_complete (fun u hu => ?_) h
    obtain ⟨w, hw, hu⟩ := bind_eq_ok.mp hu
    obtain ⟨_, rfl⟩ := ioWrite_eq_ok.mp hw
    cases hu
    exact .kept rfl rfl

theorem exec_modeEffect (h : exec i s = .next t) : ModeEffect i s t := by
  cases exec_cases i s t h with
  | trapped n savedPc htrap => exact .trapped n savedPc htrap
  | plain hk => exact .kept hk.e hk.p
  | storedByte hk => exact .kept hk.e hk.p
  | storedWord hk => exact .kept hk.e hk.p
  | system hi hp => exact .of_system hi hp h

end

/-! ## User mode (rules R225, R226, 20_memory.md rule R52) -/

section

variable {s t : State} {a v : Word} {b : Byte} {x : Nat}

/-- An access that passes its checks in user mode lies within the limits. -/
theorem within_limits_of_checkAccess {n : Nat} (hp : s.flags.p = false) (h : checkAccess s a n = .ok ()) :
    s.mplow.toNat ≤ a.toNat ∧ a.toNat + n - 1 ≤ s.mphigh.toNat :=
  (admits_iff.mp (checkAccess_eq_ok.mp h).2).resolve_left (by simp [hp])

theorem writeByte_confined (hp : s.flags.p = false) (h : writeByte s a b = .ok t)
    (hx : x < s.mplow.toNat ∨ s.mphigh.toNat < x) : t.byteAt x = s.byteAt x := by
  obtain ⟨hc, _, rfl⟩ := writeByte_eq_ok.mp h
  have hlimits := within_limits_of_checkAccess hp hc
  rw [byteAt_storeByte_ne _ _ (by omega)]

theorem writeWord_confined (hp : s.flags.p = false) (h : writeWord s a v = .ok t)
    (hx : x < s.mplow.toNat ∨ s.mphigh.toNat < x) : t.byteAt x = s.byteAt x := by
  obtain ⟨hc, _, _, rfl⟩ := writeWord_eq_ok.mp h
  have hlimits := within_limits_of_checkAccess hp hc
  rw [byteAt_storeByte_ne _ _ (by omega), byteAt_storeByte_ne _ _ (by omega)]

/-- In user mode an instruction that takes no trap leaves the system state, and memory outside the limits. -/
theorem exec_confined {i : Instr} (hp : s.flags.p = false) (h : exec i s = .next t) (ht : t.flags.p = false) :
    KeepsSystem s t ∧ ∀ x, (x < s.mplow.toNat ∨ s.mphigh.toNat < x) → t.byteAt x = s.byteAt x := by
  cases exec_cases i s t h with
  | trapped n savedPc htrap => simp [trapFrame_privileged htrap] at ht
  | plain hk hm => exact ⟨hk, fun x _ => State.byteAt_congr hm x⟩
  | storedByte hk a b u hw hm =>
    exact ⟨hk, fun x hx => (State.byteAt_congr hm x).trans (writeByte_confined hp hw hx)⟩
  | storedWord hk a v u hw hm =>
    exact ⟨hk, fun x hx => (State.byteAt_congr hm x).trans (writeWord_confined hp hw hx)⟩
  | system _ hprivileged => simp [hp] at hprivileged

theorem KeepsSystem.sameSystemState (h : KeepsSystem s t) (hp : s.flags.p = false) : SameSystemState s t :=
  ⟨h.ssp hp, h.mplow, h.mphigh, h.e, h.extPortHi, h.ioLog, h.sdArmed, h.halted⟩

/-- Only an armed micro-SD controller changes memory at a boundary (20_memory.md rule R62, log 22). -/
theorem byteAt_boundary_of_not_armed (h : s.sdArmed = false) (x : Nat) : s.boundary.byteAt x = s.byteAt x :=
  State.byteAt_congr (by simp [h]) x

end

/-! ## An exception of the operand read (rules R202, R203, R221, R228) -/

section

variable {s : State} {rd : Reg} {src : Src} {e : Exc} (h : operand s src = .error (.trap e))
include h

theorem exec_of_operand_trap {i : Instr} {f : Word → Word → Except Stop (Word × Vcsz)}
    (he : exec i s = binary rd src s f) : exec i s = raise e (s.pc + BitVec.ofNat 16 (2 * src.words)) s :=
  he.trans (binary_of_trap h)

theorem exec_cmp_of_trap : exec (.cmp rd src) s = raise e (s.pc + BitVec.ofNat 16 (2 * src.words)) s := by
  rw [exec_cmp, complete_bind_of_trap h, nextPc]

theorem exec_mull_of_trap (hrd : beginsPair rd = true) :
    exec (.mull rd src) s = raise e (s.pc + BitVec.ofNat 16 (2 * src.words)) s := by
  obtain ⟨rh, hrh, _⟩ := pairHigh_of_beginsPair hrd
  rw [exec_mull, hrh, Option.elim_some, complete_bind_of_trap h, nextPc]

theorem exec_divl_of_trap (hrd : beginsPair rd = true) :
    exec (.divl rd src) s = raise e (s.pc + BitVec.ofNat 16 (2 * src.words)) s := by
  obtain ⟨rh, hrh, _⟩ := pairHigh_of_beginsPair hrd
  rw [exec_divl, hrh, Option.elim_some, complete_bind_of_trap h, nextPc]

end

/-! ## The statements -/

/-- Settles O54: of what can be done to P (`ModeEffect`), only the word popped by RETI clears it. -/
theorem onlyRetiLeavesPrivilegedMode : Obligations.OnlyRetiLeavesPrivilegedMode := by
  intro s t h hp ht
  obtain ⟨n, savedPc, htrap⟩ | ⟨hq, i, hi, hexec⟩ := step_traps_or_executes h
  · simp [trapFrame_privileged htrap] at ht
  cases exec_modeEffect hexec with
  | trapped n savedPc htrap => simp [trapFrame_privileged htrap] at ht
  | kept _ hkept => simp [hkept, hp] at ht
  | enabled _ _ hf => simp [hf, hp] at ht
  | disabled _ _ hf => simp [hf, hp] at ht
  | returned hreti _ f hread hf => exact ⟨hq, hreti ▸ hi, f, hread, by rwa [hf] at ht⟩

/-- Settles O55: an instruction of user mode that takes no trap leaves P. -/
theorem onlyTrapsEnterPrivilegedMode : Obligations.OnlyTrapsEnterPrivilegedMode := by
  intro s t h hp ht
  obtain ⟨n, savedPc, htrap⟩ | ⟨_, i, _, hexec⟩ := step_traps_or_executes h
  · exact ⟨n, savedPc, trapEntry_eq_next.mpr htrap⟩
  cases exec_modeEffect hexec with
  | trapped n savedPc htrap => exact ⟨n, savedPc, trapEntry_eq_next.mpr htrap⟩
  | kept _ hkept => simp [hkept, hp] at ht
  | enabled _ hprivileged => simp [hp] at hprivileged
  | disabled _ hprivileged => simp [hp] at hprivileged
  | returned _ hprivileged => simp [hp] at hprivileged

/-- Settles O56: such a step takes no trap, so that it executes an instruction, which `exec_confined` confines. -/
theorem userModeIsConfined : Obligations.UserModeIsConfined := by
  intro s t h hp ht
  obtain ⟨n, savedPc, htrap⟩ | ⟨_, i, _, hexec⟩ := step_traps_or_executes h
  · simp [trapFrame_privileged htrap] at ht
  obtain ⟨hkeeps, hmem⟩ := exec_confined (s := s.boundary) hp hexec ht
  exact ⟨hkeeps.sameSystemState hp, hmem,
    fun hsd a ha => (hmem a ha).trans (byteAt_boundary_of_not_armed hsd a)⟩

/-- Settles O58: of what can be done to E (`ModeEffect`), EI and the word popped by RETI set it, in privileged mode. -/
theorem onlyEiAndRetiEnableInterrupts : Obligations.OnlyEiAndRetiEnableInterrupts := by
  intro s t h he ht
  obtain ⟨n, savedPc, htrap⟩ | ⟨_, i, hi, hexec⟩ := step_traps_or_executes h
  · simp [trapFrame_masked htrap] at ht
  cases exec_modeEffect hexec with
  | trapped n savedPc htrap => simp [trapFrame_masked htrap] at ht
  | kept hkept => simp [hkept, he] at ht
  | enabled hei hp => exact ⟨hp, .inl (hei ▸ hi)⟩
  | disabled _ _ hf => simp [hf] at ht
  | returned hreti hp => exact ⟨hp, .inr (hreti ▸ hi)⟩

/-- Settles O16: the accepted source is the one `pickIrq` chooses, which chooses exactly when some line requests. -/
theorem interruptIsAcceptedWhenEnabled : Obligations.InterruptIsAcceptedWhenEnabled := by
  intro s x rest hin hh
  refine ⟨acceptedIrq_masked, fun he hx => ?none, fun he hx => ?some, fun n he hx => ?single⟩
  case none => rw [acceptedIrq_enabled he hin, pickIrq_eq_none_iff.mpr hx]
  case some =>
    obtain ⟨n, hn⟩ := Option.ne_none_iff_exists'.mp (mt (pickIrq_eq_none_iff (k := s.draws)).mp hx)
    exact ⟨n, pickIrq_requests hn, step_of_acceptedIrq hh ((acceptedIrq_enabled he hin).trans hn)⟩
  case single => exact step_of_acceptedIrq hh (acceptedIrq_single he hin hx)

/-- Settles O17: the entry where it can be made, the odd SSP, and the two answers of `raise`. -/
theorem trapEntrySavesThePsw : Obligations.TrapEntrySavesThePsw :=
  ⟨fun n savedPc _ _ _ =>
    ⟨fun h => trapEntry_of_ready h savedPc, fun hodd => trapEntry_of_trap (trapFrame_of_odd hodd), vectorAddr_toNat n,
      fun _ he => raise_of_mem he savedPc, fun _ he => raise_of_not_mem he savedPc, rfl, rfl, rfl, rfl, rfl, rfl⟩,
    fun _ _ h => runEndsAt_of_reaches h⟩

/-- Settles O48: EI leaves the request lines, and with E = 1 a single one is accepted. -/
theorem eiEnablesInterrupts : Obligations.EiEnablesInterrupts := fun _ hp =>
  ⟨_, exec_ei_privileged hp, rfl, fun _ _ _ hin hx => acceptedIrq_single rfl hin hx⟩

/-- Settles O50: SVC is the trap entry of vector 15 (O17), in either mode. -/
theorem svcTrapsThroughVector15 : Obligations.SvcTrapsThroughVector15 := by
  intro s hi lo h
  rw [exec_svc]
  exact trapEntry_of_ready h (s.pc + 2)

/-- Settles O49: DI leaves E = 0, which masks every request. -/
theorem diDisablesInterrupts : Obligations.DiDisablesInterrupts :=
  ⟨rfl, rfl, fun _ => ⟨fun hp => ⟨_, exec_di_privileged hp, rfl, acceptedIrq_masked rfl⟩,
    fun hp => exec_privileged_in_user_mode hp rfl⟩⟩

/-- Settles O51: HALT halts, and a halted CPU has no step. -/
theorem haltStopsTheCpu : Obligations.HaltStopsTheCpu :=
  ⟨fun _ hp => exec_halt_privileged hp, fun _ h => step_of_halted h⟩

/-- Settles O19: each of the seventeen reads its operand before it writes; MULL and DIVL look for the pair first. -/
theorem operandExceptionIsRaised : Obligations.OperandExceptionIsRaised := by
  intro s rd src e h
  simp only [List.forall_mem_cons, List.not_mem_nil, false_imp_iff, implies_true, and_true]
  exact ⟨fun _ => exec_ld_of_trap h,
    fun _ => exec_of_operand_trap h (exec_add s rd src),
    fun _ => exec_of_operand_trap h (exec_sub s rd src),
    fun _ => exec_cmp_of_trap h,
    fun _ => exec_of_operand_trap h (exec_and s rd src),
    fun _ => exec_of_operand_trap h (exec_or s rd src),
    fun _ => exec_of_operand_trap h (exec_xor s rd src),
    fun _ => exec_of_operand_trap h (exec_adds s rd src),
    fun _ => exec_of_operand_trap h (exec_mul s rd src),
    fun _ => exec_of_operand_trap h (exec_div s rd src),
    fun _ => exec_of_operand_trap h (exec_mod s rd src),
    fun hrd => exec_mull_of_trap h hrd,
    fun hrd => exec_divl_of_trap h hrd,
    fun _ => exec_of_operand_trap h (exec_shla s rd src),
    fun _ => exec_of_operand_trap h (exec_shll s rd src),
    fun _ => exec_of_operand_trap h (exec_shra s rd src),
    fun _ => exec_of_operand_trap h (exec_shrl s rd src)⟩

/-- Settles O22: each of the five stands in `PRIV_SET`. -/
theorem privilegedInstructionsTrapInUserMode : Obligations.PrivilegedInstructionsTrapInUserMode := by
  intro s rd p hp
  have traps (i : Instr) (hi : privSet i = true) := exec_privileged_in_user_mode hp hi
  exact ⟨traps, traps (.inp rd p) rfl, traps (.outp rd p) rfl, traps .ei rfl, traps .di rfl, traps .halt rfl⟩

/-- Settles O11: each list of bytes is the encoding of its instruction, which `decodeOfEncode` reads back. -/
theorem sampleWordsDecode : Obligations.SampleWordsDecode :=
  ⟨decodeOfEncode (.ld (.g 0) (.mem (.index 0x0200 (.g 1)))) [],
    decodeOfEncode (.st (.g 1) (.fpRel 1)) [],
    decodeOfEncode (.adds (.g 1) (.reg (.g 2))) [],
    decodeOfEncode (.divl (.g 2) (.imm 0x0100)) [],
    decodeOfEncode (.shra (.g 1) (.imm4 4)) [],
    decodeOfEncode (.jnz (.indr (.g 5))) [],
    decodeOfEncode (.outp (.g 0) (.bIndr (.g 1))) [],
    decodeOfEncode (.pop .sp) [],
    decodeOfEncode .reti [],
    decodeOfEncode .halt []⟩

end Sys2Proof.Machine
